-- ==== Sys2Proof/Word.lean ====
section
/-! DEFINITION. The word types of the CORE and the type of its exact real and complex numbers.

Bit 0 is the least significant bit of every integer (00_scope.md R8). A register of w bits is `BitVec w`;
a count or an index that the spec gives no fixed width is a `Nat`. -/

namespace Sys2Proof

/-- A 32-bit register of the register space (10_state.md R21). -/
abbrev Word32 := BitVec 32
/-- A byte of a payload (30_encoding.md R113). -/
abbrev Byte := BitVec 8
/-- The data part of one codeword (00_scope.md R16). -/
abbrev Nibble := BitVec 4
/-- A bin, held in 12 bits (30_encoding.md R129). -/
abbrev Bin := BitVec 12
/-- The descriptor `OPSEL` (30_encoding.md R120). -/
abbrev Opsel := BitVec 16

/-- Exact numbers, the model's `SAMPLE_T` (00_scope.md R7, R12; 93_implementation_defined.md I1): all rational
combinations of roots of unity, a field in which the complex arithmetic of 41_demod.md stays exact and every sample that
41_demod.md R173 and 30_encoding.md R126 define has its value. `rat q` is the rational `q`; `odd t` is the sum of
`c * exp(j 2 pi x)` over the entries `(x, c)` of `t`, each `x` of odd denominator; `ext k a b` is `a + b * z k`, where
`z k = exp(j pi / 2^k)` (so `z 1 = j`, and the square of `z (k + 1)` is `z k`). A sample component and a soft value are
the members that are real. DESIGN CHOICE, log entry 3. -/
inductive Num where
  | rat (q : Rat)
  | odd (terms : List (Rat × Rat))
  | ext (k : Nat) (a b : Num)
deriving DecidableEq, Repr, Inhabited

end Sys2Proof
end

