-- ==== Sys2Proof/Config.lean ====
section
/-! DEFINITION. What an implementation fixes: the spec's reference values of the open parameters, and the free values of
a finite-precision implementation.

`SAMP_DEPTH`, `QDEPTH`, `REC_DEPTH` and `DEMOD_NUM` are OPEN (00_scope.md R7). They stand in `State.par`, so that a
statement about every state holds for every value of them; the constants here are only what `State.reset` puts there
(log entries 1 and 2). The opaque functions have no body a proof could see: they stand for whatever a finite
implementation returns where 41_demod.md R169 leaves it open. -/

namespace Sys2Proof.Config

/-- Reference value of `SAMP_DEPTH` (00_scope.md R7). -/
def refSampDepth : Nat := 131072
/-- Reference value of `QDEPTH` (00_scope.md R7). -/
def refQDepth : Nat := 16
/-- Reference value of `REC_DEPTH` (00_scope.md R7). -/
def refRecDepth : Nat := 4

/-- The error bound of a finite-precision demodulator on one window (41_demod.md R169): a function of the operands
of the step, `SF`, `OS`, the window, `ref` and `c2`. A free value, log entry 2. -/
opaque demodErr (sf os : Nat) (window : List Num) (refUp : Bool) (c2 : Int) : Rat

/-- The bin a finite-precision demodulator returns when no line exceeds every other by more than its error bound
(41_demod.md R169, 93_implementation_defined.md I2). Taken modulo N. A free value, log entry 2. -/
opaque demodBin (sf os : Nat) (window : List Num) (refUp : Bool) (c2 : Int) : Nat

/-- Entry `k` of `ll` as a finite-precision demodulator rounds it (41_demod.md R169). A free value, log entry 2. -/
opaque demodLl (sf os : Nat) (window : List Num) (refUp : Bool) (c2 : Int) (k : Nat) : Rat

/-- The soft value of bit `b` that a finite-precision Gray Demapper computes from the likelihoods `ll` (43_gray.md R224;
00_scope.md R12, 10_state.md R45). A function of the operands, not of the exact result: a tie of exact results need be no
tie here (93_implementation_defined.md K1). A free value, log entry 2. -/
opaque softGray (sf : Nat) (ll : List Num) (b : Nat) : Rat

/-- The metric of nibble `n` that a finite-precision soft decoder computes from the codeword `l` (45_hamming.md R248;
00_scope.md R12, 10_state.md R45). A function of the operands, not of the exact result: a tie of exact metrics need be no
tie here (93_implementation_defined.md K1). A free value, log entry 2. -/
opaque softMetric (cr : Nat) (l : List Num) (n : Nat) : Rat

end Sys2Proof.Config
end

