-- ==== Sys2Proof/Syntax.lean ====
section
/-! DEFINITION. The operations of the CORE, one constructor per row of the table of 30_encoding.md R121, and the lines of
a stimulus (30_encoding.md R124).

An operation is one atomic step of one agent. The word that names it carries no operand, but for `HAMM.S`, whose
`SUB` field is the block's tag `cr`: host operands arrive at the ports, stage operands are the heads of the input
FIFOs and mailboxes. -/

namespace Sys2Proof

inductive Instr where
  /-- `REG_WR`, 40_host_ops.md R140. -/
  | regWr
  /-- `REG_RD`, R141. -/
  | regRd
  /-- `START`, R144. -/
  | start
  /-- `STOP`, R147. -/
  | stop
  /-- `SRESET`, R148. -/
  | sreset
  /-- `SAMP_PUSH`, R149. -/
  | sampPush
  /-- `REC_POP`, R150. -/
  | recPop
  /-- `DEMOD.H`, 41_demod.md R171. -/
  | demodH
  /-- `DEMOD.S`, R172. -/
  | demodS
  /-- `SYNC.SEARCH`, 42_sync.md R184. -/
  | syncSearch
  /-- `SYNC.LOCKED`, R188. -/
  | syncLocked
  /-- `SYNC.SWCHK`, R189. -/
  | syncSwchk
  /-- `SYNC.SFD`, R192. -/
  | syncSfd
  /-- `SYNC.FRAME`, R197. -/
  | syncFrame
  /-- `SYNC.FB`, R203. -/
  | syncFb
  /-- `GRAY.H`, 43_gray.md R221. -/
  | grayH
  /-- `GRAY.S`, R224. -/
  | grayS
  /-- `DEINT.H`, 44_deinterleaver.md R234. -/
  | deintH
  /-- `DEINT.S`, R235. -/
  | deintS
  /-- `HAMM.CR1`, 45_hamming.md R243. -/
  | hammCr1
  /-- `HAMM.CR2`, R244. -/
  | hammCr2
  /-- `HAMM.CR3`, R245. -/
  | hammCr3
  /-- `HAMM.CR4`, R246. -/
  | hammCr4
  /-- `HAMM.S`, R248; `sub` is the field `SUB`, the block's tag `cr`. -/
  | hammS (sub : BitVec 4)
  /-- `HDR.PARSE`, 46_header.md R263. -/
  | hdrParse
  /-- `HDR.PASS`, R270. -/
  | hdrPass
  /-- `HDR.IMPL`, R271. -/
  | hdrImpl
  /-- `DEWH.START`, 47_dewhitener.md R283. -/
  | dewhStart
  /-- `DEWH.NIB`, R284. -/
  | dewhNib
  /-- `CRCV.START`, 48_crc.md R293. -/
  | crcvStart
  /-- `CRCV.BYTE`, R294. -/
  | crcvByte
deriving DecidableEq, Repr

/-- One line of a stimulus, with its operands (30_encoding.md R124, R125). `START`, `STOP` and `SRESET` are writes of
`CTRL`. `sym` is the test-bench line `SYM`; `powerOn` sets the power-on reset input of 70_reset_and_hazards.md R340, `true` asserting
it. -/
inductive Stim where
  | regW (idx : BitVec 6) (v : Word32)
  | regR (idx : BitVec 6)
  | samp (i q : Num)
  | pop
  | sym (k : Bin)
  | powerOn (asserted : Bool)
deriving DecidableEq, Repr

end Sys2Proof
end

