-- ==== Sys2Proof/Machine/State.lean ====
section
/-! DEFINITION. The state of the CORE (10_state.md), the items and messages its edges carry (30_encoding.md R127 to R129), the
value of all of it after reset (10_state.md R60), and how a step can stop. State is plain data. -/

namespace Sys2Proof.Machine

/-- `sync_state` (10_state.md R30). The encodings 5 to 7 never occur and are no constructors here (R123). -/
inductive SyncState where
  | searching | preambleLocked | syncWordCheck | sfdAlign | inFrame
deriving DecidableEq, Repr

/-- `hdr_state` (10_state.md R39). -/
inductive HdrState where
  | idle | pass | drop
deriving DecidableEq, Repr

/-- The reference of a window (10_state.md R36). -/
inductive Ref where
  | normal | up
deriving DecidableEq, Repr

/-- The status of a codeword (45_hamming.md R241). -/
inductive CwStatus where
  | none | corrected | uncorr
deriving DecidableEq, Repr

/-- `crc_ok` (30_encoding.md R118). The code 3 is never produced and is no constructor. -/
inductive CrcOk where
  | unverified | pass | fail
deriving DecidableEq, Repr

/-- The numeric behaviour of the demodulator and of the soft values, `DEMOD_NUM` (00_scope.md R7, R12). -/
inductive NumMode where
  /-- The exact arithmetic the rules are written in: the spec's reference value. -/
  | exact
  /-- A finite-precision implementation, bound by 41_demod.md R169 alone. -/
  | finite
deriving DecidableEq, Repr

/-- The nine agents (60_exceptions.md R319). -/
inductive Agent where
  | host | demod | sync | gray | deint | hamm | hdr | dewh | crcv
deriving DecidableEq, Repr

/-- The causes (60_exceptions.md R300). -/
inductive Cause where
  | record | hdrChk | hdrFec | hdrRsvd | payFec | crcFail | ovf | cfgErr | busErr | syncMiss
deriving DecidableEq, Repr

/-- `DCTL`, the message in `DBOX` (10_state.md R36, 30_encoding.md R128). `skip` is a count of samples: its width depends on
`WLEN` (R128), so it is a `Nat` (log entry 13). -/
structure Dctl where
  ref  : Ref
  c2   : BitVec 12
  skip : Nat
deriving DecidableEq, Repr

/-- The message in `MBOX` (10_state.md R40, 30_encoding.md R127). -/
inductive MboxMsg where
  | params (len : Byte) (cr : BitVec 3) (crc : Bool)
  | abort (cause : BitVec 4)
deriving DecidableEq, Repr

/-- `FP`, the live Frame Parameters (10_state.md R35). -/
structure FrameParams where
  valid : Bool
  cr    : BitVec 3
  len   : Byte
  lenV  : Bool
  crc   : Bool
deriving DecidableEq, Repr

/-- One complex sample `i + j q` (20_memory.md R74). -/
structure Sample where
  i : Num
  q : Num
deriving DecidableEq, Repr

/-- `SymEvt` (30_encoding.md R129); `ll` is empty in hard mode. -/
structure SymEvt where
  bin : Bin
  ll  : List Num
deriving DecidableEq, Repr

/-- `SymItem` (30_encoding.md R129). -/
structure SymItem where
  bin : Bin
  ll  : List Num
  sof : Bool
  hdr : Bool
  cr  : BitVec 3
deriving DecidableEq, Repr

/-- One bit group (30_encoding.md R104): `g` in hard mode, `gl` (entry b stands for bit b) in soft mode; the other is 0 or
empty. -/
structure Group where
  g  : BitVec 12
  gl : List Num
deriving DecidableEq, Repr

/-- `GroupItem` (30_encoding.md R129). -/
structure GroupItem where
  grp : Group
  sof : Bool
  hdr : Bool
  cr  : BitVec 3
deriving DecidableEq, Repr

/-- `CwBlock` (30_encoding.md R129): `cw` in hard mode, `cwl` (entry p of a codeword stands for its bit p) in soft mode. -/
structure CwBlock where
  cw  : List (BitVec 8)
  cwl : List (List Num)
  sof : Bool
  hdr : Bool
  cr  : BitVec 3
deriving DecidableEq, Repr

/-- `NibBlock` (30_encoding.md R129). -/
structure NibBlock where
  nib : List Nibble
  st  : List CwStatus
  sof : Bool
  hdr : Bool
  cr  : BitVec 3
deriving DecidableEq, Repr

/-- An item of `E7` (30_encoding.md R129). -/
inductive E7Item where
  | fstart (len : Byte) (cr : BitVec 3) (crc : Bool)
  | nib (n : Nibble)
deriving DecidableEq, Repr

/-- An item of `E8` (30_encoding.md R129). -/
inductive E8Item where
  | fstart (len : Byte) (crc : Bool)
  | byte (b : Byte)
deriving DecidableEq, Repr

/-- A record (30_encoding.md R116). -/
structure Record where
  len   : Byte
  crcOk : CrcOk
  bytes : List Byte
deriving DecidableEq, Repr

/-- A byte memory in canonical form: addresses strictly rising, no entry that holds what an unlisted address reads as. -/
abbrev Memory := List Host.Cell

/-- Implementation parameters (00_scope.md R7). No operation writes them (10_state.md R58; log entries 1, 2). -/
structure Params where
  sampDepth : Nat
  qDepth    : Nat
  recDepth  : Nat
  num       : NumMode
deriving DecidableEq, Repr

/-- The environment, the model's own: the host operations and agent choices still to come (log entry 6), the operands
that stand at the ports and the results the ports gave last (log entry 7), and the level of the power-on reset input, true
while it is asserted (70_reset_and_hazards.md R340; log entry 11). -/
structure Env where
  stim   : List Stim
  sched  : List Agent
  idx    : BitVec 6
  v      : Word32
  i      : Num
  q      : Num
  rdData : Word32
  recOut : Option Record
  por    : Bool
deriving DecidableEq, Repr

/-- The stored registers of the register space, and the mode bits of 10_state.md R43. `CTRL` stores nothing; `STATUS`, `EST`,
`DRIFT` are composed on a read. -/
structure HostRegs where
  sf       : Word32
  bw       : Word32
  fs       : Word32
  mode     : Word32
  paylen   : Word32
  sync     : Word32
  det      : Word32
  irqEn    : BitVec 9
  evt      : BitVec 9
  dropCnt  : Word32
  frameCnt : Word32
  run      : Bool
  cfgErr   : Bool
  cfgCode  : BitVec 4
deriving DecidableEq, Repr

/-- The registers of the Frame Synchronizer (10_state.md R30 to R35). -/
structure SyncRegs where
  state    : SyncState
  symIdx   : BitVec 4
  symRem   : BitVec 10
  hdrWait  : Bool
  runLen   : BitVec 8
  prevV    : Bool
  prev     : Bin
  driftSum : BitVec 20
  kLock    : Bin
  syncIdx  : BitVec 2
  sfdIdx   : BitVec 1
  kdn      : Bin
  cfo2     : BitVec 12
  fp       : FrameParams
deriving DecidableEq, Repr

/-- The registers of the Deinterleaver (10_state.md R38): eight block entries, their count, the tags. -/
structure DeintRegs where
  blk : List Group
  cnt : BitVec 4
  cr  : BitVec 3
  hdr : Bool
  sof : Bool
deriving DecidableEq, Repr

/-- The registers of the Dewhitener (10_state.md R41). -/
structure DewhRegs where
  nibV    : Bool
  nibHold : Nibble
  byteIdx : BitVec 9
  lfsr    : Byte
  len     : Byte
  crc     : Bool
  isOpen  : Bool
deriving DecidableEq, Repr

/-- The registers of the CRC Verifier (10_state.md R42); `pay` is the space `PAY`. -/
structure CrcvRegs where
  acc    : BitVec 16
  pay    : Memory
  payCnt : BitVec 9
  len    : Byte
  crc    : Bool
  rx     : BitVec 16
  isOpen : Bool
deriving DecidableEq, Repr

/-- The whole state (10_state.md R20). -/
structure State where
  par      : Params
  env      : Env
  regs     : HostRegs
  sync     : SyncRegs
  deint    : DeintRegs
  hdrState : HdrState
  dewh     : DewhRegs
  crcv     : CrcvRegs
  dbox     : Option Dctl
  mbox     : Option MboxMsg
  e1       : List Sample
  e2       : List SymEvt
  e3       : List SymItem
  e4       : List GroupItem
  e5       : List CwBlock
  e6       : List NibBlock
  e7       : List E7Item
  e8       : List E8Item
  e9       : List Record
deriving DecidableEq, Repr

/-- The only fault. The causes of 60_exceptions.md are flags, and no operation is undefined in any state (R316,
70_reset_and_hazards.md R352). -/
inductive Fault where
  /-- A write of the space `PAY` at index `i`, past its 255 bytes (10_state.md R50). Raised by the one operation that writes
  `PAY`; no meaning reaches it, since `pay_cnt < cv_len` bounds the index. Safe. -/
  | payIndex (i : Nat)
deriving DecidableEq, Repr

/-- Why a step has no meaning. -/
inductive Refusal where
  /-- An arm of `exec` that has no meaning yet; no arm answers it. Safe. -/
  | notModelled (mnemonic : String)
  /-- The descriptor formed from the state names no operation (30_encoding.md R123, "nothing is defined for them"). Raised by
  the step. Safe. -/
  | noOperation (w : Opsel)
  /-- The test-bench line `SYM` in soft mode (30_encoding.md R125, "defined only for `SOFT` = 0"). Raised by the step.
  Safe. -/
  | symInSoftMode
deriving DecidableEq, Repr

/-- The registers of the register space after reset: 0 (10_state.md R21, R60). -/
def HostRegs.reset : HostRegs where
  sf := 0
  bw := 0
  fs := 0
  mode := 0
  paylen := 0
  sync := 0
  det := 0
  irqEn := 0
  evt := 0
  dropCnt := 0
  frameCnt := 0
  run := false
  cfgErr := false
  cfgCode := 0

/-- `FP` after reset: all 0 (10_state.md R35). -/
def FrameParams.reset : FrameParams := ⟨false, 0, 0, false, false⟩

/-- The Frame Synchronizer after reset (10_state.md R60). -/
def SyncRegs.reset : SyncRegs where
  state := .searching
  symIdx := 0
  symRem := 0
  hdrWait := false
  runLen := 0
  prevV := false
  prev := 0
  driftSum := 0
  kLock := 0
  syncIdx := 0
  sfdIdx := 0
  kdn := 0
  cfo2 := 0
  fp := .reset

/-- The Deinterleaver after reset. `blk`, `blk_cr`, `blk_hdr`, `blk_sof` are unspecified (10_state.md R60): DESIGN CHOICE 0, log
entry 4. -/
def DeintRegs.reset : DeintRegs where
  blk := List.replicate 8 ⟨0, []⟩
  cnt := 0
  cr := 0
  hdr := false
  sof := false

/-- The Dewhitener after reset. `nib_hold`, `dw_len`, `dw_crc` are unspecified (R60): DESIGN CHOICE 0, log entry 4. -/
def DewhRegs.reset : DewhRegs where
  nibV := false
  nibHold := 0
  byteIdx := 0
  lfsr := 0xFF
  len := 0
  crc := false
  isOpen := false

/-- The CRC Verifier after reset. `pay`, `crc_rx`, `cv_len`, `cv_crc` are unspecified (R60): DESIGN CHOICE 0, log entries 4
and 5. -/
def CrcvRegs.reset : CrcvRegs where
  acc := 0
  pay := []
  payCnt := 0
  len := 0
  crc := false
  rx := 0
  isOpen := false

/-- The reference values of the open parameters (00_scope.md R7), DESIGN CHOICE, log entries 1 and 2. -/
def Params.reference : Params := ⟨Config.refSampDepth, Config.refQDepth, Config.refRecDepth, .exact⟩

/-- No host operation pending, nothing at the ports, the reset input released (log entries 6, 7 and 11). -/
def Env.reset : Env where
  stim := []
  sched := []
  idx := 0
  v := 0
  i := .rat 0
  q := .rat 0
  rdData := 0
  recOut := none
  por := false

/-- The machine right after power-on reset (10_state.md R60). -/
def State.reset : State where
  par := .reference
  env := .reset
  regs := .reset
  sync := .reset
  deint := .reset
  hdrState := .idle
  dewh := .reset
  crcv := .reset
  dbox := none
  mbox := none
  e1 := []
  e2 := []
  e3 := []
  e4 := []
  e5 := []
  e6 := []
  e7 := []
  e8 := []
  e9 := []

end Sys2Proof.Machine
end

