-- ==== Sys2Proof/Machine/Flags.lean ====
section
/-! DEFINITION. The flags of the CORE: the sticky event flags `EVT` (10_state.md R27), the interrupt line (60_exceptions.md R311), and
the read-out registers that show flags and sequencing state (10_state.md R23, R29). The CORE has no arithmetic
condition codes (R44). -/

namespace Sys2Proof.Machine

/-- The code of a cause, its bit number in `EVT` where it has one (60_exceptions.md R300). -/
def Cause.code : Cause → Nat
  | .record => 0
  | .hdrChk => 1
  | .hdrFec => 2
  | .hdrRsvd => 3
  | .payFec => 4
  | .crcFail => 5
  | .ovf => 6
  | .cfgErr => 7
  | .busErr => 8
  | .syncMiss => 9

/-- `EVT` with the bit of code `n` set; a code past 8 has no bit (60_exceptions.md R300, R301). -/
def setEvt (evt : BitVec 9) (n : Nat) : BitVec 9 := evt ||| (1 <<< n)

/-- `EVT` after a write of `v`: write 1 to clear (40_host_ops.md R140). -/
def clearEvt (evt : BitVec 9) (v : BitVec 9) : BitVec 9 := evt &&& ~~~v

/-- The interrupt line: 1 exactly when `(EVT and IRQ_EN) != 0` (60_exceptions.md R311). -/
def State.irq (s : State) : Bool := s.regs.evt &&& s.regs.irqEn != 0

/-- The encoding of `sync_state` (10_state.md R30). -/
def SyncState.code : SyncState → BitVec 3
  | .searching => 0
  | .preambleLocked => 1
  | .syncWordCheck => 2
  | .sfdAlign => 3
  | .inFrame => 4

/-- The encoding of `hdr_state` (10_state.md R39). -/
def HdrState.code : HdrState → BitVec 2
  | .idle => 0
  | .pass => 1
  | .drop => 2

/-- The encoding of a codeword status (45_hamming.md R241). -/
def CwStatus.code : CwStatus → BitVec 2
  | .none => 0
  | .corrected => 1
  | .uncorr => 2

/-- The encoding of `crc_ok` (30_encoding.md R118). -/
def CrcOk.code : CrcOk → BitVec 2
  | .unverified => 0
  | .pass => 1
  | .fail => 2

/-- The status of a block: the largest of its codewords' statuses (45_hamming.md R241). -/
def blockStatus (st : List CwStatus) : CwStatus :=
  if st.contains .uncorr then .uncorr else if st.contains .corrected then .corrected else .none

/-- The register `STATUS` (10_state.md R23): RUN [0], CFG_ERR [1], SYNC_STATE [4:2], HDR_WAIT [5], REC_AVAIL [6],
CFG_ERR_CODE [11:8]. -/
def State.statusWord (s : State) : Word32 :=
  (0 : BitVec 20) ++ s.regs.cfgCode ++ (0 : BitVec 1) ++ BitVec.ofBool (!s.e9.isEmpty) ++
    BitVec.ofBool s.sync.hdrWait ++ s.sync.state.code ++ BitVec.ofBool s.regs.cfgErr ++ BitVec.ofBool s.regs.run

/-- The register `EST` (10_state.md R29): CFO2 [11:0], K_LOCK [27:16]. -/
def State.estWord (s : State) : Word32 := (0 : BitVec 4) ++ s.sync.kLock ++ (0 : BitVec 4) ++ s.sync.cfo2

/-- The register `DRIFT` (10_state.md R29): DRIFT_SUM [19:0], RUN_LEN [31:24]. -/
def State.driftWord (s : State) : Word32 := s.sync.runLen ++ (0 : BitVec 4) ++ s.sync.driftSum

end Sys2Proof.Machine
end

