-- ==== Sys2Proof/Machine/Exact.lean ====
section
/-! DEFINITION. Exact arithmetic on `Num`, the field of all roots of unity (00_scope.md R12: the rules of 41_demod.md are
written over exact reals).

A number is a tower over leaves. `ext k a b` is `a + b * z k` with `z k = exp(j pi / 2^k)`; a leaf is a rational or a sum of
roots of unity of odd order. In canonical form levels fall strictly towards the leaves, `b` is not 0, and a leaf is written in
one basis, so each number has one form. Each operation recurses on a level that bounds its operands and splits each operand
`x` into `x = lo x + hi x * z (L + 1)`; at level 0 it is the operation on leaves. -/

namespace Sys2Proof.Num

/-! ### Leaves: sums of roots of unity of odd order

A term `(x, c)` stands for `c * exp(j 2 pi x)`. The angle `x`, in turns, is a sum of components, one for each prime `p` of
its denominator. A leaf is canonical when every component at a prime `p` is below `(p - 1) / p`, angles rise strictly and no
coefficient is 0: the terms left form a basis of the field. -/

/-- The fractional part of a number of turns. -/
def turn (x : Rat) : Rat := x - x.floor

/-- The largest power of `p` that divides `n`, found in `fuel` steps. -/
def primePart (p : Nat) : Nat → Nat → Nat
  | 0, _ => 1
  | fuel + 1, n => if p ≤ 1 ∨ n % p ≠ 0 then 1 else p * primePart p fuel (n / p)

/-- The prime factors of `n` from `p` on, found in `fuel` steps of trial division. -/
def primesFrom : Nat → Nat → Nat → List Nat
  | 0, _, _ => []
  | fuel + 1, p, n =>
    if n ≤ 1 then []
    else if n < p * p then [n]
    else if n % p = 0 then p :: primesFrom fuel (p + 1) (n / primePart p n n)
    else primesFrom fuel (p + 1) n

/-- The inverse of `a` modulo `m`, for `a` below `m` and prime to it, found in `fuel` steps of Euclid's algorithm. -/
def invMod : Nat → Nat → Nat → Nat
  | 0, _, _ => 0
  | fuel + 1, a, m => if a ≤ 1 then a else (m * (a - invMod fuel (m % a) a) + 1) / a

/-- The component of the angle `x` at the prime `p`. -/
def component (p : Nat) (x : Rat) : Rat :=
  let q := primePart p x.den x.den
  let m := x.den / q
  mkRat (x.num % q * invMod q (m % q) q % q) q

/-- The terms with no component of `p` from `(p - 1) / p` on: the `p` roots `exp(j 2 pi (x + i / p))` sum to 0. -/
def reduceAt (p : Nat) (t : List (Rat × Rat)) : List (Rat × Rat) :=
  t.flatMap fun (x, c) =>
    if mkRat (p - 1) p ≤ component p x then (List.range (p - 1)).map fun i => (turn (x - mkRat (i + 1) p), -c) else [(x, c)]

/-- A term added to terms with rising angles. -/
def insertTerm (x c : Rat) : List (Rat × Rat) → List (Rat × Rat)
  | [] => if c = 0 then [] else [(x, c)]
  | t :: l =>
    if t.1 < x then t :: insertTerm x c l
    else if t.1 = x then (if t.2 + c = 0 then l else (x, t.2 + c) :: l)
    else if c = 0 then t :: l
    else (x, c) :: t :: l

/-- The terms with angles rising, like terms added up. -/
def collect (t : List (Rat × Rat)) : List (Rat × Rat) := t.foldl (fun l p => insertTerm p.1 p.2 l) []

/-- A common denominator of the angles. -/
def order (t : List (Rat × Rat)) : Nat := t.foldl (fun n p => Nat.lcm n p.1.den) 1

/-- The leaf that terms sum to, in canonical form. -/
def ofTerms (t : List (Rat × Rat)) : Num :=
  let n := order t
  match (primesFrom n 2 n).foldl (fun l p => collect (reduceAt p l)) (collect t) with
  | [] => .rat 0
  | [(x, c)] => if x = 0 then .rat c else .odd [(x, c)]
  | l => .odd l

/-- The terms of a leaf. -/
def terms : Num → List (Rat × Rat)
  | .rat q => if q = 0 then [] else [(0, q)]
  | .odd t => t
  | .ext _ a _ => terms a

/-- The sum of two leaves. -/
def leafAdd : Num → Num → Num
  | .rat p, .rat q => .rat (p + q)
  | x, y => ofTerms (x.terms ++ y.terms)

/-- The product of two leaves. -/
def leafMul : Num → Num → Num
  | .rat p, .rat q => .rat (p * q)
  | x, y => ofTerms (x.terms.flatMap fun a => y.terms.map fun b => (turn (a.1 + b.1), a.2 * b.2))

/-- The inverse of a leaf, of 0 it is 0. The product of `x` and its other Galois conjugates is the rational norm of `x`. -/
def leafInv : Num → Num
  | .rat q => .rat q⁻¹
  | x =>
    let n := order x.terms
    let conjugates := ((List.range n).filter fun a => 2 ≤ a ∧ Nat.gcd a n = 1).map fun (a : Nat) =>
      ofTerms (x.terms.map fun p => (turn (a * p.1), p.2))
    let y := conjugates.foldl leafMul (.rat 1)
    match leafMul x y with
    | .rat q => leafMul y (.rat q⁻¹)
    | _ => .rat 0

/-! ### Canonical forms -/

/-- The canonical form below level `L`, with leaves that meet `leaf`: level at least 1, levels strictly falling, the high part
not 0. -/
def wfBelow (leaf : List (Rat × Rat) → Bool) : Nat → Num → Bool
  | _, .rat _ => true
  | _, .odd t => leaf t
  | L, .ext k a b => decide (1 ≤ k) && decide (k < L) && decide (b ≠ .rat 0) && wfBelow leaf k a && wfBelow leaf k b

/-- The level of a number: every root of unity it is written with is a power of `z level`. -/
def level : Num → Nat
  | .rat _ => 0
  | .odd _ => 0
  | .ext k _ _ => k

/-- A number in canonical form. -/
def canonical (x : Num) : Bool := wfBelow (fun t => decide (ofTerms t = .odd t)) (x.level + 1) x

/-- A number in canonical form whose leaves are rational: a rational combination of roots of unity of two-power order, as
every sample of a chirp or an offset is where `OS` is a power of two. -/
def wf (x : Num) : Bool := wfBelow (fun _ => false) (x.level + 1) x

/-! ### The field operations -/

/-- The part of `x` without `z k`. -/
def lo (k : Nat) : Num → Num
  | .rat q => .rat q
  | .odd t => .odd t
  | .ext k' a b => if k' = k then a else .ext k' a b

/-- The factor of `z k` in `x`. -/
def hi (k : Nat) : Num → Num
  | .rat _ => .rat 0
  | .odd _ => .rat 0
  | .ext k' _ b => if k' = k then b else .rat 0

/-- `a + b * z k`, in canonical form. -/
def join (k : Nat) (a b : Num) : Num := if b = .rat 0 then a else .ext k a b

/-- The sum of two numbers of level at most `L`. -/
def addL : Nat → Num → Num → Num
  | 0, x, y => leafAdd x y
  | L + 1, x, y =>
    if x = .rat 0 then y else if y = .rat 0 then x else
    join (L + 1) (addL L (lo (L + 1) x) (lo (L + 1) y)) (addL L (hi (L + 1) x) (hi (L + 1) y))

/-- The negative. -/
def neg : Num → Num
  | .rat q => .rat (-q)
  | .odd t => .odd (t.map fun p => (p.1, -p.2))
  | .ext k a b => .ext k (neg a) (neg b)

/-- `x * z L`, for `x` of level at most `L` (`z 0 = -1`). -/
def mulZ : Nat → Num → Num
  | 0, x => neg x
  | L + 1, x => if x = .rat 0 then x else join (L + 1) (mulZ L (hi (L + 1) x)) (lo (L + 1) x)

/-- The product of two numbers of level at most `L`. -/
def mulL : Nat → Num → Num → Num
  | 0, x, y => leafMul x y
  | L + 1, x, y =>
    if x = .rat 0 then .rat 0 else if y = .rat 0 then .rat 0 else
    let a := lo (L + 1) x
    let b := hi (L + 1) x
    let c := lo (L + 1) y
    let d := hi (L + 1) y
    join (L + 1) (addL L (mulL L a c) (mulZ L (mulL L b d))) (addL L (mulL L a d) (mulL L b c))

/-- The inverse of a number of level at most `L`: `1 / (a + b z) = (a - b z) / (a^2 - b^2 z^2)`. -/
def invL : Nat → Num → Num
  | 0, x => leafInv x
  | L + 1, x =>
    let a := lo (L + 1) x
    let b := hi (L + 1) x
    if b = .rat 0 then invL L a
    else
      let d := invL L (addL L (mulL L a a) (neg (mulZ L (mulL L b b))))
      join (L + 1) (mulL L a d) (neg (mulL L b d))

def add (x y : Num) : Num := addL (max x.level y.level) x y
def mul (x y : Num) : Num := mulL (max x.level y.level) x y
def sub (x y : Num) : Num := add x (neg y)
/-- The inverse; of 0 it is 0. -/
def inv (x : Num) : Num := invL x.level x

/-- The root of unity `exp(j pi p / 2^k)`. -/
def root : Nat → Nat → Num
  | 0, p => if p % 2 = 0 then .rat 1 else .rat (-1)
  | k + 1, p => if p % 2 = 0 then root k (p / 2) else .ext (k + 1) (.rat 0) (root k (p / 2))

/-- `exp(j pi p / 2^k)` for an integer `p`. -/
def rootInt (k : Nat) (p : Int) : Num := root k (p % (2 ^ (k + 1) : Nat)).toNat

/-- The imaginary unit `j` (00_scope.md R12). -/
def imag : Num := .ext 1 (.rat 0) (.rat 1)

/-- The complex conjugate (00_scope.md R12): `z k` goes to `z k * z (k - 1)^(-1)`. -/
def conj : Num → Num
  | .rat q => .rat q
  | .odd t => ofTerms (t.map fun p => (turn (-p.1), p.2))
  | .ext k a b => join k (conj a) (mulL (k - 1) (conj b) (root (k - 1) (2 ^ k - 1)))

/-- A number equal to its conjugate. -/
def isReal (x : Num) : Bool := decide (conj x = x)

/-- The squared magnitude `|x|^2` (00_scope.md R12), a real number. -/
def normSq (x : Num) : Num := mul x (conj x)

/-- `exp(j 2 pi x)`, for any rational number of turns `x`. -/
def unit (x : Rat) : Num :=
  let u := component 2 x
  mul (rootInt u.den.log2 (2 * u.num)) (ofTerms [(turn (x - u), 1)])

/-! ### Order -/

/-- The rational at the lowest end of a tower over rationals. -/
def toRat : Num → Rat
  | .rat q => q
  | .odd _ => 0
  | .ext _ a _ => toRat a

/-- The sign of a rational. -/
def ratSgn (q : Rat) : Int := if 0 < q then 1 else if q = 0 then 0 else -1

/-- The sign (1, 0 or -1) of a real number of level at most `L` over rational leaves. A real `x` is `a + y` with `a` and
`y = b * z (L + 1)` real. `y` is `2 cos(pi / 2^(L+1))`, positive for `L` at least 1, times a real of the sign of `b + b * z L`;
where the signs of `a` and `y` differ, `a^2 - y^2` decides. -/
def sgnL : Nat → Num → Int
  | 0, x => ratSgn x.toRat
  | L + 1, x =>
    let a := lo (L + 1) x
    let b := hi (L + 1) x
    if b = .rat 0 then sgnL L a
    else
      let sa := sgnL L a
      let sy := sgnL L (addL L b (mulZ L b))
      if sy = 0 then sa
      else if sa = 0 ∨ sa = sy then sy
      else sgnL L (addL L (mulL L a a) (neg (mulZ L (mulL L b b)))) * sa

/-- All terms of a number, `z k` being `exp(j 2 pi / 2^(k+1))`. -/
def flat : Num → List (Rat × Rat)
  | .rat q => [(0, q)]
  | .odd t => t
  | .ext k a b => flat a ++ (flat b).map fun p => (turn (p.1 + mkRat 1 (2 ^ (k + 1))), p.2)

/-- `n` terms, from number `i` on, of the alternating sum `pow / (2 i + 1) - pow / (m^2 (2 i + 3)) + ...`. -/
def atanFix (m : Nat) : Nat → Nat → Int → Int
  | 0, _, _ => 0
  | n + 1, i, pow => pow / (2 * i + 1 : Nat) - atanFix m n (i + 1) (pow / (m * m : Nat))

/-- `pi * 2^p`, by `pi = 16 atan(1/5) - 4 atan(1/239)`. -/
def piFix (p : Nat) : Int := 16 * atanFix 5 p 0 (2 ^ p / 5) - 4 * atanFix 239 p 0 (2 ^ p / 239)

/-- `n` terms, from number `i` on, of the cosine series of the angle whose square is `sq / 2^p`; `t` is the term number `i`. -/
def cosSeries (p : Nat) (sq : Int) : Nat → Nat → Int → Int
  | 0, _, _ => 0
  | n + 1, i, t => t - cosSeries p sq n (i + 1) (t * sq / (2 ^ p * ((2 * i + 1) * (2 * i + 2)) : Nat))

/-- `cos(2 pi x) * 2^p` for `x` from 0 to 1. For `p` at least 64 it is off by at most `4096 p`: every quotient is off by at
most 1, and at most `p` terms each pass on an error below 1000 times their own. -/
def cosFix (p : Nat) (x : Rat) : Int :=
  let a := 2 * piFix p * x.num / x.den
  cosSeries p (a * a / (2 ^ p : Nat)) p 0 (2 ^ p)

/-- The sign of the real number that integer multiples `t` of roots of unity sum to: the sign of an approximation at `p` bits
where it exceeds its error, else one at `2 p` bits. `h` is the sum of the absolute coefficients. -/
def sgnFix (t : List (Rat × Int)) (h : Nat) : Nat → Nat → Int
  | 0, p => ((t.map fun q => q.2 * cosFix p q.1).sum).sign
  | fuel + 1, p =>
    let v := (t.map fun q => q.2 * cosFix p q.1).sum
    if h * (4096 * p) < v.natAbs then v.sign else sgnFix t h fuel (2 * p)

/-- The sign of the real number, not 0, that terms sum to. With integer coefficients of absolute sum `h` and roots of order
`n` it is an algebraic integer of degree at most `n`, whose conjugates are at most `h`, so it is at least `h^(-n)`: the last
precision decides. -/
def sgnTerms (t : List (Rat × Rat)) : Int :=
  let d := t.foldl (fun n p => Nat.lcm n p.2.den) 1
  let u := t.map fun p => (p.1, (p.2 * (d : Rat)).num)
  let h := (u.map fun p => p.2.natAbs).sum
  sgnFix u h ((order t + 1) * (h.log2 + 1)).log2.succ 64

/-- Some leaf is not rational. -/
def hasOdd : Num → Bool
  | .rat _ => false
  | .odd _ => true
  | .ext _ a b => hasOdd a || hasOdd b

/-- The sign of a real number. -/
def sgn (x : Num) : Int := if x.hasOdd then sgnTerms x.flat else sgnL x.level x

/-- `x < y`, for real numbers. -/
def lt (x y : Num) : Bool := decide (sgn (sub y x) = 1)

/-- `0 < x`, for a real number: a soft value that reads as bit 1 (10_state.md R45). -/
def pos (x : Num) : Bool := decide (sgn x = 1)

/-- The sum of a list. -/
def sum (l : List Num) : Num := l.foldl add (.rat 0)

/-- The least index of a largest entry of `l`, entries compared as real numbers: 0 for the empty list. `best` is the
entry at `bi`, the best before index `i`. -/
def argmaxFrom (bi : Nat) (best : Num) (i : Nat) : List Num → Nat
  | [] => bi
  | x :: l => if lt best x then argmaxFrom i x (i + 1) l else argmaxFrom bi best (i + 1) l

/-- The least index of a largest entry (41_demod.md R167, 45_hamming.md R248: ties go to the lowest). -/
def argmax : List Num → Nat
  | [] => 0
  | x :: l => argmaxFrom 0 x 1 l

/-- The largest entry, 0 for the empty list. -/
def maximum (l : List Num) : Num := l.getD (argmax l) (.rat 0)

end Sys2Proof.Num
end

