-- ==== Sys2Proof/Machine/Operands.lean ====
section
/-! DEFINITION. The operands of the operations: the configuration fields (10_state.md R24 to R26), the derived quantities
(00_scope.md R6), bin arithmetic (R9 to R11), and the bit forms of groups, codewords and headers (20_memory.md R70,
R71; 30_encoding.md R107 to R111). -/

namespace Sys2Proof.Machine

/-! ### Configuration fields -/

/-- `SF` (10_state.md R24). -/
def State.sf (s : State) : Nat := (s.regs.sf.extractLsb' 0 4).toNat
/-- `MODE.IMPL` (R25). -/
def State.impl (s : State) : Bool := s.regs.mode.getLsbD 0
/-- `MODE.SOFT`. -/
def State.soft (s : State) : Bool := s.regs.mode.getLsbD 1
/-- `MODE.CRC_EN`. -/
def State.crcEn (s : State) : Bool := s.regs.mode.getLsbD 2
/-- `MODE.CR`. -/
def State.modeCr (s : State) : BitVec 3 := s.regs.mode.extractLsb' 4 3
/-- `PAYLEN` (R25). -/
def State.paylen (s : State) : Byte := s.regs.paylen.extractLsb' 0 8
/-- `SYNC_BIN0` (R26). -/
def State.syncBin0 (s : State) : Bin := s.regs.sync.extractLsb' 0 12
/-- `SYNC_BIN1`. -/
def State.syncBin1 (s : State) : Bin := s.regs.sync.extractLsb' 16 12
/-- `SYNC_N`. -/
def State.syncN (s : State) : BitVec 2 := s.regs.sync.extractLsb' 28 2
/-- `MIN_RUN` (R26). -/
def State.minRun (s : State) : BitVec 8 := s.regs.det.extractLsb' 0 8
/-- `BIN_TOL`. -/
def State.binTol (s : State) : Nat := (s.regs.det.extractLsb' 8 11).toNat

/-- `N = 2^SF` (00_scope.md R6). -/
def State.bins (s : State) : Nat := 2 ^ s.sf
/-- `OS = FS / BW` (R6). -/
def State.os (s : State) : Nat := s.regs.fs.toNat / s.regs.bw.toNat
/-- `WLEN = N * OS` (R6). -/
def State.wlen (s : State) : Nat := s.bins * s.os
/-- `SYNC_BIN[i]` (42_sync.md R190). -/
def State.syncBin (s : State) (i : BitVec 2) : Bin := if i = 0 then s.syncBin0 else s.syncBin1

/-! ### Arithmetic on bins and counts -/

/-- The circular distance of two bins among `n` (00_scope.md R10). -/
def cdist (n a b : Nat) : Nat := min (((a : Int) - b) % n).toNat (((b : Int) - a) % n).toNat

/-- The signed representative of a bin value among `n` (00_scope.md R11). -/
def csigned (n : Nat) (a : Int) : Int := if (n : Int) / 2 ≤ a % n then a % n - n else a % n

/-- `ceil_div` (00_scope.md R9). -/
def ceilDiv (a b : Nat) : Nat := (a + b - 1) / b

/-- 1 for a set bit. -/
def bitNat (b : Bool) : Nat := if b then 1 else 0

/-- Symbols after the header block (42_sync.md R200). -/
def explicitSymbols (sf len cr : Nat) (crc : Bool) : Nat :=
  let need : Int := 2 * (len + 2 * bitNat crc : Nat) - ((sf : Int) - 5)
  let blocks := if need ≤ 0 then 0 else ceilDiv need.toNat sf
  blocks * (4 + cr)

/-- Symbols of a frame in implicit mode (42_sync.md R201). -/
def implicitSymbols (sf len cr : Nat) (crc : Bool) : Nat := ceilDiv (2 * (len + 2 * bitNat crc)) sf * (4 + cr)

/-! ### Samples -/

/-- The complex number of a sample (20_memory.md R74). -/
def Sample.value (x : Sample) : Num := Num.add x.i (Num.mul Num.imag x.q)

/-! ### Bits of groups and codewords -/

/-- The bits of a word, most significant first: `b[0 .. c-1]` of 45_hamming.md R242. -/
def msbBits (c : Nat) (w : BitVec 8) : List Bool := (List.range c).map fun i => w.getLsbD (c - 1 - i)

/-- The position, counted from the most significant bit, of the group bit that column `i` gives codeword `r`:
`(i - r - 1) mod SF` (44_deinterleaver.md R232). -/
def diagonal (sf i r : Nat) : Nat := (((i : Int) - r - 1) % sf).toNat

/-- The bit number in group `i` that bit `c - 1 - i` of codeword `r` is taken from: `SF - 1 - ((i - r - 1) mod SF)` (R232). -/
def groupBit (sf i r : Nat) : Nat := sf - 1 - diagonal sf i r

/-- Codeword `r` of a hard block of `c` groups (R232). -/
def hardCodeword (sf c : Nat) (blk : List Group) (r : Nat) : BitVec 8 :=
  (List.range c).foldl
    (fun w i => w ||| (BitVec.ofBool ((blk.getD i ⟨0, []⟩).g.getLsbD (groupBit sf i r))).setWidth 8 <<< (c - 1 - i)) 0

/-- Codeword `r` of a soft block of `c` groups: entry `p` is the soft value of bit `p`, of group `c - 1 - p` (R233). -/
def softCodeword (sf c : Nat) (blk : List Group) (r : Nat) : List Num :=
  (List.range c).map fun p => (blk.getD (c - 1 - p) ⟨0, []⟩).gl.getD (groupBit sf (c - 1 - p) r) (.rat 0)

/-- The codeword of a nibble at coding rate `cr`, in the low `4 + cr` bits (30_encoding.md R107, R108). -/
def codeword (cr : Nat) (n : Nibble) : BitVec 8 :=
  let n0 := BitVec.ofBool (n.getLsbD 0)
  let n1 := BitVec.ofBool (n.getLsbD 1)
  let n2 := BitVec.ofBool (n.getLsbD 2)
  let n3 := BitVec.ofBool (n.getLsbD 3)
  let p0 := n0 ^^^ n1 ^^^ n2
  let p1 := n1 ^^^ n2 ^^^ n3
  let p2 := n0 ^^^ n1 ^^^ n3
  let p3 := n0 ^^^ n2 ^^^ n3
  let p4 := n0 ^^^ n1 ^^^ n2 ^^^ n3
  if cr = 1 then (n0 ++ n1 ++ n2 ++ n3 ++ p4).setWidth 8
  else (n0 ++ n1 ++ n2 ++ n3 ++ p0 ++ p1 ++ p2 ++ p3) >>> (4 - cr)

/-! ### Header fields -/

/-- The header checksum of the nibbles `h0`, `h1`, `h2` (46_header.md R262). -/
def headerChk (a b c : Nibble) : BitVec 5 :=
  let x (w : Nibble) (i : Nat) := BitVec.ofBool (w.getLsbD i)
  let c4 := x a 3 ^^^ x a 2 ^^^ x a 1 ^^^ x a 0
  let c3 := x a 3 ^^^ x b 3 ^^^ x b 2 ^^^ x b 1 ^^^ x c 0
  let c2 := x a 2 ^^^ x b 3 ^^^ x b 0 ^^^ x c 3 ^^^ x c 1
  let c1 := x a 1 ^^^ x b 2 ^^^ x b 0 ^^^ x c 2 ^^^ x c 1 ^^^ x c 0
  let c0 := x a 0 ^^^ x b 1 ^^^ x c 3 ^^^ x c 2 ^^^ x c 1 ^^^ x c 0
  c4 ++ c3 ++ c2 ++ c1 ++ c0

/-- Nibble `r` of a block, 0 where the block is shorter. -/
def NibBlock.at (b : NibBlock) (r : Nat) : Nibble := b.nib.getD r 0

/-- `len = {h0, h1}` (30_encoding.md R111). -/
def NibBlock.hdrLen (b : NibBlock) : Byte := b.at 0 ++ b.at 1
/-- `cr = h2[3:1]`. -/
def NibBlock.hdrCr (b : NibBlock) : BitVec 3 := (b.at 2).extractLsb' 1 3
/-- `has_crc = h2[0]`. -/
def NibBlock.hdrCrc (b : NibBlock) : Bool := (b.at 2).getLsbD 0
/-- `chk_rx = {h3[0], h4[3:0]}`; `h3[3:1]` are ignored. -/
def NibBlock.hdrChk (b : NibBlock) : BitVec 5 := (b.at 3).extractLsb' 0 1 ++ b.at 4

/-- Some codeword of the block has the status `UNCORR` (45_hamming.md R247, 46_header.md R264). -/
def anyUncorr (st : List CwStatus) : Bool := st.contains .uncorr

end Sys2Proof.Machine
end

