-- ==== Sys2Proof/Machine/Ops.lean ====
section
/-! DEFINITION. The named operations the meanings share: room in the FIFOs, the byte memory `PAY`, taking a cause, the
re-initialisations, and the register port's reads.

A step that is not enabled does nothing at all (20_memory.md R76): `ifEnabled`. -/

namespace Sys2Proof.Machine

/-- The outcome of one operation. -/
abbrev Out := Host.Outcome State Fault Refusal

/-- An atomic step: `t` where it is enabled, nothing at all where it is not (20_memory.md R76). -/
def ifEnabled (c : Bool) (s t : State) : Out := .next (if c then t else s)

/-! ### FIFOs -/

/-- An internal edge has room for `k` more items (20_memory.md R76, 00_scope.md R7). -/
def State.room {α : Type} (s : State) (q : List α) (k : Nat) : Bool := decide (q.length + k ≤ s.par.qDepth)

/-- `E9` has room for one record (10_state.md R53). -/
def State.recRoom (s : State) : Bool := decide (s.e9.length + 1 ≤ s.par.recDepth)

/-! ### The byte memory `PAY` -/

/-- The number of bytes of the space `PAY` (10_state.md R50). -/
def paySize : Nat := 255

/-- What a byte that nothing has written reads as. Its reset value is unspecified and never read before written (10_state.md
R60): DESIGN CHOICE 0, log entry 5. -/
def unlisted : Byte := 0

/-- The byte at address `a`. -/
def Memory.read (m : Memory) (a : Nat) : Byte :=
  match m with
  | [] => unlisted
  | c :: m => if c.1 = a then c.2 else Memory.read m a

/-- The memory after a write of `b` at `a`, in canonical form: an entry that would hold what an unlisted address reads as is
dropped. -/
def Memory.write (m : Memory) (a : Nat) (b : Byte) : Memory :=
  match m with
  | [] => if b = unlisted then [] else [(a, b)]
  | c :: m =>
    if a < c.1 then (if b = unlisted then c :: m else (a, b) :: c :: m)
    else if c.1 = a then (if b = unlisted then m else (a, b) :: m)
    else c :: Memory.write m a b

/-- The canonical form with every address at least `lo` and below `size`. -/
def Memory.wfFrom (size lo : Nat) : Memory → Bool
  | [] => true
  | c :: m => decide (lo ≤ c.1) && decide (c.1 < size) && decide (c.2 ≠ unlisted) && Memory.wfFrom size (c.1 + 1) m

/-- The canonical form of `PAY`: addresses strictly rising, each below 255, no entry equal to what an unlisted address reads
as. -/
def Memory.wf (m : Memory) : Bool := Memory.wfFrom paySize 0 m

/-- A store into `PAY` (10_state.md R50): past its 255 bytes there is nothing. -/
def storePay (m : Memory) (a : Nat) (b : Byte) : Except Fault Memory :=
  if a < paySize then .ok (m.write a b) else .error (.payIndex a)

/-- `pay[0 .. n-1]`. -/
def Memory.firstBytes (m : Memory) (n : Nat) : List Byte := (List.range n).map m.read

/-! ### Re-initialisation -/

/-- `reset_search()` on the synchronizer's registers (42_sync.md R183): `k_lock`, `cfo2`, `prev` and `kdn` are kept. -/
def SyncRegs.resetSearch (r : SyncRegs) : SyncRegs :=
  { r with state := .searching, runLen := 0, prevV := false, driftSum := 0, syncIdx := 0, sfdIdx := 0, symIdx := 0,
           symRem := 0, hdrWait := false, fp := { r.fp with valid := false } }

/-- `pipeline_clear()` (40_host_ops.md R145). -/
def State.pipelineClear (s : State) : State :=
  { s with
    sync := .reset
    deint := { s.deint with cnt := 0 }
    hdrState := .idle
    dewh := { s.dewh with nibV := false, isOpen := false, lfsr := 0xFF, byteIdx := 0 }
    crcv := { s.crcv with isOpen := false, acc := 0, payCnt := 0 }
    dbox := none
    mbox := none
    e1 := []
    e2 := []
    e3 := []
    e4 := []
    e5 := []
    e6 := []
    e7 := []
    e8 := [] }

/-- `config_check()` (40_host_ops.md R146): the lowest code whose condition holds, or 0. -/
def State.configCheck (s : State) : BitVec 4 :=
  if s.sf < 7 ∨ 12 < s.sf then 1
  else if s.regs.bw = 0 ∨ s.regs.fs = 0 ∨ s.regs.fs.toNat % s.regs.bw.toNat ≠ 0 ∨
      s.par.sampDepth < 2 * s.bins * s.os then 2
  else if s.impl = true ∧ (s.modeCr.toNat < 1 ∨ 4 < s.modeCr.toNat) then 3
  else if ¬ (s.syncN = 1 ∨ s.syncN = 2) ∨ s.bins ≤ s.syncBin0.toNat ∨ (s.syncN = 2 ∧ s.bins ≤ s.syncBin1.toNat) then 4
  else if s.minRun.toNat < 2 ∨ s.bins / 4 ≤ s.binTol then 5
  else if s.impl = true ∧ s.paylen = 0 then 6
  else 0

/-! ### Taking a cause, and the return from one -/

/-- `DCTL_DEFAULT` (42_sync.md R182). -/
def Dctl.default : Dctl := ⟨.normal, 0, 0⟩
/-- `DCTL_FRAME` (42_sync.md R182). -/
def SyncRegs.dctlFrame (r : SyncRegs) : Dctl := ⟨.normal, r.cfo2, 0⟩

/-- `EVT` with the flag of `c`. -/
def State.flag (s : State) (c : Cause) : State := { s with regs := { s.regs with evt := setEvt s.regs.evt c.code } }

/-- The entry of an aborted frame, at the consumption of `ABORT(code)` (60_exceptions.md R312, 42_sync.md R204):
`EVT[code] <- 1`, `DROP_CNT + 1`, `reset_search()`. -/
def State.abortFrame (s : State) (code : Nat) : State :=
  { s with
    regs := { s.regs with evt := setEvt s.regs.evt code, dropCnt := s.regs.dropCnt + 1 }
    sync := s.sync.resetSearch }

/-- `raise <Cause>(info)`: every state write of taking the cause `c`, in the one step that takes it (60_exceptions.md R300,
R312). `info` is the code of a refused START. For the three header causes this is the synchronizer's entry, at the
consumption of `ABORT`; for `REC` and `CRC_FAIL` the record itself is pushed by `finish` (48_crc.md R295).

There is no return operation (60_exceptions.md R313): nothing is saved at the entry, operation goes on from the state the
entry leaves, and the flags stay until the host clears them (`clearEvt`). -/
def State.raise (s : State) (c : Cause) (info : BitVec 4 := 0) : State :=
  match c with
  | .record => { s with regs := { s.regs with evt := setEvt s.regs.evt Cause.record.code, frameCnt := s.regs.frameCnt + 1 } }
  | .hdrChk => s.abortFrame Cause.hdrChk.code
  | .hdrFec => s.abortFrame Cause.hdrFec.code
  | .hdrRsvd => s.abortFrame Cause.hdrRsvd.code
  | .payFec => s.flag .payFec
  | .crcFail => s.flag .crcFail
  | .ovf => s.flag .ovf
  | .cfgErr =>
    { s with regs := { s.regs with evt := setEvt s.regs.evt Cause.cfgErr.code, cfgErr := true, cfgCode := info } }
  | .busErr => s.flag .busErr
  | .syncMiss => { s with sync := s.sync.resetSearch, dbox := some .default }

/-! ### Register reads -/

/-- The defined bits of each stored register (10_state.md R21, 40_host_ops.md R140). -/
def definedMask (idx : BitVec 6) : Word32 :=
  if idx = 0x02 then 0x0000000F
  else if idx = 0x03 then 0xFFFFFFFF
  else if idx = 0x04 then 0xFFFFFFFF
  else if idx = 0x05 then 0x00000077
  else if idx = 0x06 then 0x000000FF
  else if idx = 0x07 then 0x3FFF0FFF
  else if idx = 0x08 then 0x0007FFFF
  else 0

/-- `RegRead(idx)`, one atomic snapshot; reserved bits read 0 (10_state.md R21 to R29). `CTRL` reads 0, and an index past
0x0E gives 0 (40_host_ops.md R141, R143). -/
def State.regRead (s : State) (idx : BitVec 6) : Word32 :=
  if idx = 0x01 then s.statusWord
  else if idx = 0x02 then s.regs.sf &&& definedMask idx
  else if idx = 0x03 then s.regs.bw &&& definedMask idx
  else if idx = 0x04 then s.regs.fs &&& definedMask idx
  else if idx = 0x05 then s.regs.mode &&& definedMask idx
  else if idx = 0x06 then s.regs.paylen &&& definedMask idx
  else if idx = 0x07 then s.regs.sync &&& definedMask idx
  else if idx = 0x08 then s.regs.det &&& definedMask idx
  else if idx = 0x09 then s.regs.irqEn.setWidth 32
  else if idx = 0x0A then s.regs.evt.setWidth 32
  else if idx = 0x0B then s.regs.dropCnt
  else if idx = 0x0C then s.regs.frameCnt
  else if idx = 0x0D then s.estWord
  else if idx = 0x0E then s.driftWord
  else 0

/-! ### Soft values -/

/-- A soft value as the implementation holds it: exact, or what a finite-precision implementation computes from the same
operands (00_scope.md R12). There ties of the exact values are not kept, as 93_implementation_defined.md K1 says (DESIGN
CHOICE, log entry 2). -/
def State.soften (s : State) (exact : Num) (rounded : Rat) : Num :=
  match s.par.num with
  | .exact => exact
  | .finite => .rat rounded

end Sys2Proof.Machine
end

