-- ==== Sys2Proof/Machine/Dewhiten.lean ====
section
/-! DEFINITION. Stage 7, the Dewhitener (47_dewhitener.md). -/

namespace Sys2Proof.Machine

/-- The generator step (47_dewhitener.md R282). -/
def lfsrNext (s : Byte) : Byte :=
  (s <<< 1) ||| (BitVec.ofBool (s.getLsbD 7 ^^ s.getLsbD 5 ^^ s.getLsbD 4 ^^ s.getLsbD 3)).setWidth 8

/-- The whitening sequence `W[i]` (R281). -/
def whitening : Nat → Byte
  | 0 => 0xFF
  | i + 1 => lfsrNext (whitening i)

/-- The number of bytes of a frame: `len + 2 * crc` (R284, 48_crc.md R294). -/
def frameBytes (len : Byte) (crc : Bool) : Nat := len.toNat + 2 * bitNat crc

/-- The step of `DEWH.START` (R283). -/
def State.dewhStartStep (s : State) : State :=
  match s.e7 with
  | .fstart len _ crc :: rest =>
    { s with
      e7 := rest
      dewh := { s.dewh with nibV := false, byteIdx := 0, lfsr := 0xFF, len := len, crc := crc,
                            isOpen := decide (0 < frameBytes len crc) }
      e8 := s.e8 ++ [.fstart len crc] }
  | _ => s

/-- The byte that the nibble `n` completes: low nibble first, a payload byte dewhitened, a CRC byte unchanged (R284, R285). -/
def DewhRegs.byte (r : DewhRegs) (n : Nibble) : Byte :=
  let b : Byte := n ++ r.nibHold
  if r.byteIdx.toNat < r.len.toNat then b ^^^ r.lfsr else b

/-- The registers after a byte went out (R284): the generator advances on payload bytes only. -/
def DewhRegs.afterByte (r : DewhRegs) : DewhRegs :=
  { r with
    nibV := false
    lfsr := if r.byteIdx.toNat < r.len.toNat then lfsrNext r.lfsr else r.lfsr
    byteIdx := r.byteIdx + 1
    isOpen := r.isOpen && decide ((r.byteIdx + 1).toNat ≠ frameBytes r.len r.crc) }

/-- The step of `DEWH.NIB` (R284, R286). -/
def State.dewhNibStep (s : State) : State :=
  match s.e7 with
  | .nib n :: rest =>
    if s.dewh.isOpen = false then { s with e7 := rest }
    else if s.dewh.nibV = false then { s with e7 := rest, dewh := { s.dewh with nibHold := n, nibV := true } }
    else { s with e7 := rest, dewh := s.dewh.afterByte, e8 := s.e8 ++ [.byte (s.dewh.byte n)] }
  | _ => s

/-- The head of `E7` is an `FSTART`. -/
def State.e7Start (s : State) : Bool :=
  match s.e7 with
  | .fstart _ _ _ :: _ => true
  | _ => false

/-- The head of `E7` is a `NIB`. -/
def State.e7Nib (s : State) : Bool :=
  match s.e7 with
  | .nib _ :: _ => true
  | _ => false

/-- `DEWH.START` is enabled (R283). -/
def canDewhStart (s : State) : Bool := s.e7Start && s.room s.e8 1
/-- `DEWH.NIB` is enabled (R284). -/
def canDewhNib (s : State) : Bool := s.e7Nib && s.room s.e8 1

/-- `DEWH.START` (R283). -/
def execDewhStart (s : State) : Out := ifEnabled (canDewhStart s) s s.dewhStartStep

/-- `DEWH.NIB` (R284). -/
def execDewhNib (s : State) : Out := ifEnabled (canDewhNib s) s s.dewhNibStep

end Sys2Proof.Machine
end

