-- ==== Sys2Proof/Machine/Crc.lean ====
section
/-! DEFINITION. Stage 8, the CRC Verifier (48_crc.md). -/

namespace Sys2Proof.Machine

/-- One bit of the update: shift left, and xor 0x1021 where bit 15 was 1 (48_crc.md R291). -/
def crcShift (c : BitVec 16) : BitVec 16 := if c.getLsbD 15 then (c <<< 1) ^^^ 0x1021 else c <<< 1

/-- `crc16_update(c, b)` (R291). -/
def crc16Update (c : BitVec 16) (b : Byte) : BitVec 16 :=
  (List.range 8).foldl (fun x _ => crcShift x) (c ^^^ (b.setWidth 16 <<< 8))

/-- The CRC of a payload: the update folded over its bytes, from 0x0000, no final xor (R292). -/
def crc16 (bytes : List Byte) : BitVec 16 := bytes.foldl crc16Update 0

/-- The flag of a finished frame (R295). -/
def CrcvRegs.flag (r : CrcvRegs) : CrcOk :=
  if r.crc = false then .unverified else if r.acc = r.rx then .pass else .fail

/-- The record of a finished frame (R295, R296). -/
def CrcvRegs.record (r : CrcvRegs) : Record := ⟨r.len, r.flag, r.pay.firstBytes r.len.toNat⟩

/-- `finish()` (R295): push the record, set `REC` and count, set `CRC_FAIL` on a mismatch, close the frame. -/
def State.finish (s : State) : State :=
  let t := { s with e9 := s.e9 ++ [s.crcv.record], crcv := { s.crcv with isOpen := false } }
  let u := t.raise .record
  if s.crcv.flag = .fail then u.raise .crcFail else u

/-- The step of `CRCV.START` (R293). -/
def State.crcvStartStep (s : State) : State :=
  match s.e8 with
  | .fstart len crc :: rest =>
    let t := { s with e8 := rest,
                      crcv := { s.crcv with len := len, crc := crc, payCnt := 0, acc := 0, rx := 0, isOpen := true } }
    if frameBytes len crc = 0 then t.finish else t
  | _ => s

/-- The registers after the byte `b` entered an open frame (R294): payload, then the CRC, low byte first. -/
def CrcvRegs.take (r : CrcvRegs) (b : Byte) : Except Fault CrcvRegs :=
  if r.payCnt.toNat < r.len.toNat then
    match storePay r.pay r.payCnt.toNat b with
    | .ok m => .ok { r with pay := m, acc := crc16Update r.acc b, payCnt := r.payCnt + 1 }
    | .error e => .error e
  else if r.payCnt.toNat = r.len.toNat then
    .ok { r with rx := r.rx.extractLsb' 8 8 ++ b, payCnt := r.payCnt + 1 }
  else .ok { r with rx := b ++ r.rx.extractLsb' 0 8, payCnt := r.payCnt + 1 }

/-- The step of `CRCV.BYTE` (R294). -/
def State.crcvByteStep (s : State) : Out :=
  match s.e8 with
  | .byte b :: rest =>
    if s.crcv.isOpen = false then .next { s with e8 := rest }
    else
      match s.crcv.take b with
      | .error e => .fault e
      | .ok r =>
        let t := { s with e8 := rest, crcv := r }
        .next (if r.payCnt.toNat = frameBytes r.len r.crc then t.finish else t)
  | _ => .next s

/-- `CRCV.START` is enabled (R293): the head of `E8` is `FSTART`, and `E9` has room if it finishes the frame at once. -/
def canCrcvStart (s : State) : Bool :=
  match s.e8 with
  | .fstart len crc :: _ => decide (frameBytes len crc ≠ 0) || s.recRoom
  | _ => false

/-- `CRCV.BYTE` is enabled (R294): the head of `E8` is `BYTE`, and `E9` has room if this byte completes the frame. -/
def canCrcvByte (s : State) : Bool :=
  match s.e8 with
  | .byte _ :: _ =>
    !(s.crcv.isOpen && decide (s.crcv.payCnt.toNat + 1 = frameBytes s.crcv.len s.crcv.crc)) || s.recRoom
  | _ => false

/-- `CRCV.START` (R293). -/
def execCrcvStart (s : State) : Out := ifEnabled (canCrcvStart s) s s.crcvStartStep

/-- `CRCV.BYTE` (R294). -/
def execCrcvByte (s : State) : Out := if canCrcvByte s then s.crcvByteStep else .next s

end Sys2Proof.Machine
end

