-- ==== Sys2Proof/Machine/Deint.lean ====
section
/-! DEFINITION. Stage 4, the Deinterleaver (44_deinterleaver.md). -/

namespace Sys2Proof.Machine

/-- The registers after a bit group has entered the block (44_deinterleaver.md R231, R234): a group tagged `sof` discards
a partial block, the first group of a block gives the block its tags. -/
def DeintRegs.take (r : DeintRegs) (it : GroupItem) : DeintRegs :=
  let cnt : BitVec 4 := if it.sof then 0 else r.cnt
  let tags : DeintRegs := if cnt = 0 then { r with cr := it.cr, hdr := it.hdr, sof := it.sof } else r
  { tags with blk := r.blk.set cnt.toNat it.grp, cnt := cnt + 1 }

/-- The block is complete: `4 + blk_cr` groups are held (R231). -/
def DeintRegs.complete (r : DeintRegs) : Bool := decide (r.cnt.toNat = 4 + r.cr.toNat)

/-- The block of hard codewords (R232, R234). -/
def DeintRegs.hardBlock (r : DeintRegs) (sf : Nat) : CwBlock where
  cw := (List.range sf).map (hardCodeword sf (4 + r.cr.toNat) r.blk)
  cwl := []
  sof := r.sof
  hdr := r.hdr
  cr := r.cr

/-- The block of soft codewords (R233, R235). -/
def DeintRegs.softBlock (r : DeintRegs) (sf : Nat) : CwBlock where
  cw := []
  cwl := (List.range sf).map (softCodeword sf (4 + r.cr.toNat) r.blk)
  sof := r.sof
  hdr := r.hdr
  cr := r.cr

/-- The enabling both forms share (R231): an item in `E4` and, if it completes a block, room in `E5`. -/
def State.deintReady (s : State) : Bool :=
  match s.e4 with
  | [] => false
  | it :: _ => !(s.deint.take it).complete || s.room s.e5 1

/-- Pop a group; when it completes a block, push the block that `f` builds (R234). -/
def State.deintStep (s : State) (f : DeintRegs → CwBlock) : State :=
  match s.e4 with
  | [] => s
  | it :: rest =>
    let r := s.deint.take it
    if r.complete then { s with e4 := rest, deint := { r with cnt := 0 }, e5 := s.e5 ++ [f r] }
    else { s with e4 := rest, deint := r }

/-- `DEINT.H` is enabled (R231, `SOFT` = 0). -/
def canDeintH (s : State) : Bool := s.deintReady && !s.soft
/-- `DEINT.S` is enabled (R231, `SOFT` = 1). -/
def canDeintS (s : State) : Bool := s.deintReady && s.soft

/-- `DEINT.H` (R234). -/
def execDeintH (s : State) : Out :=
  ifEnabled (canDeintH s) s (s.deintStep fun r => r.hardBlock s.sf)

/-- `DEINT.S` (R235). -/
def execDeintS (s : State) : Out :=
  ifEnabled (canDeintS s) s (s.deintStep fun r => r.softBlock s.sf)

end Sys2Proof.Machine
end

