-- ==== Sys2Proof/Machine/Demod.lean ====
section
/-! DEFINITION. Stage 1, the Chirp Demodulator (41_demod.md), in exact arithmetic, with `DEMOD_NUM` as R169 leaves it.

With `N = 2^sf`, every complex exponential of R162 to R166 is a power of `exp(j pi / N)`. -/

namespace Sys2Proof.Machine

/-- The reference up-chirp `U[n] = exp(j 2 pi (n^2 / (2 N) - n / 2))` (41_demod.md R162): the exponent, in units of
`pi / N`, is `n^2 - N n`. -/
def upChirp (sf n : Nat) : Num := Num.rootInt sf ((n : Int) * n - 2 ^ sf * n)

/-- The de-chirping reference (R164): the conjugate of the up-chirp, or the up-chirp itself for `REF_UP`. -/
def dechirp (sf : Nat) (ref : Ref) (n : Nat) : Num :=
  match ref with
  | .normal => Num.conj (upChirp sf n)
  | .up => upChirp sf n

/-- The pre-rotation `rot[n] = exp(-j 2 pi (c2 / 2) n / N)` (R165). -/
def preRot (sf : Nat) (c2 : Int) (n : Nat) : Num := Num.rootInt sf (-(c2 * n))

/-- `y[n] = x[n] * r[n] * rot[n]`, with the decimation `x[n] = W[n * OS]` (R163, R165). -/
def dechirped (sf os : Nat) (w : List Num) (ref : Ref) (c2 : Int) (n : Nat) : Num :=
  Num.mul (Num.mul (w.getD (n * os) (.rat 0)) (dechirp sf ref n)) (preRot sf c2 n)

/-- `Y[k] = sum over n of y[n] exp(-j 2 pi k n / N)` (R166). -/
def spectrumAt (sf : Nat) (y : List Num) (k : Nat) : Num :=
  Num.sum (y.mapIdx fun n yn => Num.mul yn (Num.rootInt sf (-(2 * (k * n : Nat) : Int))))

/-- The magnitude spectrum `M[k] = |Y[k]|^2`, k = 0 .. N - 1 (R166). -/
def spectrum (sf os : Nat) (w : List Num) (ref : Ref) (c2 : Int) : List Num :=
  let y := (List.range (2 ^ sf)).map (dechirped sf os w ref c2)
  (List.range (2 ^ sf)).map fun k => Num.normSq (spectrumAt sf y k)

/-- The normalised likelihood vector `ll[k] = M[k] / T`, all 0 when `T = 0` (R168). -/
def likelihoods (m : List Num) : List Num :=
  let t := Num.sum m
  if t = .rat 0 then m.map fun _ => .rat 0 else m.map fun x => Num.mul x (Num.inv t)

/-- Entry `k` of `m` exceeds every other entry by more than `e`. -/
def exceedsBy (m : List Num) (k : Nat) (e : Rat) : Bool :=
  (List.range m.length).all fun k' => decide (k' = k) || Num.lt (Num.add (m.getD k' (.rat 0)) (.rat e)) (m.getD k (.rat 0))

/-- The hard decision (R167), and what a finite implementation returns (R169): the exact bin where the largest entry exceeds
every other by more than the implementation's error bound, any bin otherwise. A silent window has no largest entry, so a finite
implementation may read any bin there: DESIGN CHOICE, log entry 2, where 42_sync.md R209 and 93_implementation_defined.md K2 say 0
with no such exception, and 93_implementation_defined.md I2 leaves it to the implementation. -/
def demodBin (num : NumMode) (sf os : Nat) (w : List Num) (ref : Ref) (c2 : Int) : Nat :=
  let m := spectrum sf os w ref c2
  match num with
  | .exact => Num.argmax m
  | .finite =>
    if exceedsBy m (Num.argmax m) |Config.demodErr sf os w (ref = .up) c2| then Num.argmax m
    else Config.demodBin sf os w (ref = .up) c2 % 2 ^ sf

/-- The likelihood vector of the step (R168), with the rounding of a finite implementation left open (R169), on a silent
window too (DESIGN CHOICE, log entry 2; 93_implementation_defined.md K2 says all 0). -/
def demodLl (num : NumMode) (sf os : Nat) (w : List Num) (ref : Ref) (c2 : Int) : List Num :=
  match num with
  | .exact => likelihoods (spectrum sf os w ref c2)
  | .finite => (List.range (2 ^ sf)).map fun k => .rat (Config.demodLl sf os w (ref = .up) c2 k)

/-- The Sample Window the message `d` cuts: `WLEN` samples after the `skip` discarded ones (R161). -/
def State.window (s : State) (d : Dctl) : List Num := ((s.e1.drop d.skip).take s.wlen).map Sample.value

/-- The enabling of the demodulator (R161): `RUN` = 1, `DBOX` full, `E2` empty, `skip + WLEN` samples in `E1`. -/
def State.demodReady (s : State) : Bool :=
  s.regs.run && s.e2.isEmpty &&
    match s.dbox with
    | some d => decide (d.skip + s.wlen ≤ s.e1.length)
    | none => false

/-- One demodulator step (R171): take `DCTL`, cut the window, push one symbol event. -/
def State.demodStep (s : State) (withLl : Bool) : State :=
  match s.dbox with
  | none => s
  | some d =>
    let w := s.window d
    let bin := demodBin s.par.num s.sf s.os w d.ref d.c2.toInt
    let ll := if withLl then demodLl s.par.num s.sf s.os w d.ref d.c2.toInt else []
    { s with dbox := none, e1 := s.e1.drop (d.skip + s.wlen), e2 := [⟨BitVec.ofNat 12 bin, ll⟩] }

/-- `DEMOD.H` is enabled: R161 and `SOFT` = 0 (R171). -/
def canDemodH (s : State) : Bool := s.demodReady && !s.soft
/-- `DEMOD.S` is enabled: R161 and `SOFT` = 1 (R172). -/
def canDemodS (s : State) : Bool := s.demodReady && s.soft

/-- `DEMOD.H` (R171). -/
def execDemodH (s : State) : Out := ifEnabled (canDemodH s) s (s.demodStep false)

/-- `DEMOD.S` (R172). -/
def execDemodS (s : State) : Out := ifEnabled (canDemodS s) s (s.demodStep true)

end Sys2Proof.Machine
end

