-- ==== Sys2Proof/Machine/Gray.lean ====
section
/-! DEFINITION. Stage 3, the Gray Demapper (43_gray.md). -/

namespace Sys2Proof.Machine

/-- The Gray map of the receiver, `g = s xor (s >> 1)` (43_gray.md R221, R222; log entry 15). -/
def gray (s : Bin) : BitVec 12 := s ^^^ (s >>> 1)

/-- The soft value of bit `b`: the largest likelihood of a symbol whose Gray bit `b` is 1, less the largest of one whose bit
is 0 (R224). -/
def softBit (sf : Nat) (ll : List Num) (b : Nat) : Num :=
  let pick (v : Bool) :=
    ((List.range (2 ^ sf)).filter fun s => (gray (BitVec.ofNat 12 s)).getLsbD b = v).map fun s => ll.getD s (.rat 0)
  Num.sub (Num.maximum (pick true)) (Num.maximum (pick false))

/-- The enabling both forms share: an item in `E3`, room in `E4` (R220). -/
def State.grayReady (s : State) : Bool := !s.e3.isEmpty && s.room s.e4 1

/-- Pop an item, push its group, tags unchanged (R220). -/
def State.grayStep (s : State) (f : SymItem → Group) : State :=
  match s.e3 with
  | [] => s
  | it :: rest => { s with e3 := rest, e4 := s.e4 ++ [⟨f it, it.sof, it.hdr, it.cr⟩] }

/-- `GRAY.H` is enabled (R220, `SOFT` = 0). -/
def canGrayH (s : State) : Bool := s.grayReady && !s.soft
/-- `GRAY.S` is enabled (R220, `SOFT` = 1). -/
def canGrayS (s : State) : Bool := s.grayReady && s.soft

/-- `GRAY.H` (R221). -/
def execGrayH (s : State) : Out :=
  ifEnabled (canGrayH s) s (s.grayStep fun it => ⟨gray it.bin, []⟩)

/-- `GRAY.S` (R224). -/
def execGrayS (s : State) : Out :=
  ifEnabled (canGrayS s) s
    (s.grayStep fun it => ⟨0, (List.range s.sf).map fun b => s.soften (softBit s.sf it.ll b) (Config.softGray s.sf it.ll b)⟩)

end Sys2Proof.Machine
end

