-- ==== Sys2Proof/Machine/Hamming.lean ====
section
/-! DEFINITION. Stage 5, the Hamming Decoder (45_hamming.md). -/

namespace Sys2Proof.Machine

/-- Bit `i` of a received codeword counted from its most significant bit, `b[i]` (45_hamming.md R242). -/
def cwBit (b : List Bool) (i : Nat) : Bool := b.getD i false

/-- `nib = {b[3], b[2], b[1], b[0]}` (R242). -/
def nibOf (b : List Bool) : Nibble :=
  BitVec.ofBool (cwBit b 3) ++ BitVec.ofBool (cwBit b 2) ++ BitVec.ofBool (cwBit b 1) ++ BitVec.ofBool (cwBit b 0)

/-- The syndrome bits `s0 .. s3` of R242, those the format has (`k` of them). -/
def syndrome (k : Nat) (b : List Bool) : List Bool :=
  [ cwBit b 4 ^^ cwBit b 0 ^^ cwBit b 1 ^^ cwBit b 2,
    cwBit b 5 ^^ cwBit b 1 ^^ cwBit b 2 ^^ cwBit b 3,
    cwBit b 6 ^^ cwBit b 0 ^^ cwBit b 1 ^^ cwBit b 3,
    cwBit b 7 ^^ cwBit b 0 ^^ cwBit b 2 ^^ cwBit b 3 ].take k

/-- The syndromes of a single wrong bit, by its position i = 0 .. 7 (the columns of R242). -/
def columns : List (List Bool) :=
  [ [true, false, true, true], [true, true, true, false], [true, true, false, true], [false, true, true, true],
    [true, false, false, false], [false, true, false, false], [false, false, true, false], [false, false, false, true] ]

/-- The position whose column starts with the `k` bits of the syndrome. -/
def errorPos (k : Nat) (syn : List Bool) : Nat := columns.findIdx fun c => c.take k = syn

/-- The codeword with bit `i` inverted. -/
def flipBit (b : List Bool) (i : Nat) : List Bool := b.set i (!cwBit b i)

/-- (5,4) parity (R243). -/
def dec1 (w : BitVec 8) : Nibble × CwStatus :=
  let b := msbBits 5 w
  (nibOf b, if cwBit b 0 ^^ cwBit b 1 ^^ cwBit b 2 ^^ cwBit b 3 ^^ cwBit b 4 then .uncorr else .none)

/-- (6,4) parity (R244). -/
def dec2 (w : BitVec 8) : Nibble × CwStatus :=
  let b := msbBits 6 w
  (nibOf b, if (syndrome 2 b).any id then .uncorr else .none)

/-- Hamming(7,4), single-error correction (R245). -/
def dec3 (w : BitVec 8) : Nibble × CwStatus :=
  let b := msbBits 7 w
  let syn := syndrome 3 b
  if syn.any id then (nibOf (flipBit b (errorPos 3 syn)), .corrected) else (nibOf b, .none)

/-- Hamming(8,4), single-error correction and double-error detection (R246). -/
def dec4 (w : BitVec 8) : Nibble × CwStatus :=
  let b := msbBits 8 w
  let syn := syndrome 4 b
  if !syn.any id then (nibOf b, .none)
  else if syn.foldl Bool.xor false then (nibOf (flipBit b (errorPos 4 syn)), .corrected)
  else (nibOf b, .uncorr)

/-- The metric of nibble `n`: the sum over the bits of its codeword of `l[p]` for a 1, `-l[p]` for a 0 (R248). -/
def softMetric (cr : Nat) (l : List Num) (n : Nat) : Num :=
  Num.sum <| (List.range (4 + cr)).map fun p =>
    if (codeword cr (BitVec.ofNat 4 n)).getLsbD p then l.getD p (.rat 0) else Num.neg (l.getD p (.rat 0))

/-- The word whose bit `p` is 1 exactly when `l[p] > 0` (R248, 10_state.md R45). -/
def hardWord (cr : Nat) (l : List Num) : BitVec 8 :=
  (List.range (4 + cr)).foldl (fun w p => if Num.pos (l.getD p (.rat 0)) then w ||| (1 <<< p) else w) 0

/-- Maximum-likelihood decoding of one soft codeword (R248): equal metrics give the lowest nibble. In the mode `finite` the metrics
are the implementation's own, which need not keep a tie of the exact ones (93_implementation_defined.md K1; log entry 2). -/
def State.decS (s : State) (cr : Nat) (l : List Num) : Nibble × CwStatus :=
  let best : Nibble := BitVec.ofNat 4 (Num.argmax ((List.range 16).map fun n => s.soften (softMetric cr l n) (Config.softMetric cr l n)))
  (best, if hardWord cr l = codeword cr best then .none else .corrected)

/-- The enabling all five operations share: the head of `E5` is `b`, `E6` has room for one (R240). -/
def State.hammReady (s : State) (p : CwBlock → Bool) : Bool :=
  match s.e5 with
  | [] => false
  | b :: _ => p b && s.room s.e6 1

/-- The block step (R247): decode every codeword, flag an uncorrectable payload block, push the nibbles. -/
def State.hammStep (s : State) (f : CwBlock → List (Nibble × CwStatus)) : State :=
  match s.e5 with
  | [] => s
  | b :: rest =>
    let d := f b
    let t := { s with e5 := rest, e6 := s.e6 ++ [⟨d.map Prod.fst, d.map Prod.snd, b.sof, b.hdr, b.cr⟩] }
    if !b.hdr && anyUncorr (d.map Prod.snd) then t.raise .payFec else t

/-- The hard form of the block step: rows 0 .. SF - 1 through the decoder of the coding rate. -/
def State.hardRows (s : State) (dec : BitVec 8 → Nibble × CwStatus) (b : CwBlock) : List (Nibble × CwStatus) :=
  (List.range s.sf).map fun r => dec (b.cw.getD r 0)

/-- The soft form of the block step. -/
def State.softRows (s : State) (b : CwBlock) : List (Nibble × CwStatus) :=
  (List.range s.sf).map fun r => s.decS b.cr.toNat (b.cwl.getD r [])

/-- A hard operation is enabled: `SOFT` = 0 and the block's tag is `cr` (R240). -/
def State.canHammHard (s : State) (cr : BitVec 3) : Bool := s.hammReady (fun b => decide (b.cr = cr)) && !s.soft
/-- `HAMM.S` is enabled: `SOFT` = 1 and the block's tag is `SUB`, 1 to 4 (R248). -/
def State.canHammSoft (s : State) (sub : BitVec 4) : Bool :=
  s.hammReady (fun b => decide (b.cr.toNat = sub.toNat) && decide (1 ≤ sub.toNat) && decide (sub.toNat ≤ 4)) && s.soft

/-- `HAMM.CR1` (R243). -/
def execHammCr1 (s : State) : Out := ifEnabled (s.canHammHard 1) s (s.hammStep (s.hardRows dec1))

/-- `HAMM.CR2` (R244). -/
def execHammCr2 (s : State) : Out := ifEnabled (s.canHammHard 2) s (s.hammStep (s.hardRows dec2))

/-- `HAMM.CR3` (R245). -/
def execHammCr3 (s : State) : Out := ifEnabled (s.canHammHard 3) s (s.hammStep (s.hardRows dec3))

/-- `HAMM.CR4` (R246). -/
def execHammCr4 (s : State) : Out := ifEnabled (s.canHammHard 4) s (s.hammStep (s.hardRows dec4))

/-- `HAMM.S` (R248): the block's tag `cr` is `SUB`. -/
def execHammS (sub : BitVec 4) (s : State) : Out := ifEnabled (s.canHammSoft sub) s (s.hammStep s.softRows)

end Sys2Proof.Machine
end

