-- ==== Sys2Proof/Machine/Header.lean ====
section
/-! DEFINITION. Stage 6, the Header Decoder (46_header.md). -/

namespace Sys2Proof.Machine

/-- The nibbles of rows `lo .. SF - 1`, as items of `E7` (46_header.md R263, R270). -/
def NibBlock.nibItems (b : NibBlock) (lo sf : Nat) : List E7Item :=
  (List.range (sf - lo)).map fun r => .nib (b.at (lo + r))

/-- The cause that a header block aborts with, in the priority of R263: `HDR_FEC` 2, `HDR_CHK` 1, `HDR_RSVD` 3; none for a
header that is accepted (R264 to R266). -/
def NibBlock.hdrAbort (b : NibBlock) : Option (BitVec 4) :=
  if anyUncorr b.st then some 2
  else if b.hdrChk ≠ headerChk (b.at 0) (b.at 1) (b.at 2) then some 1
  else if b.hdrCr.toNat < 1 ∨ 4 < b.hdrCr.toNat then some 3
  else none

/-- The head of `E6` has the tag `hdr`, room for `k` items in `E7`. -/
def State.hdrReady (s : State) (hdr : Bool) (k : Nat) : Bool :=
  match s.e6 with
  | [] => false
  | b :: _ => decide (b.hdr = hdr) && s.room s.e7 k

/-- The step of `HDR.PARSE` (R263): the pushes to `E7` and the message to `MBOX` in one step (R269). -/
def State.parseStep (s : State) : State :=
  match s.e6 with
  | [] => s
  | b :: rest =>
    match b.hdrAbort with
    | some code => { s with e6 := rest, hdrState := .drop, mbox := some (.abort code) }
    | none =>
      { s with
        e6 := rest
        hdrState := .pass
        e7 := s.e7 ++ (.fstart b.hdrLen b.hdrCr b.hdrCrc :: b.nibItems 5 s.sf)
        mbox := some (.params b.hdrLen b.hdrCr b.hdrCrc) }

/-- The step of `HDR.PASS` (R270): a payload block is passed on, or discarded after an abort (R272). -/
def State.passStep (s : State) : State :=
  match s.e6 with
  | [] => s
  | b :: rest => { s with e6 := rest, e7 := if s.hdrState = .pass then s.e7 ++ b.nibItems 0 s.sf else s.e7 }

/-- The step of `HDR.IMPL` (R271). -/
def State.implStep (s : State) : State :=
  match s.e6 with
  | [] => s
  | b :: rest =>
    let st := if b.sof then HdrState.pass else s.hdrState
    let start : List E7Item := if b.sof then [.fstart s.paylen s.modeCr s.crcEn] else []
    let nibs := if st = .pass then b.nibItems 0 s.sf else []
    { s with e6 := rest, hdrState := st, e7 := s.e7 ++ start ++ nibs }

/-- `HDR.PARSE` is enabled (R263): explicit mode, a header block, `MBOX` empty, room for `1 + (SF - 5)` items. -/
def canHdrParse (s : State) : Bool := !s.impl && s.hdrReady true (1 + (s.sf - 5)) && s.mbox.isNone
/-- `HDR.PASS` is enabled (R270): explicit mode, a payload block, room for `SF` items. -/
def canHdrPass (s : State) : Bool := !s.impl && s.hdrReady false s.sf
/-- `HDR.IMPL` is enabled (R271): implicit mode, a block, room for `1 + SF` items. -/
def canHdrImpl (s : State) : Bool := s.impl && !s.e6.isEmpty && s.room s.e7 (1 + s.sf)

/-- `HDR.PARSE` (R263). -/
def execHdrParse (s : State) : Out := ifEnabled (canHdrParse s) s s.parseStep

/-- `HDR.PASS` (R270). -/
def execHdrPass (s : State) : Out := ifEnabled (canHdrPass s) s s.passStep

/-- `HDR.IMPL` (R271). -/
def execHdrImpl (s : State) : Out := ifEnabled (canHdrImpl s) s s.implStep

end Sys2Proof.Machine
end

