-- ==== Sys2Proof/Machine/Host.lean ====
section
/-! DEFINITION. The host operations (40_host_ops.md). Each is one atomic step, always enabled, never stalled. Operands stand
at the ports (`env.idx`, `env.v`, `env.i`, `env.q`), results are left there (`env.rdData`, `env.recOut`). -/

namespace Sys2Proof.Machine

/-- The registers that refuse every write (40_host_ops.md R140, R142). -/
def isReadOnly (idx : BitVec 6) : Bool :=
  decide (idx = 0x01) || decide (idx = 0x0B) || decide (idx = 0x0C) || decide (idx = 0x0D) || decide (idx = 0x0E)

/-- The configuration registers, locked while `RUN` = 1 (R140, R142). -/
def isConfig (idx : BitVec 6) : Bool := decide (2 ≤ idx.toNat) && decide (idx.toNat ≤ 8)

/-- A configuration register takes the defined bits of `v` (R140). -/
def HostRegs.writeConfig (r : HostRegs) (idx : BitVec 6) (v : Word32) : HostRegs :=
  let w := v &&& definedMask idx
  if idx = 0x02 then { r with sf := w }
  else if idx = 0x03 then { r with bw := w }
  else if idx = 0x04 then { r with fs := w }
  else if idx = 0x05 then { r with mode := w }
  else if idx = 0x06 then { r with paylen := w }
  else if idx = 0x07 then { r with sync := w }
  else if idx = 0x08 then { r with det := w }
  else r

/-- `START()` (R144). -/
def State.startCmd (s : State) : State :=
  if s.regs.run = true then s
  else if s.configCheck ≠ 0 then s.raise .cfgErr s.configCheck
  else
    let c := s.pipelineClear
    { c with
      regs := { c.regs with cfgErr := false, cfgCode := 0, dropCnt := 0, frameCnt := 0, run := true }
      dbox := some .default }

/-- `STOP()` (R147). -/
def State.stopCmd (s : State) : State :=
  if s.regs.run = false then s
  else { s.pipelineClear with regs := { s.regs with run := false } }

/-- `SRESET()` (R148): the same as power-on reset. The implementation parameters, and what stands outside the CORE at
its ports, are not state of 10_state.md and stay (R58; log entry 12). -/
def State.sresetCmd (s : State) : State := { State.reset with par := s.par, env := s.env }

/-- The power-on reset input goes to the level `asserted` (70_reset_and_hazards.md R340): asserted, it has the effect of `SRESET`. While
it stays asserted no operation is accepted: no descriptor is formed (`State.stageSelector`, `State.hostSelector`). -/
def State.powerOnReset (s : State) (asserted : Bool) : State :=
  let t := { s with env := { s.env with por := asserted } }
  if asserted then t.sresetCmd else t

/-- A write of `CTRL`: one command at most, SRESET over STOP over START (10_state.md R22, 40_host_ops.md R140). -/
def State.command (s : State) (v : Word32) : State :=
  if v.getLsbD 2 then s.sresetCmd
  else if v.getLsbD 1 then s.stopCmd
  else if v.getLsbD 0 then s.startCmd
  else s

/-- `REG_WR(idx, v)` (R140). -/
def State.regWrite (s : State) (idx : BitVec 6) (v : Word32) : State :=
  if 0x0E < idx.toNat then s.raise .busErr
  else if isReadOnly idx then s.raise .busErr
  else if isConfig idx then
    if s.regs.run = true then s.raise .busErr else { s with regs := s.regs.writeConfig idx v }
  else if idx = 0x09 then { s with regs := { s.regs with irqEn := v.extractLsb' 0 9 } }
  else if idx = 0x0A then { s with regs := { s.regs with evt := clearEvt s.regs.evt (v.extractLsb' 0 9) } }
  else s.command v

/-- `REG_WR` (R140): the register write that stands at the register port. -/
def execRegWr (s : State) : Out := .next (s.regWrite s.env.idx s.env.v)

/-- `REG_RD` (R141): the result goes to the register port's data output. -/
def execRegRd (s : State) : Out :=
  let t := { s with env := { s.env with rdData := s.regRead s.env.idx } }
  .next (if 0x0E < s.env.idx.toNat then t.raise .busErr else t)

/-- `START` (R144). -/
def execStart (s : State) : Out := .next s.startCmd

/-- `STOP` (R147). -/
def execStop (s : State) : Out := .next s.stopCmd

/-- `SRESET` (R148). -/
def execSreset (s : State) : Out := .next s.sresetCmd

/-- `SAMP_PUSH` (R149): offer the sample that stands at the sample port. -/
def execSampPush (s : State) : Out :=
  .next <|
    if s.regs.run = false then s
    else if s.e1.length = s.par.sampDepth then s.raise .ovf
    else { s with e1 := s.e1 ++ [⟨s.env.i, s.env.q⟩] }

/-- `REC_POP` (R150): the oldest record, or none, goes to the record port. -/
def execRecPop (s : State) : Out :=
  .next { s with env := { s.env with recOut := s.e9.head? }, e9 := s.e9.tail }

end Sys2Proof.Machine
end

