-- ==== Sys2Proof/Machine/Sync.lean ====
section
/-! DEFINITION. Stage 2, the Frame Synchronizer (42_sync.md): five symbol steps, one per state, and the feedback step. -/

namespace Sys2Proof.Machine

/-- Two bins are near: their circular distance is at most `BIN_TOL` (42_sync.md R181). -/
def State.near (s : State) (a b : Bin) : Bool := decide (cdist s.bins a.toNat b.toNat ≤ s.binTol)

/-- The part of the enabling of a symbol step that all five share (R182): `RUN` = 1, an event in `E2`, `hdr_wait` = 0, and room
in `DBOX` for the message it posts (20_memory.md R76). -/
def State.symReady (s : State) (st : SyncState) : Bool :=
  s.regs.run && decide (s.sync.state = st) && !s.sync.hdrWait && s.dbox.isNone && !s.e2.isEmpty

/-- `EST_COARSE` (R187): the samples to skip after a lock on bin `k`. -/
def State.coarseSkip (s : State) (k : Bin) : Nat := (((s.bins : Int) - k.toNat) % s.bins).toNat * s.os

/-- `EST_FINE` (R194): the samples to skip after the second SFD window, read as `ks` half bins. -/
def State.fineSkip (s : State) (ks : Int) : Nat := ((s.os * s.bins / 4 : Nat) + (s.os * ks) / 2 : Int).toNat

/-- The search registers after one symbol (R184, R185). -/
def State.searchRun (s : State) (k : Bin) : SyncRegs :=
  if s.sync.prevV && s.near k s.sync.prev then
    { s.sync with
      driftSum := s.sync.driftSum + BitVec.ofInt 20 (csigned s.bins ((k.toNat : Int) - s.sync.prev.toNat))
      runLen := s.sync.runLen + 1
      prev := k
      prevV := true }
  else { s.sync with runLen := 1, driftSum := 0, prev := k, prevV := true }

/-- The step of `SYNC.SEARCH` on the symbol `k` (R184 to R187). -/
def State.searchStep (s : State) (k : Bin) : State :=
  let r := s.searchRun k
  if s.minRun.toNat ≤ r.runLen.toNat then
    { s with sync := { r with state := .preambleLocked, kLock := k }, dbox := some ⟨.normal, 0, s.coarseSkip k⟩ }
  else { s with sync := r, dbox := some .default }

/-- `sync_check(k)` (R190, R191). -/
def State.syncCheck (s : State) (k : Bin) : State :=
  if s.near k (s.syncBin s.sync.syncIdx) then
    if s.sync.syncIdx + 1 = s.syncN then
      { s with
        sync := { s.sync with syncIdx := s.sync.syncIdx + 1, state := .sfdAlign, sfdIdx := 0 }
        dbox := some ⟨.up, 0, 0⟩ }
    else
      { s with
        sync := { s.sync with syncIdx := s.sync.syncIdx + 1, state := .syncWordCheck }
        dbox := some .default }
  else s.raise .syncMiss

/-- The step of `SYNC.LOCKED` (R188): more preamble has priority over the sync word. -/
def State.lockedStep (s : State) (k : Bin) : State :=
  if s.near k 0 then { s with dbox := some .default } else s.syncCheck k

/-- `enter_frame()` (R196). -/
def State.enterFrame (s : State) : SyncRegs :=
  if s.impl then
    { s.sync with
      state := .inFrame
      symIdx := 0
      hdrWait := false
      fp := ⟨true, s.modeCr, s.paylen, true, s.crcEn⟩
      symRem := BitVec.ofNat 10 (implicitSymbols s.sf s.paylen.toNat s.modeCr.toNat s.crcEn) }
  else
    { s.sync with
      state := .inFrame
      symIdx := 0
      hdrWait := false
      fp := ⟨true, 4, 0, false, false⟩
      symRem := 0 }

/-- The step of `SYNC.SFD` (R192 to R195). -/
def State.sfdStep (s : State) (k : Bin) : State :=
  if s.sync.sfdIdx = 0 then
    { s with sync := { s.sync with kdn := k, sfdIdx := 1 }, dbox := some ⟨.up, 0, 0⟩ }
  else if s.near k s.sync.kdn then
    let ks := csigned s.bins k.toNat
    { s with
      sync := { s.enterFrame with cfo2 := BitVec.ofInt 12 ks }
      dbox := some ⟨.normal, BitVec.ofInt 12 ks, s.fineSkip ks⟩ }
  else s.raise .syncMiss

/-- The current symbol belongs to the header block (R197, R198). -/
def State.hdrBlk (s : State) : Bool := !s.impl && decide (s.sync.symIdx.toNat < 8)

/-- The item `SYNC.FRAME` forwards (R197). -/
def State.frameItem (s : State) (e : SymEvt) : SymItem where
  bin := e.bin
  ll := e.ll
  sof := decide (s.sync.symIdx = 0)
  hdr := s.hdrBlk
  cr := if s.hdrBlk then 4 else s.sync.fp.cr

/-- The registers of `SYNC.FRAME` after forwarding one symbol, before completion (R197, R198): `sym_idx` saturates at 8, the
8th header symbol sets `hdr_wait`, every other symbol counts `sym_rem` down. -/
def State.frameRegs (s : State) : SyncRegs :=
  let idx := if s.sync.symIdx.toNat < 8 then s.sync.symIdx + 1 else s.sync.symIdx
  if s.hdrBlk then { s.sync with symIdx := idx, hdrWait := s.sync.hdrWait || decide (idx = 8) }
  else { s.sync with symIdx := idx, symRem := s.sync.symRem - 1 }

/-- The step of `SYNC.FRAME` (R197, R205). -/
def State.frameStep (s : State) (e : SymEvt) : State :=
  let r := s.frameRegs
  let t := { s with e3 := s.e3 ++ [s.frameItem e] }
  if !s.hdrBlk && decide (r.symRem = 0) then { t with sync := r.resetSearch, dbox := some .default }
  else { t with sync := r, dbox := some r.dctlFrame }

/-- The step of `SYNC.FB` on the message `m` (R203, R204, R205). -/
def State.fbStep (s : State) (m : MboxMsg) : State :=
  match m with
  | .params len cr crc =>
    let r : SyncRegs :=
      { s.sync with
        hdrWait := false
        fp := ⟨true, cr, len, true, crc⟩
        symRem := BitVec.ofNat 10 (explicitSymbols s.sf len.toNat cr.toNat crc) }
    { s with mbox := none, sync := if r.symRem = 0 then r.resetSearch else r }
  | .abort cause => { s with mbox := none }.abortFrame cause.toNat

/-- A symbol step: pop the event and run `f` on it. -/
def State.symStep (s : State) (f : State → SymEvt → State) : State :=
  match s.e2 with
  | [] => s
  | e :: rest => f { s with e2 := rest } e

/-- `SYNC.SEARCH` is enabled (R182, R184). -/
def canSyncSearch (s : State) : Bool := s.symReady .searching
/-- `SYNC.LOCKED` is enabled (R182, R188). -/
def canSyncLocked (s : State) : Bool := s.symReady .preambleLocked
/-- `SYNC.SWCHK` is enabled (R182, R189). -/
def canSyncSwchk (s : State) : Bool := s.symReady .syncWordCheck
/-- `SYNC.SFD` is enabled (R182, R192). -/
def canSyncSfd (s : State) : Bool := s.symReady .sfdAlign
/-- `SYNC.FRAME` is enabled (R182, R197): `E3` has room for one item. -/
def canSyncFrame (s : State) : Bool := s.symReady .inFrame && s.room s.e3 1
/-- `SYNC.FB` is enabled (R203). -/
def canSyncFb (s : State) : Bool :=
  s.regs.run && decide (s.sync.state = .inFrame) && s.sync.hdrWait && s.mbox.isSome

/-- `SYNC.SEARCH` (R184). -/
def execSyncSearch (s : State) : Out := ifEnabled (canSyncSearch s) s (s.symStep fun t e => t.searchStep e.bin)

/-- `SYNC.LOCKED` (R188). -/
def execSyncLocked (s : State) : Out := ifEnabled (canSyncLocked s) s (s.symStep fun t e => t.lockedStep e.bin)

/-- `SYNC.SWCHK` (R189). -/
def execSyncSwchk (s : State) : Out := ifEnabled (canSyncSwchk s) s (s.symStep fun t e => t.syncCheck e.bin)

/-- `SYNC.SFD` (R192). -/
def execSyncSfd (s : State) : Out := ifEnabled (canSyncSfd s) s (s.symStep fun t e => t.sfdStep e.bin)

/-- `SYNC.FRAME` (R197). -/
def execSyncFrame (s : State) : Out := ifEnabled (canSyncFrame s) s (s.symStep fun t e => t.frameStep e)

/-- `SYNC.FB` (R203). -/
def execSyncFb (s : State) : Out :=
  ifEnabled (canSyncFb s) s (match s.mbox with | some m => s.fbStep m | none => s)

end Sys2Proof.Machine
end

