-- ==== Sys2Proof/Machine/Dispatch.lean ====
section
/-! DEFINITION. One arm per operation. -/

namespace Sys2Proof.Machine

def exec (i : Instr) (s : State) : Host.Outcome State Fault Refusal :=
  match i with
  | .regWr => Sys2Proof.Machine.execRegWr s
  | .regRd => Sys2Proof.Machine.execRegRd s
  | .start => Sys2Proof.Machine.execStart s
  | .stop => Sys2Proof.Machine.execStop s
  | .sreset => Sys2Proof.Machine.execSreset s
  | .sampPush => Sys2Proof.Machine.execSampPush s
  | .recPop => Sys2Proof.Machine.execRecPop s
  | .demodH => Sys2Proof.Machine.execDemodH s
  | .demodS => Sys2Proof.Machine.execDemodS s
  | .syncSearch => Sys2Proof.Machine.execSyncSearch s
  | .syncLocked => Sys2Proof.Machine.execSyncLocked s
  | .syncSwchk => Sys2Proof.Machine.execSyncSwchk s
  | .syncSfd => Sys2Proof.Machine.execSyncSfd s
  | .syncFrame => Sys2Proof.Machine.execSyncFrame s
  | .syncFb => Sys2Proof.Machine.execSyncFb s
  | .grayH => Sys2Proof.Machine.execGrayH s
  | .grayS => Sys2Proof.Machine.execGrayS s
  | .deintH => Sys2Proof.Machine.execDeintH s
  | .deintS => Sys2Proof.Machine.execDeintS s
  | .hammCr1 => Sys2Proof.Machine.execHammCr1 s
  | .hammCr2 => Sys2Proof.Machine.execHammCr2 s
  | .hammCr3 => Sys2Proof.Machine.execHammCr3 s
  | .hammCr4 => Sys2Proof.Machine.execHammCr4 s
  | .hammS sub => Sys2Proof.Machine.execHammS sub s
  | .hdrParse => Sys2Proof.Machine.execHdrParse s
  | .hdrPass => Sys2Proof.Machine.execHdrPass s
  | .hdrImpl => Sys2Proof.Machine.execHdrImpl s
  | .dewhStart => Sys2Proof.Machine.execDewhStart s
  | .dewhNib => Sys2Proof.Machine.execDewhNib s
  | .crcvStart => Sys2Proof.Machine.execCrcvStart s
  | .crcvByte => Sys2Proof.Machine.execCrcvByte s

end Sys2Proof.Machine
end

