-- ==== Sys2Proof/WellFormed.lean ====
section
/-! DEFINITION. Which operations and stimulus lines are well formed. -/

namespace Sys2Proof

/-- A tag `cr` is 1 to 4 (30_encoding.md R123, R129). -/
def CrLegal (cr : Nat) : Prop := 1 ≤ cr ∧ cr ≤ 4

/-- The only operand an operation's word carries is the `SUB` of `HAMM.S`, the block's tag `cr`: 1 to 4
(30_encoding.md R121). -/
def Instr.wellFormed : Instr → Bool
  | .hammS sub => decide (1 ≤ sub.toNat) && decide (sub.toNat ≤ 4)
  | _ => true

/-- A sample's components are real members of the exact numbers, in canonical form (40_host_ops.md R149; log
entry 3). `SYM k` is a bin, held in 12 bits, whatever its value (30_encoding.md R125, R129). -/
def Stim.wellFormed : Stim → Bool
  | .samp i q => i.canonical && i.isReal && q.canonical && q.isReal
  | _ => true

end Sys2Proof
end

