-- ==== Sys2Proof/Decode.lean ====
section
/-! DEFINITION. From `OPSEL` to operation and back (30_encoding.md R120, R121, R123).

The table of R121 is one list of rows, each a mask, a match value and the operation. A word that no row matches is
rejected by name. `OPSEL` is one 16-bit word that nothing in the hardware stores (R120), so it has no byte order. -/

namespace Sys2Proof

/-- Why a word names no operation (30_encoding.md R123). -/
inductive Reject where
  /-- `STAGE` is 9 to 15. -/
  | reservedStage
  /-- One of the bits [7:4], [2:0] is 1. -/
  | nonzeroZeroField
  /-- The stage has no operation with this `SUB` in the mode `SOFT`. -/
  | noSuchSub
deriving DecidableEq, Repr

/-- One row of the table of 30_encoding.md R121. -/
structure Row where
  mask : Opsel
  val  : Opsel
  op   : Instr
deriving DecidableEq, Repr

/-- The rows whose word is fixed but for the ignored bit `SOFT` (30_encoding.md R121). -/
def rows : List Row :=
  [ ⟨0xFFF7, 0x0000, .regWr⟩, ⟨0xFFF7, 0x0100, .regRd⟩, ⟨0xFFF7, 0x0200, .start⟩, ⟨0xFFF7, 0x0300, .stop⟩,
    ⟨0xFFF7, 0x0400, .sreset⟩, ⟨0xFFF7, 0x0500, .sampPush⟩, ⟨0xFFF7, 0x0600, .recPop⟩ ] ++
  [ ⟨0xFFFF, 0x1000, .demodH⟩, ⟨0xFFFF, 0x1008, .demodS⟩,
    ⟨0xFFF7, 0x2000, .syncSearch⟩, ⟨0xFFF7, 0x2100, .syncLocked⟩, ⟨0xFFF7, 0x2200, .syncSwchk⟩,
    ⟨0xFFF7, 0x2300, .syncSfd⟩, ⟨0xFFF7, 0x2400, .syncFrame⟩, ⟨0xFFF7, 0x2800, .syncFb⟩ ] ++
  [ ⟨0xFFFF, 0x3000, .grayH⟩, ⟨0xFFFF, 0x3008, .grayS⟩, ⟨0xFFFF, 0x4000, .deintH⟩, ⟨0xFFFF, 0x4008, .deintS⟩,
    ⟨0xFFFF, 0x5100, .hammCr1⟩, ⟨0xFFFF, 0x5200, .hammCr2⟩, ⟨0xFFFF, 0x5300, .hammCr3⟩, ⟨0xFFFF, 0x5400, .hammCr4⟩ ] ++
  [ ⟨0xFFF7, 0x6000, .hdrParse⟩, ⟨0xFFF7, 0x6100, .hdrPass⟩, ⟨0xFFF7, 0x6200, .hdrImpl⟩,
    ⟨0xFFF7, 0x7000, .dewhStart⟩, ⟨0xFFF7, 0x7100, .dewhNib⟩, ⟨0xFFF7, 0x8000, .crcvStart⟩, ⟨0xFFF7, 0x8100, .crcvByte⟩ ]

/-- The field `STAGE`, bits [15:12] (30_encoding.md R120). -/
def opselStage (w : Opsel) : BitVec 4 := w.extractLsb' 12 4
/-- The field `SUB`, bits [11:8]. -/
def opselSub (w : Opsel) : BitVec 4 := w.extractLsb' 8 4

/-- Why `w`, which no row matches, is rejected. -/
def rejectReason (w : Opsel) : Reject :=
  if 9 ≤ (opselStage w).toNat then .reservedStage
  else if w &&& 0x00F7 ≠ 0 then .nonzeroZeroField
  else .noSuchSub

/-- The operation that `w` names. The row of `HAMM.S` has match 0x5008 and mask 0xF0FF: its `SUB` is an operand
(45_hamming.md R248, "0x5008 with any `SUB`"; log entry 14). -/
def decode (w : Opsel) : Except Reject Instr :=
  match rows.find? fun r => w &&& r.mask = r.val with
  | some r => .ok r.op
  | none => if w &&& 0xF0FF = 0x5008 then .ok (.hammS (opselSub w)) else .error (rejectReason w)

/-- The word of an operation: the match value of its row, the ignored bit `SOFT` as 0 (30_encoding.md R121). -/
def encode : Instr → Opsel
  | .regWr => 0x0000
  | .regRd => 0x0100
  | .start => 0x0200
  | .stop => 0x0300
  | .sreset => 0x0400
  | .sampPush => 0x0500
  | .recPop => 0x0600
  | .demodH => 0x1000
  | .demodS => 0x1008
  | .syncSearch => 0x2000
  | .syncLocked => 0x2100
  | .syncSwchk => 0x2200
  | .syncSfd => 0x2300
  | .syncFrame => 0x2400
  | .syncFb => 0x2800
  | .grayH => 0x3000
  | .grayS => 0x3008
  | .deintH => 0x4000
  | .deintS => 0x4008
  | .hammCr1 => 0x5100
  | .hammCr2 => 0x5200
  | .hammCr3 => 0x5300
  | .hammCr4 => 0x5400
  | .hammS sub => 0x5008 ||| (sub.setWidth 16 <<< 8)
  | .hdrParse => 0x6000
  | .hdrPass => 0x6100
  | .hdrImpl => 0x6200
  | .dewhStart => 0x7000
  | .dewhNib => 0x7100
  | .crcvStart => 0x8000
  | .crcvByte => 0x8100

/-- The bits of `OPSEL` that name the operation: the mask of its row (30_encoding.md R121), for `HAMM.S` with the bits of its
operand `SUB`. -/
def Instr.mask : Instr → Opsel
  | .regWr | .regRd | .start | .stop | .sreset | .sampPush | .recPop => 0xFFF7
  | .demodH | .demodS => 0xFFFF
  | .syncSearch | .syncLocked | .syncSwchk | .syncSfd | .syncFrame | .syncFb => 0xFFF7
  | .grayH | .grayS | .deintH | .deintS => 0xFFFF
  | .hammCr1 | .hammCr2 | .hammCr3 | .hammCr4 | .hammS _ => 0xFFFF
  | .hdrParse | .hdrPass | .hdrImpl | .dewhStart | .dewhNib | .crcvStart | .crcvByte => 0xFFF7

/-- The operation an `OPSEL` of at most 16 bits names, `w` numbered as the opcode table numbers it: bit 0 is the least
significant bit. None for a number that does not fit the word, or a word that names no operation. -/
def decodeTableWord (nbits w : Nat) : Option Instr :=
  if nbits ≤ 16 ∧ w < 2 ^ nbits then (decode (BitVec.ofNat 16 w)).toOption else none

end Sys2Proof
end

