-- ==== Sys2Proof/Machine/Fetch.lean ====
section
/-! DEFINITION. Which operation comes next. There is no instruction address: `OPSEL` is formed from state (30_encoding.md
R120, R121), for the agent whose turn it is (20_memory.md R78, R79). -/

namespace Sys2Proof.Machine

/-- The operation is enabled (20_memory.md R76; the host operations always, 40_host_ops.md). -/
def enabled (i : Instr) (s : State) : Bool :=
  match i with
  | .regWr => true
  | .regRd => true
  | .start => true
  | .stop => true
  | .sreset => true
  | .sampPush => true
  | .recPop => true
  | .demodH => canDemodH s
  | .demodS => canDemodS s
  | .syncSearch => canSyncSearch s
  | .syncLocked => canSyncLocked s
  | .syncSwchk => canSyncSwchk s
  | .syncSfd => canSyncSfd s
  | .syncFrame => canSyncFrame s
  | .syncFb => canSyncFb s
  | .grayH => canGrayH s
  | .grayS => canGrayS s
  | .deintH => canDeintH s
  | .deintS => canDeintS s
  | .hammCr1 => s.canHammHard 1
  | .hammCr2 => s.canHammHard 2
  | .hammCr3 => s.canHammHard 3
  | .hammCr4 => s.canHammHard 4
  | .hammS sub => s.canHammSoft sub
  | .hdrParse => canHdrParse s
  | .hdrPass => canHdrPass s
  | .hdrImpl => canHdrImpl s
  | .dewhStart => canDewhStart s
  | .dewhNib => canDewhNib s
  | .crcvStart => canCrcvStart s
  | .crcvByte => canCrcvByte s

/-- The agent that performs an operation (60_exceptions.md R319). -/
def agentOf : Instr → Agent
  | .regWr | .regRd | .start | .stop | .sreset | .sampPush | .recPop => .host
  | .demodH | .demodS => .demod
  | .syncSearch | .syncLocked | .syncSwchk | .syncSfd | .syncFrame | .syncFb => .sync
  | .grayH | .grayS => .gray
  | .deintH | .deintS => .deint
  | .hammCr1 | .hammCr2 | .hammCr3 | .hammCr4 | .hammS _ => .hamm
  | .hdrParse | .hdrPass | .hdrImpl => .hdr
  | .dewhStart | .dewhNib => .dewh
  | .crcvStart | .crcvByte => .crcv

/-- The descriptor of stage `stage`, `SUB` = `sub`, with the bit `SOFT` of `MODE` (30_encoding.md R120). -/
def State.descriptor (s : State) (stage sub : BitVec 4) : Opsel :=
  stage ++ sub ++ (0 : BitVec 4) ++ BitVec.ofBool s.soft ++ (0 : BitVec 3)

/-- The descriptor that names a host line's operation (R121): a `CTRL` write is named by the command it performs, by the priority of
10_state.md R22. `SYM` and the power-on reset are no operations. -/
def State.lineSelector (s : State) : Stim → Option Opsel
  | .regW idx v =>
    if idx = 0 then
      if v.getLsbD 2 then some (s.descriptor 0 4)
      else if v.getLsbD 1 then some (s.descriptor 0 3)
      else if v.getLsbD 0 then some (s.descriptor 0 2)
      else some (s.descriptor 0 0)
    else some (s.descriptor 0 0)
  | .regR _ => some (s.descriptor 0 1)
  | .samp _ _ => some (s.descriptor 0 5)
  | .pop => some (s.descriptor 0 6)
  | .sym _ => none
  | .powerOn _ => none

/-- The descriptor formed for a host line: none while the power-on reset input is asserted, when no operation is accepted
(70_reset_and_hazards.md R340). -/
def State.hostSelector (s : State) (line : Stim) : Option Opsel := if s.env.por then none else s.lineSelector line

/-- The descriptor that a stage's own state and the head of its input select, where it has an input (R121). -/
def State.inputSelector (s : State) : Agent → Option Opsel
  | .host => none
  | .demod => if s.dbox.isSome then some (s.descriptor 1 0) else none
  | .sync =>
    if s.sync.state = .inFrame ∧ s.sync.hdrWait = true then
      if s.mbox.isSome then some (s.descriptor 2 8) else none
    else if s.e2.isEmpty then none
    else some (s.descriptor 2 (s.sync.state.code.setWidth 4))
  | .gray => if s.e3.isEmpty then none else some (s.descriptor 3 0)
  | .deint => if s.e4.isEmpty then none else some (s.descriptor 4 0)
  | .hamm =>
    match s.e5 with
    | [] => none
    | b :: _ => some (s.descriptor 5 (b.cr.setWidth 4))
  | .hdr =>
    match s.e6 with
    | [] => none
    | b :: _ => some (s.descriptor 6 (if s.impl then 2 else if b.hdr then 0 else 1))
  | .dewh =>
    match s.e7 with
    | [] => none
    | .fstart _ _ _ :: _ => some (s.descriptor 7 0)
    | .nib _ :: _ => some (s.descriptor 7 1)
  | .crcv =>
    match s.e8 with
    | [] => none
    | .fstart _ _ :: _ => some (s.descriptor 8 0)
    | .byte _ :: _ => some (s.descriptor 8 1)

/-- The descriptor formed for a stage: none while the power-on reset input is asserted (70_reset_and_hazards.md R340). -/
def State.stageSelector (s : State) (a : Agent) : Option Opsel := if s.env.por then none else s.inputSelector a

/-- The stage has a step to take. A descriptor that names no operation counts, so that the step refuses it by name
(30_encoding.md R123). -/
def State.stageEnabled (s : State) (a : Agent) : Bool :=
  match s.stageSelector a with
  | none => false
  | some w =>
    match decode w with
    | .ok i => enabled i s
    | .error _ => true

/-- The stages, most downstream first (20_memory.md R78). -/
def downstreamFirst : List Agent := [.crcv, .dewh, .hdr, .hamm, .deint, .gray, .sync, .demod]

/-- The agent whose turn it is, and the state with the turn taken: the next choice of `sched` (R79) or, where it holds none,
the reference schedule (R78). None: nothing is enabled and no host line is pending. -/
def State.pick (s : State) : Option (Agent × State) :=
  match s.env.sched with
  | a :: rest => some (a, { s with env := { s.env with sched := rest } })
  | [] =>
    match downstreamFirst.find? s.stageEnabled with
    | some a => some (a, s)
    | none => if s.env.stim.isEmpty then none else some (.host, s)

/-- The host's next line taken from the stimulus, its operands at the ports (log entry 7). -/
def State.present (s : State) (line : Stim) (rest : List Stim) : State :=
  let e := { s.env with stim := rest }
  match line with
  | .regW idx v => { s with env := { e with idx := idx, v := v } }
  | .regR idx => { s with env := { e with idx := idx } }
  | .samp i q => { s with env := { e with i := i, q := q } }
  | .pop => { s with env := e }
  | .sym _ => { s with env := e }
  | .powerOn _ => { s with env := e }

/-- The test-bench line `SYM k` (30_encoding.md R125): take the message in `DBOX`, push the event on `E2`, where `DEMOD.H` would
have done so; otherwise nothing (log entry 10), and nothing while the power-on reset input is asserted (R340). -/
def State.benchSym (s : State) (k : Bin) : Out :=
  if s.env.por then .next s
  else if s.soft then .refused .symInSoftMode
  else .next (if s.regs.run && s.e2.isEmpty && s.dbox.isSome then { s with dbox := none, e2 := [⟨k, []⟩] } else s)

/-! ### Placing an operation where the step selects it -/

/-- `MODE` with the bits `IMPL` and `SOFT` given. -/
def modeWith (mode : Word32) (impl soft : Bool) : Word32 :=
  (mode &&& ~~~3) ||| (if impl then 1 else 0) ||| (if soft then 2 else 0)

/-- The configuration with the bits `IMPL` and `SOFT` given; where START would refuse the registers as they stand, a legal
one in their place (log entry 21). -/
def State.configured (s : State) (impl soft : Bool) : State :=
  let t := { s with regs := { s.regs with mode := modeWith s.regs.mode impl soft } }
  if t.configCheck = 0 then t
  else
    { s with
      regs := { s.regs with sf := 7, bw := 125000, fs := 125000, mode := modeWith 0x10 impl soft, paylen := 1,
                            sync := 0x20100008, det := 0x106 } }

/-- `q` where it has room for `k` more, the empty edge otherwise. -/
def State.withRoom {α : Type} (s : State) (q : List α) (k : Nat) : List α := if s.room q k then q else []

/-- A running session in which the turn is `a`'s. -/
def State.turn (s : State) (a : Agent) : State :=
  { s with env := { s.env with sched := a :: s.env.sched, por := false }, regs := { s.regs with run := true } }

/-- The host's turn, with the line `l` next. -/
def State.hostTurn (s : State) (l : Stim) : State :=
  { s with env := { s.env with sched := .host :: s.env.sched, stim := l :: s.env.stim, por := false } }

/-- The synchronizer in the state `st`, with one symbol waiting. -/
def State.symTurn (s : State) (st : SyncState) : State :=
  let t := s.turn .sync
  { t with
    sync := { t.sync with state := st, hdrWait := false }
    dbox := none
    e2 := if t.e2.isEmpty then [⟨0, []⟩] else t.e2
    e3 := t.withRoom t.e3 1 }

/-- The Hamming Decoder with a block of tag `cr` at the head of its edge. -/
def State.hammTurn (s : State) (cr : BitVec 3) : State :=
  let t := s.turn .hamm
  { t with e5 := ⟨[], [], false, false, cr⟩ :: t.e5, e6 := t.withRoom t.e6 1 }

/-- The Header Decoder with a block at the head of its edge. -/
def State.hdrTurn (s : State) (hdr : Bool) : State :=
  let t := s.turn .hdr
  { t with e6 := ⟨[], [], hdr, hdr, 4⟩ :: t.e6, e7 := t.withRoom t.e7 13, mbox := none }

/-- The state in which `i` is the very next operation: its agent's turn, in a mode and with an input and room that make the
formed descriptor name it (log entry 21). -/
def State.placeInstr (s : State) (i : Instr) (soft : Bool) : State :=
  let h := { s with regs := { s.regs with mode := modeWith s.regs.mode s.impl soft } }
  let c := s.configured s.impl soft
  match i with
  | .regWr => h.hostTurn (.regW 0 0)
  | .regRd => h.hostTurn (.regR 0)
  | .start => h.hostTurn (.regW 0 1)
  | .stop => h.hostTurn (.regW 0 2)
  | .sreset => h.hostTurn (.regW 0 4)
  | .sampPush => h.hostTurn (.samp (.rat 0) (.rat 0))
  | .recPop => h.hostTurn .pop
  | .demodH | .demodS =>
    let t := c.turn .demod
    let d := t.dbox.getD .default
    { t with dbox := some d, e2 := [], e1 := t.e1 ++ List.replicate (d.skip + t.wlen - t.e1.length) ⟨.rat 0, .rat 0⟩ }
  | .syncSearch => c.symTurn .searching
  | .syncLocked => c.symTurn .preambleLocked
  | .syncSwchk => c.symTurn .syncWordCheck
  | .syncSfd => c.symTurn .sfdAlign
  | .syncFrame => c.symTurn .inFrame
  | .syncFb =>
    let t := c.turn .sync
    { t with sync := { t.sync with state := .inFrame, hdrWait := true }, mbox := some (t.mbox.getD (.params 0 1 false)) }
  | .grayH | .grayS =>
    let t := c.turn .gray
    { t with e3 := ⟨0, [], true, false, 1⟩ :: t.e3, e4 := t.withRoom t.e4 1 }
  | .deintH | .deintS =>
    let t := c.turn .deint
    { t with e4 := ⟨⟨0, []⟩, true, false, 1⟩ :: t.e4, e5 := t.withRoom t.e5 1 }
  | .hammCr1 => c.hammTurn 1
  | .hammCr2 => c.hammTurn 2
  | .hammCr3 => c.hammTurn 3
  | .hammCr4 => c.hammTurn 4
  | .hammS sub => c.hammTurn (sub.setWidth 3)
  | .hdrParse => (s.configured false soft).hdrTurn true
  | .hdrPass => (s.configured false soft).hdrTurn false
  | .hdrImpl => (s.configured true soft).hdrTurn false
  | .dewhStart =>
    let t := c.turn .dewh
    { t with e7 := .fstart 0 1 false :: t.e7, e8 := t.withRoom t.e8 1 }
  | .dewhNib =>
    let t := c.turn .dewh
    { t with e7 := .nib 0 :: t.e7, e8 := t.withRoom t.e8 1 }
  | .crcvStart =>
    let t := c.turn .crcv
    { t with e8 := .fstart 0 false :: t.e8, e9 := if t.recRoom then t.e9 else [] }
  | .crcvByte =>
    let t := c.turn .crcv
    { t with e8 := .byte 0 :: t.e8, e9 := if t.recRoom then t.e9 else [] }

/-- The state in which the operation that `w` names comes next, where it names one. -/
def State.placeWord (s : State) (w : Opsel) : State :=
  match decode w with
  | .ok i => s.placeInstr i (w.getLsbD 3)
  | .error _ => s

end Sys2Proof.Machine
end

