-- ==== Sys2Proof/Machine/Run.lean ====
section
/-! DEFINITION. One turn of one agent: the descriptor is formed, decoded and performed. -/

namespace Sys2Proof.Machine

/-- The operation that the descriptor `w` names, on `s`; a descriptor that names none is refused (30_encoding.md R123). -/
def perform (w : Opsel) (s : State) : Out :=
  match decode w with
  | .ok i => exec i s
  | .error _ => .refused (.noOperation w)

/-- The host's turn: its next line, one operation, or a line of the test bench (30_encoding.md R124, R125). A line whose operation
is not accepted is used up and does nothing (70_reset_and_hazards.md R340; log entry 11). -/
def hostRun (s : State) : Out :=
  match s.env.stim with
  | [] => .next s
  | line :: rest =>
    let t := s.present line rest
    match line with
    | .sym k => t.benchSym k
    | .powerOn asserted => .next (t.powerOnReset asserted)
    | _ =>
      match t.hostSelector line with
      | some w => perform w t
      | none => .next t

/-- The turn of an agent. A stage with no input has no operation, and does nothing (20_memory.md R76). -/
def agentRun (a : Agent) (s : State) : Out :=
  match a with
  | .host => hostRun s
  | _ =>
    match s.stageSelector a with
    | some w => perform w s
    | none => .next s

/-- One step of the CORE with its host (20_memory.md R78, R79). Where nothing is enabled and no line is pending the CORE
waits in the state it is in (70_reset_and_hazards.md R357). -/
def turn (s : State) : Out :=
  match s.pick with
  | some (a, t) => agentRun a t
  | none => .next s

end Sys2Proof.Machine
end

