-- ==== Sys2Proof/Machine/Formats.lean ====
section
/-! DEFINITION. The bit formats of messages and records (30_encoding.md R117, R127, R128), and the maps of the matching
transmitter that the receive rules are the inverses of (R106, R110; 43_gray.md R223; 44_deinterleaver.md R232). No operation
uses them. -/

namespace Sys2Proof.Machine

/-- `DCTL` as 33 bits, `{ref, c2, skip}` (R128): for a `WLEN` of at most `2^20` samples. -/
def Dctl.bits (d : Dctl) : BitVec 33 :=
  BitVec.ofBool (decide (d.ref = .up)) ++ d.c2 ++ BitVec.ofNat 20 d.skip

/-- The `DCTL` that 33 bits stand for. -/
def Dctl.ofBits (w : BitVec 33) : Dctl :=
  ⟨if w.getLsbD 32 then .up else .normal, w.extractLsb' 20 12, (w.extractLsb' 0 20).toNat⟩

/-- The `MBOX` message as 13 bits, `{kind, body}` (R127). -/
def MboxMsg.bits : MboxMsg → BitVec 13
  | .params len cr crc => (0 : BitVec 1) ++ len ++ cr ++ BitVec.ofBool crc
  | .abort cause => (1 : BitVec 1) ++ (0 : BitVec 8) ++ cause

/-- The `MBOX` message that 13 bits stand for. -/
def MboxMsg.ofBits (w : BitVec 13) : MboxMsg :=
  if w.getLsbD 12 then .abort (w.extractLsb' 0 4)
  else .params (w.extractLsb' 4 8) (w.extractLsb' 1 3) (w.getLsbD 0)

/-- A record as beats (R117): the status beat `{crc_ok, len}`, then the bytes, byte 0 first. -/
def Record.beats (r : Record) : BitVec 10 × List Byte := (r.crcOk.code ++ r.len, r.bytes)

/-- The five header nibbles of a frame (R110). -/
def headerNibbles (len : Byte) (cr : BitVec 3) (crc : Bool) : List Nibble :=
  let h0 := len.extractLsb' 4 4
  let h1 := len.extractLsb' 0 4
  let h2 := cr ++ BitVec.ofBool crc
  let c := headerChk h0 h1 h2
  [h0, h1, h2, (c.extractLsb' 4 1).setWidth 4, c.extractLsb' 0 4]

/-- The inverse of the Gray map (43_gray.md R223): the xor of all right shifts of `g`. -/
def grayInverse (g : BitVec 12) : Bin := (List.range 12).foldl (fun s i => s ^^^ (g >>> i)) 0

/-- Group `i` of a block of `sf` codewords of `c` bits: the transmitter's `B[i][j] = D[(i - j - 1) mod SF][i]`
(44_deinterleaver.md R232). -/
def interleaveGroup (sf c : Nat) (cw : List (BitVec 8)) (i : Nat) : BitVec 12 :=
  (List.range sf).foldl
    (fun g j =>
      g ||| (BitVec.ofBool ((cw.getD (diagonal sf i j) 0).getLsbD (c - 1 - i))).setWidth 12 <<< (sf - 1 - j)) 0

/-- The bytes `x[0 ..]` whitened, or dewhitened: byte `i` xor `W[i]` (47_dewhitener.md R281, R287). -/
def whiten (bytes : List Byte) : List Byte := bytes.mapIdx fun i b => b ^^^ whitening i

/-- The payload nibble stream of a frame (30_encoding.md R106, R113 to R115): whitened payload, low nibble first, then the
CRC, low byte first, not whitened. -/
def frameNibbles (bytes : List Byte) (crc : Bool) : List Nibble :=
  let c := crc16 bytes
  let all := whiten bytes ++ if crc then [c.extractLsb' 0 8, c.extractLsb' 8 8] else []
  all.flatMap fun b => [b.extractLsb' 0 4, b.extractLsb' 4 4]

end Sys2Proof.Machine
end

