-- ==== Sys2Proof/Safety.lean ====
section
/-! DEFINITION. What counts as a safe run, and the conditions and invariants statements are made of. -/

namespace Sys2Proof.Safety

open Sys2Proof.Machine

/-- The step answers a next state. -/
def Steps (s : State) : Prop := ∃ t, step s = .next t

/-- Nothing has stopped for `k` steps from `s`. -/
def SafeFor (k : Nat) (s : State) : Prop := ∃ t, Host.Core.run Sys2Proof.core k s = .next t

/-- No stage has an enabled step: the run to quiescence of 20_memory.md R78 has ended. -/
def Quiescent (s : State) : Prop := downstreamFirst.find? s.stageEnabled = none

/-- The agent has a step to take (20_memory.md R76): a stage an enabled one, the host its next line, whose operation is
always enabled (40_host_ops.md). -/
def Ready (a : Agent) (s : State) : Prop := if a = .host then s.env.stim ≠ [] else s.stageEnabled a = true

/-- An infinite run `run` under a schedule that 20_memory.md R79 allows, `who k` being the agent of step `k`: each step is one atomic
turn of an agent that has a step to take; where none has one the CORE waits (70_reset_and_hazards.md R357); and the schedule is weakly
fair, in the words of 00_scope.md R4: every agent whose step stays enabled eventually takes it. -/
structure Schedule (who : Nat → Agent) (run : Nat → State) : Prop where
  atomic : ∀ k, (Ready (who k) (run k) ∧ agentRun (who k) (run k) = .next (run (k + 1))) ∨
    ((∀ a, ¬Ready a (run k)) ∧ run (k + 1) = run k)
  fair : ∀ a k, (∀ j, k ≤ j → Ready a (run j)) → ∃ j, k ≤ j ∧ who j = a

/-- At rest (70_reset_and_hazards.md R356): `E2` to `E8` and `MBOX` empty, `hdr_wait` = 0, no stage step enabled. DESIGN CHOICE, log
entry 22: 10_state.md R57 calls a run with any of `E1`, `DBOX`, `blk`, the held nibble or the partial payload non-empty not at
rest; R356, which it cites, lists none of these, and the model follows R356. -/
def AtRest (s : State) : Prop :=
  s.e2 = [] ∧ s.e3 = [] ∧ s.e4 = [] ∧ s.e5 = [] ∧ s.e6 = [] ∧ s.e7 = [] ∧ s.e8 = [] ∧ s.mbox = none ∧
    s.sync.hdrWait = false ∧ Quiescent s

/-- Every state of 10_state.md to which R60 gives a reset value has it. -/
def AtReset (s : State) : Prop :=
  s.regs = ⟨0, 0, 0, 0, 0, 0, 0, 0, 0, 0, 0, false, false, 0⟩ ∧
    s.sync = ⟨.searching, 0, 0, false, 0, false, 0, 0, 0, 0, 0, 0, 0, ⟨false, 0, 0, false, false⟩⟩ ∧
    s.dbox = none ∧ s.mbox = none ∧
    s.e1 = [] ∧ s.e2 = [] ∧ s.e3 = [] ∧ s.e4 = [] ∧ s.e5 = [] ∧ s.e6 = [] ∧ s.e7 = [] ∧ s.e8 = [] ∧ s.e9 = [] ∧
    s.deint.cnt = 0 ∧ s.hdrState = .idle ∧
    s.dewh.nibV = false ∧ s.dewh.isOpen = false ∧ s.dewh.lfsr = 0xFF ∧ s.dewh.byteIdx = 0 ∧
    s.crcv.isOpen = false ∧ s.crcv.acc = 0 ∧ s.crcv.payCnt = 0

/-- The flags of `EVT` that an agent may set (10_state.md R27, R59). -/
def evtOf : Agent → BitVec 9
  | .host => 0x1C0
  | .sync => 0x00E
  | .hamm => 0x010
  | .crcv => 0x021
  | .demod | .gray | .deint | .hdr | .dewh => 0

/-- The operation `i`, `n` times in a row. -/
def repeatOp (i : Instr) : Nat → State → Out
  | 0, s => .next s
  | n + 1, s =>
    match exec i s with
    | .next t => repeatOp i n t
    | .fault r => .fault r
    | .refused r => .refused r

/-- The operation `i` on `s` is SRESET: by its own descriptor, or as a write of `CTRL` with bit 2 (10_state.md R22). -/
def IsSreset (i : Instr) (s : State) : Prop :=
  i = .sreset ∨ (i = .regWr ∧ s.env.idx = 0 ∧ s.env.v.getLsbD 2 = true)

/-- The operation `i` on `s` is START: by its own descriptor, or as a write of `CTRL` with bit 0 alone of the three. -/
def IsStart (i : Instr) (s : State) : Prop :=
  i = .start ∨
    (i = .regWr ∧ s.env.idx = 0 ∧ s.env.v.getLsbD 2 = false ∧ s.env.v.getLsbD 1 = false ∧ s.env.v.getLsbD 0 = true)

/-- The symbol `e` waits for the synchronizer in the state `st`, and its step may take it (42_sync.md R182, with room in `DBOX`
for the message the step posts, 20_memory.md R76). -/
def SymWaiting (s : State) (st : SyncState) (e : SymEvt) (rest : List SymEvt) : Prop :=
  s.regs.run = true ∧ s.sync.state = st ∧ s.sync.hdrWait = false ∧ s.dbox = none ∧ s.e2 = e :: rest

/-- Parameters within the spec's bounds (00_scope.md R7). -/
def ParamsLegal (p : Params) : Prop := 13 ≤ p.qDepth ∧ 1 ≤ p.recDepth

/-- Configuration: reserved bits of the stored registers are 0 (10_state.md R21), and what START checked holds while
`RUN` = 1 (40_host_ops.md R142, R144). -/
structure ConfigInv (s : State) : Prop where
  sf : s.regs.sf &&& ~~~0x0000000F = 0
  mode : s.regs.mode &&& ~~~0x00000077 = 0
  paylen : s.regs.paylen &&& ~~~0x000000FF = 0
  sync : s.regs.sync &&& ~~~0x3FFF0FFF = 0
  det : s.regs.det &&& ~~~0x0007FFFF = 0
  checked : s.regs.run = true → s.configCheck = 0

/-- In the mode `IDLE` all edges and both mailboxes are empty, and no frame is being searched or received
(60_exceptions.md R317). `E9` keeps its records. -/
structure IdleInv (s : State) : Prop where
  edges : s.regs.run = false →
    s.e1 = [] ∧ s.e2 = [] ∧ s.e3 = [] ∧ s.e4 = [] ∧ s.e5 = [] ∧ s.e6 = [] ∧ s.e7 = [] ∧ s.e8 = []
  boxes : s.regs.run = false → s.dbox = none ∧ s.mbox = none
  search : s.regs.run = false → s.sync.state = .searching
  block : s.regs.run = false → s.deint.cnt = 0

/-- The Frame Synchronizer (10_state.md R31, R35; 42_sync.md R189, R207). -/
structure SyncInv (s : State) : Prop where
  fpLive : s.sync.fp.valid = true ↔ s.sync.state = .inFrame
  fpCr : s.sync.fp.valid = true → CrLegal s.sync.fp.cr.toNat
  outside : s.sync.state ≠ .inFrame → s.sync.symIdx = 0 ∧ s.sync.symRem = 0 ∧ s.sync.hdrWait = false
  saturated : s.sync.symIdx.toNat ≤ 8
  hold : s.sync.hdrWait = true → s.sync.state = .inFrame ∧ s.impl = false ∧ s.sync.symIdx = 8
  counted : s.sync.state = .inFrame → s.sync.hdrWait = false → (s.impl = true ∨ s.sync.symIdx = 8) → s.sync.symRem ≠ 0
  unmatched : s.sync.state = .searching ∨ s.sync.state = .preambleLocked → s.sync.syncIdx = 0
  matched : s.sync.state = .syncWordCheck → s.sync.syncIdx = 1 ∧ s.syncN = 2
  oneEvent : s.e2.length ≤ 1 ∧ (s.e2 ≠ [] → s.dbox = none)

/-- A tag: `cr` is 1 to 4, `hdr` stands for a header block, whose `cr` is 4, and never in implicit mode
(30_encoding.md R123, R129; 42_sync.md R198). -/
def TagLegal (s : State) (hdr : Bool) (cr : BitVec 3) : Prop :=
  CrLegal cr.toNat ∧ (hdr = true → cr = 4 ∧ s.impl = false)

/-- A message in `MBOX`: a legal coding rate, or one of the three header causes (30_encoding.md R127). -/
def MessageLegal : MboxMsg → Prop
  | .params _ cr _ => CrLegal cr.toNat
  | .abort cause => 1 ≤ cause.toNat ∧ cause.toNat ≤ 3

/-- What is in flight: every tag and message is legal, every edge holds at most its depth (10_state.md R51 to R53), a partial
block is smaller than a block (44_deinterleaver.md R231). -/
structure FlightInv (s : State) : Prop where
  e3Tags : ∀ x ∈ s.e3, TagLegal s x.hdr x.cr
  e4Tags : ∀ x ∈ s.e4, TagLegal s x.hdr x.cr
  e5Tags : ∀ x ∈ s.e5, TagLegal s x.hdr x.cr
  e6Tags : ∀ x ∈ s.e6, TagLegal s x.hdr x.cr
  message : ∀ m ∈ s.mbox, MessageLegal m
  blkLength : s.deint.blk.length = 8
  blkTags : s.deint.cnt ≠ 0 → TagLegal s s.deint.hdr s.deint.cr ∧ s.deint.cnt.toNat < 4 + s.deint.cr.toNat
  depths : s.e1.length ≤ s.par.sampDepth ∧ s.e3.length ≤ s.par.qDepth ∧ s.e4.length ≤ s.par.qDepth ∧
    s.e5.length ≤ s.par.qDepth ∧ s.e6.length ≤ s.par.qDepth ∧ s.e7.length ≤ s.par.qDepth ∧ s.e8.length ≤ s.par.qDepth ∧
    s.e9.length ≤ s.par.recDepth

/-- The Dewhitener: an open frame has bytes to come, and the generator holds the whitening byte of the next payload byte
(47_dewhitener.md R281, R284). -/
structure DewhInv (s : State) : Prop where
  toCome : s.dewh.isOpen = true → s.dewh.byteIdx.toNat < frameBytes s.dewh.len s.dewh.crc
  generator : s.dewh.byteIdx.toNat ≤ s.dewh.len.toNat → s.dewh.lfsr = whitening s.dewh.byteIdx.toNat

/-- The CRC Verifier: `PAY` keeps its canonical form, an open frame has bytes to come, and the accumulator is the CRC of the
payload bytes taken so far (48_crc.md R291 to R294). -/
structure CrcvInv (s : State) : Prop where
  payForm : s.crcv.pay.wf = true
  toCome : s.crcv.isOpen = true → s.crcv.payCnt.toNat < frameBytes s.crcv.len s.crcv.crc
  running : s.crcv.isOpen = true →
    s.crcv.acc = crc16 (s.crcv.pay.firstBytes (min s.crcv.payCnt.toNat s.crcv.len.toNat))

/-- All of it. -/
structure Inv (s : State) : Prop where
  config : ConfigInv s
  idle : IdleInv s
  sync : SyncInv s
  flight : FlightInv s
  dewh : DewhInv s
  crcv : CrcvInv s

end Sys2Proof.Safety
end

