-- ==== Sys2Proof/Value.lean ====
section
/-! DEFINITION. What the exact numbers of the model stand for, and the demodulator's rules over the complex numbers
(41_demod.md R162 to R168). Statements compare the model with these; no operation uses them. -/

namespace Sys2Proof

/-- `exp(j pi / 2^k)`, the `z k` of `Num`. -/
noncomputable def unitRoot (k : Nat) : ℂ := Complex.exp (Complex.I * Real.pi / 2 ^ k)

/-- `exp(j 2 pi x)`. -/
noncomputable def Value.turn (x : ℝ) : ℂ := Complex.exp (Complex.I * (2 * Real.pi * x : ℝ))

/-- The complex number an exact number stands for. -/
noncomputable def Num.val : Num → ℂ
  | .rat q => q
  | .odd t => (t.map fun p => (p.2 : ℂ) * Value.turn p.1).sum
  | .ext k a b => a.val + b.val * unitRoot k

end Sys2Proof

namespace Sys2Proof.Value

open Sys2Proof.Machine

/-- `U[n] = exp(j 2 pi (n^2 / (2 N) - n / 2))` (R162). -/
noncomputable def upChirp (N n : Nat) : ℂ := turn ((n : ℝ) ^ 2 / (2 * N) - n / 2)

/-- `r[n]` (R164). -/
noncomputable def reference (N : Nat) (ref : Ref) (n : Nat) : ℂ :=
  match ref with
  | .normal => (starRingEnd ℂ) (upChirp N n)
  | .up => upChirp N n

/-- `y[n] = x[n] r[n] rot[n]`, `x[n] = W[n OS]` (R163, R165). A window shorter than the rule's reads 0 past its end. -/
noncomputable def dechirped (N os : Nat) (w : List ℂ) (ref : Ref) (c2 : Int) (n : Nat) : ℂ :=
  w.getD (n * os) 0 * reference N ref n * turn (-((c2 : ℝ) / 2 * n / N))

/-- `M[k] = |Y[k]|^2`, `Y[k] = sum over n of y[n] exp(-j 2 pi k n / N)` (R166). -/
noncomputable def magnitude (N os : Nat) (w : List ℂ) (ref : Ref) (c2 : Int) (k : Nat) : ℝ :=
  Complex.normSq (∑ n ∈ Finset.range N, dechirped N os w ref c2 n * turn (-((k : ℝ) * n / N)))

/-- `k` is the bin of R167: the smallest `k` with `M[k] >= M[k']` for all `k'`. -/
def IsBin (N : Nat) (m : Nat → ℝ) (k : Nat) : Prop := k < N ∧ (∀ k' < N, m k' ≤ m k) ∧ ∀ k' < k, m k' < m k

/-- The up-chirp of value `s` at `OS` samples per chip, `C_s[m]` (R173), `t = m / OS`. -/
noncomputable def chirp (N os s m : Nat) : ℂ :=
  let t : ℝ := m / os
  if t < (N : ℝ) - s then turn (t ^ 2 / (2 * N) + ((s : ℝ) / N - 1 / 2) * t)
  else turn (t ^ 2 / (2 * N) + ((s : ℝ) / N - 3 / 2) * t)

end Sys2Proof.Value
end

