-- ==== Sys2Proof/Certificates/Slice0/Obligations.lean ====
section
/-! DEFINITION. The statements about the model. A statement whose conclusion is `exec i s = .next t` says both that the operation
completes and, `t` being `s` with the listed fields changed, that nothing else changes: no other register, flag, edge or byte
of `PAY`. Operands of host operations stand at the ports `env.idx`, `env.v`, `env.i`, `env.q`, results at `env.rdData`,
`env.recOut` (the model's choice, log entry 7). -/

open Sys2Proof Sys2Proof.Machine Sys2Proof.Safety

/-! ### Descriptors -/

/-- Decoding the word of a well-formed operation gives the operation back (30_encoding.md R121). -/
def Obligations.DecodeOfEncode : Prop :=
  ∀ i : Instr, i.wellFormed = true →
    decode (encode i) = .ok i ∧ (i.mask.getLsbD 3 = false → decode (encode i ||| 8) = .ok i)

/-- A word names an operation exactly when it matches the operation's row under the row's mask, as the table of 30_encoding.md R121
and the fields of R120 say; every other word is rejected. That the words 0x5s08 name `HAMM.S` with any `SUB`, 0 and 5 to 15 too
(45_hamming.md R248), is the model's choice, log entry 14. -/
def Obligations.DecodeIsTheTable : Prop :=
  ∀ (w : Opsel) (i : Instr), decode w = .ok i ↔ w &&& i.mask = encode i

/-- Words written out from the table of 30_encoding.md R121, and words that name no operation (R123). -/
def Obligations.DecodeOfWrittenWords : Prop :=
  decode 0b0000010100001000 = .ok .sampPush ∧ decode 0b0001000000001000 = .ok .demodS ∧
  decode 0b0010100000000000 = .ok .syncFb ∧ decode 0b0101010000000000 = .ok .hammCr4 ∧
  decode 0b0101001100001000 = .ok (.hammS 3) ∧ decode 0b1000000100000000 = .ok .crcvByte ∧
  decode 0b1001000000000000 = .error .reservedStage ∧ decode 0b0010000000010000 = .error .nonzeroZeroField ∧
  decode 0b0010010100000000 = .error .noSuchSub

/-! ### The step -/

/-- One step performs the operation whose descriptor is formed for the agent whose turn it is: for a stage from the state the turn
leaves, for the host with its line at the ports (30_encoding.md R120). The descriptor formed for a stage names the stage's enabled
operation (R121, `SUB` from the stage's own state and the head of its input); the one formed for a host line names the line's
operation (R124), a `CTRL` write being named by the command it performs (the model's choice, log entry 8), and the test-bench
line `SYM` and the power-on reset name none. While the power-on reset input is asserted none is formed (70_reset_and_hazards.md
R340; log entry 11). -/
def Obligations.StepPerformsTheDecodedOperation : Prop :=
  (∀ (s t : State) (a : Agent) (w : Opsel) (i : Instr), s.pick = some (a, t) → a ≠ .host →
    t.stageSelector a = some w → decode w = .ok i → step s = exec i t) ∧
  (∀ (s t : State) (line : Stim) (rest : List Stim) (w : Opsel) (i : Instr), s.pick = some (.host, t) →
    t.env.stim = line :: rest → (t.present line rest).hostSelector line = some w → decode w = .ok i →
    step s = exec i (t.present line rest)) ∧
  (∀ (i : Instr) (s : State), s.env.por = false → agentOf i ≠ .host → enabled i s = true →
    ∃ w, s.stageSelector (agentOf i) = some w ∧ decode w = .ok i) ∧
  (∀ s : State, s.env.por = true → (∀ a, s.stageSelector a = none) ∧ ∀ line, s.hostSelector line = none) ∧
  ∀ s : State, s.env.por = false →
    let names : Stim → Instr → Prop := fun line i => ∃ w, s.hostSelector line = some w ∧ decode w = .ok i
    (∀ idx v, idx ≠ 0 → names (.regW idx v) .regWr) ∧
    (∀ v, v.getLsbD 2 = true → names (.regW 0 v) .sreset) ∧
    (∀ v, v.getLsbD 2 = false → v.getLsbD 1 = true → names (.regW 0 v) .stop) ∧
    (∀ v, v.getLsbD 2 = false → v.getLsbD 1 = false → v.getLsbD 0 = true → names (.regW 0 v) .start) ∧
    (∀ v, v.getLsbD 2 = false → v.getLsbD 1 = false → v.getLsbD 0 = false → names (.regW 0 v) .regWr) ∧
    (∀ idx, names (.regR idx) .regRd) ∧ (∀ i q, names (.samp i q) .sampPush) ∧ names .pop .recPop ∧
    (∀ k, s.hostSelector (.sym k) = none) ∧ ∀ b, s.hostSelector (.powerOn b) = none

/-- The schedules. With no choice given a step follows the reference schedule (20_memory.md R78): the most downstream enabled stage
steps; the host's next line is taken only when no stage is enabled; with no line either, the CORE stays in its state
(70_reset_and_hazards.md R357). A choice given is taken, as one atomic turn of that agent (20_memory.md R79). Every infinite run
of the reference schedule through states of the invariant is under a schedule that R79 allows, weakly fair for all nine agents
(00_scope.md R4); and of every run that R79 allows, each finite part is a run of the model whose choices are its agents. -/
def Obligations.ReferenceSchedule : Prop :=
  (∀ s : State, s.env.sched = [] →
    (∀ a, downstreamFirst.find? s.stageEnabled = some a → step s = agentRun a s) ∧
    (downstreamFirst.find? s.stageEnabled = none → s.env.stim ≠ [] → step s = hostRun s) ∧
    (downstreamFirst.find? s.stageEnabled = none → s.env.stim = [] → step s = .next s)) ∧
  (∀ (s : State) (a : Agent) (rest : List Agent), s.env.sched = a :: rest →
    step s = agentRun a { s with env := { s.env with sched := rest } }) ∧
  (∀ run : Nat → State, (run 0).env.sched = [] → (∀ k, Inv (run k)) → (∀ k, step (run k) = .next (run (k + 1))) →
    ∃ who, Schedule who run) ∧
  (∀ (who : Nat → Agent) (run : Nat → State), Schedule who run →
    ∀ n, Host.Core.run Sys2Proof.core n { run 0 with env := { (run 0).env with sched := (List.range n).map who } } =
      .next { run n with env := { (run n).env with sched := [] } })

/-- An operation that is not enabled does nothing at all (20_memory.md R76). -/
def Obligations.NotEnabledDoesNothing : Prop :=
  ∀ (i : Instr) (s : State), enabled i s = false → exec i s = .next s

/-- Every operation is defined in every state: none faults, none is refused (70_reset_and_hazards.md R352). -/
def Obligations.EveryOperationAnswers : Prop :=
  ∀ (i : Instr) (s : State), ∃ t, exec i s = .next t

/-- In a state with the invariant no step stops: the reserved descriptors of 30_encoding.md R123 are never formed. The one line
that may stop a step is the bench line `SYM` in soft mode (R125). -/
def Obligations.NoStepStops : Prop :=
  ∀ s : State, Inv s → (s.soft = true → ∀ k, s.env.stim.head? ≠ some (.sym k)) → Steps s

/-! ### Host operations -/

/-- A write of a configuration register while `RUN` = 0 stores the register's defined bits and changes nothing else
(40_host_ops.md R140). -/
def Obligations.RegWrStoresConfiguration : Prop :=
  ∀ s : State, s.regs.run = false →
    (s.env.idx = 0x02 → exec .regWr s = .next { s with regs := { s.regs with sf := s.env.v &&& 0x0000000F } }) ∧
    (s.env.idx = 0x03 → exec .regWr s = .next { s with regs := { s.regs with bw := s.env.v } }) ∧
    (s.env.idx = 0x04 → exec .regWr s = .next { s with regs := { s.regs with fs := s.env.v } }) ∧
    (s.env.idx = 0x05 → exec .regWr s = .next { s with regs := { s.regs with mode := s.env.v &&& 0x00000077 } }) ∧
    (s.env.idx = 0x06 → exec .regWr s = .next { s with regs := { s.regs with paylen := s.env.v &&& 0x000000FF } }) ∧
    (s.env.idx = 0x07 → exec .regWr s = .next { s with regs := { s.regs with sync := s.env.v &&& 0x3FFF0FFF } }) ∧
    (s.env.idx = 0x08 → exec .regWr s = .next { s with regs := { s.regs with det := s.env.v &&& 0x0007FFFF } })

/-- A refused write changes nothing except `EVT.BUS_ERR` (40_host_ops.md R142). -/
def Obligations.RefusedWriteSetsBusErr : Prop :=
  ∀ s : State,
    (s.env.idx = 0x01 ∨ s.env.idx = 0x0B ∨ s.env.idx = 0x0C ∨ s.env.idx = 0x0D ∨ s.env.idx = 0x0E ∨
      (s.regs.run = true ∧ 0x02 ≤ s.env.idx.toNat ∧ s.env.idx.toNat ≤ 0x08)) →
    exec .regWr s = .next { s with regs := { s.regs with evt := s.regs.evt ||| 0x100 } }

/-- An undefined index: a write changes nothing, a read returns 0, both set `EVT.BUS_ERR` (40_host_ops.md R143). -/
def Obligations.UndefinedIndexSetsBusErr : Prop :=
  ∀ s : State, 0x0F ≤ s.env.idx.toNat →
    exec .regWr s = .next { s with regs := { s.regs with evt := s.regs.evt ||| 0x100 } } ∧
    exec .regRd s = .next { s with regs := { s.regs with evt := s.regs.evt ||| 0x100 }, env := { s.env with rdData := 0 } }

/-- Writes that are performed in any mode (40_host_ops.md R140): `IRQ_EN` is stored, `EVT` is cleared where `v` has a 1, `CTRL`
performs one command by the priority SRESET, STOP, START (10_state.md R22), or none. -/
def Obligations.RegWrInAnyMode : Prop :=
  ∀ s : State,
    (s.env.idx = 0x09 → exec .regWr s = .next { s with regs := { s.regs with irqEn := s.env.v.extractLsb' 0 9 } }) ∧
    (s.env.idx = 0x0A →
      exec .regWr s = .next { s with regs := { s.regs with evt := s.regs.evt &&& ~~~(s.env.v.extractLsb' 0 9) } }) ∧
    (s.env.idx = 0x00 →
      exec .regWr s =
        if s.env.v.getLsbD 2 then exec .sreset s
        else if s.env.v.getLsbD 1 then exec .stop s
        else if s.env.v.getLsbD 0 then exec .start s
        else .next s)

/-- A read of a defined index returns the register, reserved bits 0, and changes nothing (40_host_ops.md R141; 10_state.md R23,
R29). -/
def Obligations.RegRdReturnsTheRegister : Prop :=
  ∀ s : State, s.env.idx.toNat ≤ 0x0E →
    ∃ w : Word32, exec .regRd s = .next { s with env := { s.env with rdData := w } } ∧
      (s.env.idx = 0x00 → w = 0) ∧
      (s.env.idx = 0x01 →
        w.getLsbD 0 = s.regs.run ∧ w.getLsbD 1 = s.regs.cfgErr ∧ w.extractLsb' 2 3 = s.sync.state.code ∧
        w.getLsbD 5 = s.sync.hdrWait ∧ w.getLsbD 6 = !s.e9.isEmpty ∧ w.extractLsb' 8 4 = s.regs.cfgCode ∧
        w &&& 0xFFFFF080 = 0) ∧
      (s.env.idx = 0x02 → w = s.regs.sf &&& 0x0000000F) ∧
      (s.env.idx = 0x03 → w = s.regs.bw) ∧
      (s.env.idx = 0x04 → w = s.regs.fs) ∧
      (s.env.idx = 0x05 → w = s.regs.mode &&& 0x00000077) ∧
      (s.env.idx = 0x06 → w = s.regs.paylen &&& 0x000000FF) ∧
      (s.env.idx = 0x07 → w = s.regs.sync &&& 0x3FFF0FFF) ∧
      (s.env.idx = 0x08 → w = s.regs.det &&& 0x0007FFFF) ∧
      (s.env.idx = 0x09 → w = s.regs.irqEn.setWidth 32) ∧
      (s.env.idx = 0x0A → w = s.regs.evt.setWidth 32) ∧
      (s.env.idx = 0x0B → w = s.regs.dropCnt) ∧
      (s.env.idx = 0x0C → w = s.regs.frameCnt) ∧
      (s.env.idx = 0x0D →
        w.extractLsb' 0 12 = s.sync.cfo2 ∧ w.extractLsb' 16 12 = s.sync.kLock ∧ w &&& 0xF000F000 = 0) ∧
      (s.env.idx = 0x0E →
        w.extractLsb' 0 20 = s.sync.driftSum ∧ w.extractLsb' 24 8 = s.sync.runLen ∧ w &&& 0x00F00000 = 0)

/-- `START` (40_host_ops.md R144, R145): no effect while `RUN` = 1; refused with the code of the configuration check, nothing else
changing; performed where the check answers 0. -/
def Obligations.StartBeginsASession : Prop :=
  ∀ s : State,
    (s.regs.run = true → exec .start s = .next s) ∧
    (s.regs.run = false → s.configCheck ≠ 0 →
      exec .start s =
        .next { s with regs := { s.regs with cfgErr := true, cfgCode := s.configCheck, evt := s.regs.evt ||| 0x080 } }) ∧
    (s.regs.run = false → s.configCheck = 0 →
      exec .start s =
        .next { s with
          regs := { s.regs with cfgErr := false, cfgCode := 0, dropCnt := 0, frameCnt := 0, run := true }
          sync := ⟨.searching, 0, 0, false, 0, false, 0, 0, 0, 0, 0, 0, 0, ⟨false, 0, 0, false, false⟩⟩
          deint := { s.deint with cnt := 0 }
          hdrState := .idle
          dewh := { s.dewh with nibV := false, isOpen := false, lfsr := 0xFF, byteIdx := 0 }
          crcv := { s.crcv with isOpen := false, acc := 0, payCnt := 0 }
          dbox := some ⟨.normal, 0, 0⟩
          mbox := none
          e1 := [], e2 := [], e3 := [], e4 := [], e5 := [], e6 := [], e7 := [], e8 := [] })

/-- The configuration check answers the lowest code whose condition holds, or 0 (40_host_ops.md R146). -/
def Obligations.ConfigCheckAnswersTheLowestCode : Prop :=
  ∀ s : State,
    let N := 2 ^ s.sf
    let c1 := s.sf < 7 ∨ 12 < s.sf
    let c2 := s.regs.bw = 0 ∨ s.regs.fs = 0 ∨ s.regs.fs.toNat % s.regs.bw.toNat ≠ 0 ∨
      s.par.sampDepth < 2 * N * (s.regs.fs.toNat / s.regs.bw.toNat)
    let c3 := s.impl = true ∧ (s.modeCr.toNat < 1 ∨ 4 < s.modeCr.toNat)
    let c4 := (s.syncN ≠ 1 ∧ s.syncN ≠ 2) ∨ N ≤ s.syncBin0.toNat ∨ (s.syncN = 2 ∧ N ≤ s.syncBin1.toNat)
    let c5 := s.minRun.toNat < 2 ∨ N / 4 ≤ s.binTol
    let c6 := s.impl = true ∧ s.paylen = 0
    (c1 → s.configCheck = 1) ∧ (¬c1 → c2 → s.configCheck = 2) ∧ (¬c1 → ¬c2 → c3 → s.configCheck = 3) ∧
    (¬c1 → ¬c2 → ¬c3 → c4 → s.configCheck = 4) ∧ (¬c1 → ¬c2 → ¬c3 → ¬c4 → c5 → s.configCheck = 5) ∧
    (¬c1 → ¬c2 → ¬c3 → ¬c4 → ¬c5 → c6 → s.configCheck = 6) ∧
    (¬c1 → ¬c2 → ¬c3 → ¬c4 → ¬c5 → ¬c6 → s.configCheck = 0)

/-- `STOP` (40_host_ops.md R147): no effect while `RUN` = 0; while `RUN` = 1 it clears the pipeline and keeps the records, the
flags, the counters and the configuration. -/
def Obligations.StopEndsTheSession : Prop :=
  ∀ s : State,
    (s.regs.run = false → exec .stop s = .next s) ∧
    (s.regs.run = true →
      exec .stop s =
        .next { s with
          regs := { s.regs with run := false }
          sync := ⟨.searching, 0, 0, false, 0, false, 0, 0, 0, 0, 0, 0, 0, ⟨false, 0, 0, false, false⟩⟩
          deint := { s.deint with cnt := 0 }
          hdrState := .idle
          dewh := { s.dewh with nibV := false, isOpen := false, lfsr := 0xFF, byteIdx := 0 }
          crcv := { s.crcv with isOpen := false, acc := 0, payCnt := 0 }
          dbox := none
          mbox := none
          e1 := [], e2 := [], e3 := [], e4 := [], e5 := [], e6 := [], e7 := [], e8 := [] })

/-- After power-on reset and after `SRESET` every state that has a reset value has it (10_state.md R60; 40_host_ops.md R148;
70_reset_and_hazards.md R340). While the power-on reset input is asserted no operation is accepted (R340): no stage is enabled, a
turn of a stage does nothing, and a host line changes nothing but the stimulus and the operands at the ports, giving no result,
until one releases the input. That `SRESET` and the input keep the implementation parameters and what stands at the ports, which
are no state of 10_state.md, is the model's choice, log entry 12; that the input is a line of the stimulus, and that a line
offered while it is asserted is used up, log entry 11. -/
def Obligations.ResetValues : Prop :=
  AtReset State.reset ∧
  (∀ s : State, ∃ t, exec .sreset s = .next t ∧ AtReset t ∧ t.par = s.par ∧ t.env = s.env) ∧
  (∀ (s : State) (rest : List Stim), s.env.stim = .powerOn true :: rest →
    ∃ t, hostRun s = .next t ∧ AtReset t ∧ t.par = s.par ∧ t.env = { s.env with stim := rest, por := true }) ∧
  (∀ s : State, s.env.por = true →
    (∀ a, s.stageEnabled a = false) ∧ (∀ a, a ≠ .host → agentRun a s = .next s) ∧
    ∀ line rest, s.env.stim = line :: rest → line ≠ .powerOn true →
      ∃ e, hostRun s = .next { s with env := e } ∧ e.stim = rest ∧ e.sched = s.env.sched ∧
        e.rdData = s.env.rdData ∧ e.recOut = s.env.recOut ∧ (e.por = false ↔ line = .powerOn false))

/-- `SAMP_PUSH` (40_host_ops.md R149): discarded silently while `RUN` = 0, lost with `EVT.OVF` when the FIFO is full, appended
otherwise. -/
def Obligations.SampPushAppendsOneSample : Prop :=
  ∀ s : State,
    (s.regs.run = false → exec .sampPush s = .next s) ∧
    (s.regs.run = true → s.e1.length = s.par.sampDepth →
      exec .sampPush s = .next { s with regs := { s.regs with evt := s.regs.evt ||| 0x040 } }) ∧
    (s.regs.run = true → s.e1.length ≠ s.par.sampDepth →
      exec .sampPush s = .next { s with e1 := s.e1 ++ [⟨s.env.i, s.env.q⟩] })

/-- `REC_POP` (40_host_ops.md R150): the oldest record, or none; no flag changes. -/
def Obligations.RecPopTakesTheOldestRecord : Prop :=
  ∀ s : State,
    (s.e9 = [] → exec .recPop s = .next { s with env := { s.env with recOut := none } }) ∧
    (∀ r rest, s.e9 = r :: rest → exec .recPop s = .next { s with env := { s.env with recOut := some r }, e9 := rest })

/-- The interrupt line (60_exceptions.md R311): 1 exactly when some flag is set and enabled; clearing every flag lowers it. -/
def Obligations.IrqFollowsEnabledFlags : Prop :=
  ∀ s : State,
    (s.irq = true ↔ ∃ n < 9, s.regs.evt.getLsbD n = true ∧ s.regs.irqEn.getLsbD n = true) ∧
    (s.env.idx = 0x0A → s.env.v = 0xFFFFFFFF → ∃ t, exec .regWr s = .next t ∧ t.irq = false)

/-! ### Chirp Demodulator -/

/-- `DEMOD.H` and `DEMOD.S` (41_demod.md R161, R171, R172): take the message, remove the skipped samples and one window, push
one symbol event; the `.S` form adds the likelihood vector. -/
def Obligations.DemodTakesOneWindow : Prop :=
  ∀ (s : State) (d : Dctl), s.regs.run = true → s.dbox = some d → s.e2 = [] → d.skip + s.wlen ≤ s.e1.length →
    let w := ((s.e1.drop d.skip).take s.wlen).map Sample.value
    let bin := demodBin s.par.num s.sf s.os w d.ref d.c2.toInt
    (s.soft = false →
      exec .demodH s =
        .next { s with dbox := none, e1 := s.e1.drop (d.skip + s.wlen), e2 := [⟨BitVec.ofNat 12 bin, []⟩] }) ∧
    (s.soft = true →
      exec .demodS s =
        .next { s with
          dbox := none
          e1 := s.e1.drop (d.skip + s.wlen)
          e2 := [⟨BitVec.ofNat 12 bin, demodLl s.par.num s.sf s.os w d.ref d.c2.toInt⟩] })

/-- In exact arithmetic the hard decision is the bin of 41_demod.md R162 to R167 over the complex numbers, and the likelihood
vector has `N` entries, `M[k] / T` each, all 0 where `T = 0` (R168). The samples at whole chips, all that R163 reads of a window,
are canonical numbers of two-power order (log entry 3). -/
def Obligations.DemodComputesTheSpectrum : Prop :=
  ∀ (sf os : Nat) (w : List Sys2Proof.Num) (ref : Ref) (c2 : Int),
    (∀ n < 2 ^ sf, (w.getD (n * os) (.rat 0)).wf = true) →
    let M := Value.magnitude (2 ^ sf) os (w.map Sys2Proof.Num.val) ref c2
    let T := ∑ k ∈ Finset.range (2 ^ sf), M k
    Value.IsBin (2 ^ sf) M (demodBin .exact sf os w ref c2) ∧
    (demodLl .exact sf os w ref c2).length = 2 ^ sf ∧
    ∀ k < 2 ^ sf,
      ((demodLl .exact sf os w ref c2).getD k (.rat 0)).val = ((if 0 < T then M k / T else 0 : ℝ) : ℂ)

/-- Scaling every sample of a window by one nonzero constant changes neither `bin` nor `ll` (41_demod.md R169, item 1). The
constant and the samples at whole chips are canonical numbers of two-power order (log entry 3). -/
def Obligations.DemodIsScaleInvariant : Prop :=
  ∀ (sf os : Nat) (w : List Sys2Proof.Num) (a : Sys2Proof.Num) (ref : Ref) (c2 : Int),
    (∀ n < 2 ^ sf, (w.getD (n * os) (.rat 0)).wf = true) → a.wf = true → a ≠ .rat 0 →
    demodBin .exact sf os (w.map (Sys2Proof.Num.mul a)) ref c2 = demodBin .exact sf os w ref c2 ∧
    demodLl .exact sf os (w.map (Sys2Proof.Num.mul a)) ref c2 = demodLl .exact sf os w ref c2

/-- An aligned symbol is read as its value, with all the likelihood on it; an aligned down-chirp under `REF_UP` as 0
(41_demod.md R170). Asked of the window at whole chips, all that R163 reads of it, whatever `OS` is. -/
def Obligations.DemodReadsAnAlignedSymbol : Prop :=
  ∀ (sf os v : Nat) (a : ℂ) (w : List Sys2Proof.Num), 0 < os → v < 2 ^ sf → a ≠ 0 →
    (∀ n < 2 ^ sf, (w.getD (n * os) (.rat 0)).wf = true) →
    ((∀ n < 2 ^ sf, (w.getD (n * os) (.rat 0)).val = a * Value.chirp (2 ^ sf) os v (n * os)) →
      demodBin .exact sf os w .normal 0 = v ∧
      ∀ k < 2 ^ sf, (demodLl .exact sf os w .normal 0).getD k (.rat 0) = .rat (if k = v then 1 else 0)) ∧
    ((∀ n < 2 ^ sf, (w.getD (n * os) (.rat 0)).val = a * (starRingEnd ℂ) (Value.chirp (2 ^ sf) os 0 (n * os))) →
      demodBin .exact sf os w .up 0 = 0)

/-- Whole-bin offsets (41_demod.md R174): a train of up-chirps of value `v`, or of down-chirps, with a frequency offset of `f`
bins, the window `dly` chips before a symbol boundary, and an even `c2 = 2 h`. Asked of the window at whole chips, all that R163
reads of it, whatever `OS` is. -/
def Obligations.DemodReadsWholeOffsets : Prop :=
  ∀ (sf os v : Nat) (f dly h : Int) (a : ℂ) (w : List Sys2Proof.Num), 0 < os → v < 2 ^ sf → a ≠ 0 →
    (∀ n < 2 ^ sf, (w.getD (n * os) (.rat 0)).wf = true) →
    let at' : Nat → Nat := fun m => (((m : Int) - dly * os) % (2 ^ sf * os : Nat)).toNat
    let cfo : Nat → ℂ := fun m => Value.turn ((f : ℝ) * m / (2 ^ sf * os : Nat))
    ((∀ n < 2 ^ sf,
        (w.getD (n * os) (.rat 0)).val = a * (Value.chirp (2 ^ sf) os v (at' (n * os)) * cfo (n * os))) →
      (demodBin .exact sf os w .normal (2 * h) : Int) = (v + f - dly - h) % (2 ^ sf : Nat)) ∧
    ((∀ n < 2 ^ sf,
        (w.getD (n * os) (.rat 0)).val =
          a * ((starRingEnd ℂ) (Value.chirp (2 ^ sf) os 0 (at' (n * os))) * cfo (n * os))) →
      (demodBin .exact sf os w .up (2 * h) : Int) = (f + dly - h) % (2 ^ sf : Nat))

/-! ### Frame Synchronizer -/

/-- `reset_search()` (42_sync.md R183): what it clears, and that it keeps `k_lock` and `cfo2`. -/
def Obligations.ResetSearchClears : Prop :=
  ∀ r : SyncRegs,
    let q := r.resetSearch
    q.state = .searching ∧ q.runLen = 0 ∧ q.prevV = false ∧ q.driftSum = 0 ∧ q.syncIdx = 0 ∧ q.sfdIdx = 0 ∧
    q.symIdx = 0 ∧ q.symRem = 0 ∧ q.hdrWait = false ∧ q.fp.valid = false ∧ q.kLock = r.kLock ∧ q.cfo2 = r.cfo2

/-- `SYNC.SEARCH` (42_sync.md R184 to R187): the run is extended by a symbol near the one before it, restarted by any other, and a
run of `MIN_RUN` locks on its last bin, with the skip `((N - k) mod N) * OS`. -/
def Obligations.SyncSearchExtendsOrLocks : Prop :=
  ∀ (s : State) (e : SymEvt) (rest : List SymEvt), SymWaiting s .searching e rest →
    let near := s.sync.prevV = true ∧ cdist s.bins e.bin.toNat s.sync.prev.toNat ≤ s.binTol
    let run' : BitVec 8 := if near then s.sync.runLen + 1 else 1
    let drift' : BitVec 20 :=
      if near then s.sync.driftSum + BitVec.ofInt 20 (csigned s.bins ((e.bin.toNat : Int) - s.sync.prev.toNat)) else 0
    (s.minRun.toNat ≤ run'.toNat →
      exec .syncSearch s =
        .next { s with
          e2 := rest
          sync := { s.sync with state := .preambleLocked, runLen := run', driftSum := drift', prev := e.bin, prevV := true,
                                kLock := e.bin }
          dbox := some ⟨.normal, 0, (((s.bins : Int) - e.bin.toNat) % s.bins).toNat * s.os⟩ }) ∧
    (run'.toNat < s.minRun.toNat →
      exec .syncSearch s =
        .next { s with
          e2 := rest
          sync := { s.sync with runLen := run', driftSum := drift', prev := e.bin, prevV := true }
          dbox := some ⟨.normal, 0, 0⟩ })

/-- `SYNC.LOCKED` and `SYNC.SWCHK` (42_sync.md R188 to R191): more preamble is skipped; a sync symbol near the expected bin goes on,
the last one to `SFD_ALIGN`; any other symbol is a miss, which nothing records (60_exceptions.md R301). -/
def Obligations.SyncWordIsCheckedBinByBin : Prop :=
  ∀ (s : State) (e : SymEvt) (rest : List SymEvt) (i : Instr),
    ((i = .syncLocked ∧ SymWaiting s .preambleLocked e rest) ∨ (i = .syncSwchk ∧ SymWaiting s .syncWordCheck e rest)) →
    let expected := if s.sync.syncIdx = 0 then s.syncBin0 else s.syncBin1
    let preamble := i = .syncLocked ∧ cdist s.bins e.bin.toNat 0 ≤ s.binTol
    let near := cdist s.bins e.bin.toNat expected.toNat ≤ s.binTol
    (preamble → exec i s = .next { s with e2 := rest, dbox := some ⟨.normal, 0, 0⟩ }) ∧
    (¬preamble → near → s.sync.syncIdx + 1 = s.syncN →
      exec i s =
        .next { s with
          e2 := rest
          sync := { s.sync with syncIdx := s.sync.syncIdx + 1, state := .sfdAlign, sfdIdx := 0 }
          dbox := some ⟨.up, 0, 0⟩ }) ∧
    (¬preamble → near → s.sync.syncIdx + 1 ≠ s.syncN →
      exec i s =
        .next { s with
          e2 := rest
          sync := { s.sync with syncIdx := s.sync.syncIdx + 1, state := .syncWordCheck }
          dbox := some ⟨.normal, 0, 0⟩ }) ∧
    (¬preamble → ¬near →
      exec i s = .next { s with e2 := rest, sync := s.sync.resetSearch, dbox := some ⟨.normal, 0, 0⟩ })

/-- `SYNC.SFD` (42_sync.md R192 to R196): the first window is kept; a second window that agrees gives the fine estimate and enters
the frame, with the configured parameters in implicit mode and the header-detection defaults in explicit mode; one that
disagrees is a miss. -/
def Obligations.SfdWindowsEnterTheFrame : Prop :=
  ∀ (s : State) (e : SymEvt) (rest : List SymEvt), SymWaiting s .sfdAlign e rest →
    let near := cdist s.bins e.bin.toNat s.sync.kdn.toNat ≤ s.binTol
    let ks := csigned s.bins e.bin.toNat
    let skip := (((s.os * s.bins / 4 : Nat) : Int) + (s.os * ks) / 2).toNat
    (s.sync.sfdIdx = 0 →
      exec .syncSfd s =
        .next { s with e2 := rest, sync := { s.sync with kdn := e.bin, sfdIdx := 1 }, dbox := some ⟨.up, 0, 0⟩ }) ∧
    (s.sync.sfdIdx = 1 → near → s.impl = true →
      exec .syncSfd s =
        .next { s with
          e2 := rest
          sync := { s.sync with
            cfo2 := BitVec.ofInt 12 ks, state := .inFrame, symIdx := 0, hdrWait := false
            fp := ⟨true, s.modeCr, s.paylen, true, s.crcEn⟩
            symRem := BitVec.ofNat 10 (implicitSymbols s.sf s.paylen.toNat s.modeCr.toNat s.crcEn) }
          dbox := some ⟨.normal, BitVec.ofInt 12 ks, skip⟩ }) ∧
    (s.sync.sfdIdx = 1 → near → s.impl = false →
      exec .syncSfd s =
        .next { s with
          e2 := rest
          sync := { s.sync with
            cfo2 := BitVec.ofInt 12 ks, state := .inFrame, symIdx := 0, hdrWait := false
            fp := ⟨true, 4, 0, false, false⟩
            symRem := 0 }
          dbox := some ⟨.normal, BitVec.ofInt 12 ks, skip⟩ }) ∧
    (s.sync.sfdIdx = 1 → ¬near →
      exec .syncSfd s = .next { s with e2 := rest, sync := s.sync.resetSearch, dbox := some ⟨.normal, 0, 0⟩ })

/-- `SYNC.FRAME` (42_sync.md R197, R198, R205): a header-block symbol, the 8th of which raises the hold; a later symbol with more
to come; the last symbol of the frame, which completes it. -/
def Obligations.SyncFrameForwardsOneSymbol : Prop :=
  ∀ (s : State) (e : SymEvt) (rest : List SymEvt), SymWaiting s .inFrame e rest → s.e3.length + 1 ≤ s.par.qDepth →
    let hdr := s.impl = false ∧ s.sync.symIdx.toNat < 8
    let sof := decide (s.sync.symIdx = 0)
    let idx := if s.sync.symIdx.toNat < 8 then s.sync.symIdx + 1 else s.sync.symIdx
    (hdr →
      exec .syncFrame s =
        .next { s with
          e2 := rest
          e3 := s.e3 ++ [⟨e.bin, e.ll, sof, true, 4⟩]
          sync := { s.sync with symIdx := idx, hdrWait := decide (idx = 8) }
          dbox := some ⟨.normal, s.sync.cfo2, 0⟩ }) ∧
    (¬hdr → s.sync.symRem ≠ 1 →
      exec .syncFrame s =
        .next { s with
          e2 := rest
          e3 := s.e3 ++ [⟨e.bin, e.ll, sof, false, s.sync.fp.cr⟩]
          sync := { s.sync with symIdx := idx, symRem := s.sync.symRem - 1 }
          dbox := some ⟨.normal, s.sync.cfo2, 0⟩ }) ∧
    (¬hdr → s.sync.symRem = 1 →
      exec .syncFrame s =
        .next { s with
          e2 := rest
          e3 := s.e3 ++ [⟨e.bin, e.ll, sof, false, s.sync.fp.cr⟩]
          sync := s.sync.resetSearch
          dbox := some ⟨.normal, 0, 0⟩ })

/-- `SYNC.FB` (42_sync.md R203, R204): `PARAMS` gives the frame its parameters and the symbols left, or completes it where none is
left; `ABORT` takes the header's cause: its flag, the count of dropped frames, and a new search (60_exceptions.md R312). -/
def Obligations.FeedbackGivesParametersOrAborts : Prop :=
  ∀ s : State, s.regs.run = true → s.sync.state = .inFrame → s.sync.hdrWait = true →
    (∀ len cr crc, s.mbox = some (.params len cr crc) →
      let n := explicitSymbols s.sf len.toNat cr.toNat crc
      (0 < n → n < 1024 →
        exec .syncFb s =
          .next { s with
            mbox := none
            sync := { s.sync with hdrWait := false, fp := ⟨true, cr, len, true, crc⟩, symRem := BitVec.ofNat 10 n } }) ∧
      (n = 0 →
        exec .syncFb s =
          .next { s with
            mbox := none
            sync := { s.sync.resetSearch with fp := ⟨false, cr, len, true, crc⟩ } })) ∧
    (∀ cause, s.mbox = some (.abort cause) →
      exec .syncFb s =
        .next { s with
          mbox := none
          regs := { s.regs with evt := s.regs.evt ||| (1 <<< cause.toNat), dropCnt := s.regs.dropCnt + 1 }
          sync := s.sync.resetSearch })

/-- The counts of symbols (42_sync.md R200 to R202): multiples of `4 + CR`, at most 592, and the rule's examples. -/
def Obligations.SymbolCountsAreBounded : Prop :=
  (∀ (sf len cr : Nat) (crc : Bool), 7 ≤ sf → sf ≤ 12 → len ≤ 255 → CrLegal cr →
    explicitSymbols sf len cr crc ≤ 592 ∧ implicitSymbols sf len cr crc ≤ 592 ∧
    (4 + cr) ∣ explicitSymbols sf len cr crc ∧ (4 + cr) ∣ implicitSymbols sf len cr crc) ∧
  explicitSymbols 7 255 4 true = 592 ∧ implicitSymbols 7 255 4 true = 592 ∧
  explicitSymbols 7 4 1 true = 10 ∧ ∀ cr, explicitSymbols 12 1 cr true = 0

/-! ### Gray Demapper -/

/-- `GRAY.H` and `GRAY.S` (43_gray.md R220, R221, R224): one symbol item in, one group item out, tags unchanged. The soft values
are those of R224 in exact arithmetic; in the mode `finite` they are free values of the operands, the model's choice, log
entry 2. -/
def Obligations.GrayMapsOneSymbol : Prop :=
  ∀ (s : State) (it : SymItem) (rest : List SymItem), s.e3 = it :: rest → s.e4.length + 1 ≤ s.par.qDepth →
    (s.soft = false →
      exec .grayH s =
        .next { s with e3 := rest, e4 := s.e4 ++ [⟨⟨it.bin ^^^ (it.bin >>> 1), []⟩, it.sof, it.hdr, it.cr⟩] }) ∧
    (s.soft = true →
      exec .grayS s =
        .next { s with
          e3 := rest
          e4 := s.e4 ++
            [⟨⟨0, (List.range s.sf).map fun b => s.soften (softBit s.sf it.ll b) (Config.softGray s.sf it.ll b)⟩, it.sof, it.hdr, it.cr⟩] })

/-- The Gray map and the transmitter's inverse undo each other on the symbol values of every spreading factor (43_gray.md
R223). -/
def Obligations.GrayInverseUndoesGray : Prop :=
  ∀ sf : Nat, 7 ≤ sf → sf ≤ 12 → ∀ x : Bin, x.toNat < 2 ^ sf →
    gray (grayInverse x) = x ∧ grayInverse (gray x) = x ∧ (gray x).toNat < 2 ^ sf ∧ (grayInverse x).toNat < 2 ^ sf

/-- Adjacent bins, the last and the first among them, differ in exactly one Gray bit (43_gray.md R222). -/
def Obligations.AdjacentBinsDifferInOneGrayBit : Prop :=
  ∀ sf : Nat, 7 ≤ sf → sf ≤ 12 → ∀ v : Nat, v < 2 ^ sf →
    ∃ b < sf, gray (BitVec.ofNat 12 v) ^^^ gray (BitVec.ofNat 12 ((v + 1) % 2 ^ sf)) = 1 <<< b

/-- A soft bit is the difference of the two best likelihoods (43_gray.md R224). -/
def Obligations.SoftBitIsTheDifferenceOfMaxima : Prop :=
  ∀ (sf b : Nat) (ll : List Sys2Proof.Num), sf ≤ 12 → b < sf → ll.length = 2 ^ sf →
    (∀ x ∈ ll, x.wf = true ∧ x.isReal = true) →
    let L : Nat → ℝ := fun v => (ll.getD v (.rat 0)).val.re
    let bit : Nat → Bool := fun v => (gray (BitVec.ofNat 12 v)).getLsbD b
    ∃ v1 v0, v1 < 2 ^ sf ∧ v0 < 2 ^ sf ∧ bit v1 = true ∧ bit v0 = false ∧
      (∀ v < 2 ^ sf, bit v = true → L v ≤ L v1) ∧ (∀ v < 2 ^ sf, bit v = false → L v ≤ L v0) ∧
      (softBit sf ll b).val = ((L v1 - L v0 : ℝ) : ℂ)

/-- Where one likelihood is larger than every other, slicing the soft group gives the hard group of the hard decision
(43_gray.md R225). -/
def Obligations.SoftGroupAgreesWithHardGroup : Prop :=
  ∀ (sf b best : Nat) (ll : List Sys2Proof.Num), sf ≤ 12 → b < sf → ll.length = 2 ^ sf →
    (∀ x ∈ ll, x.wf = true ∧ x.isReal = true) → best < 2 ^ sf →
    (∀ v < 2 ^ sf, v ≠ best → Sys2Proof.Num.lt (ll.getD v (.rat 0)) (ll.getD best (.rat 0)) = true) →
    Sys2Proof.Num.pos (softBit sf ll b) = (gray (BitVec.ofNat 12 best)).getLsbD b

/-! ### Deinterleaver -/

/-- `DEINT.H` and `DEINT.S` (44_deinterleaver.md R231, R234, R235): a group enters the block, at its start where the group is
tagged `sof` or none is held; the group that completes the block sends it on. -/
def Obligations.DeintBuffersAndEmitsBlocks : Prop :=
  ∀ (s : State) (it : GroupItem) (rest : List GroupItem), s.e4 = it :: rest →
    let r : DeintRegs :=
      if it.sof = true ∨ s.deint.cnt = 0 then
        { s.deint with cr := it.cr, hdr := it.hdr, sof := it.sof, blk := s.deint.blk.set 0 it.grp, cnt := 1 }
      else { s.deint with blk := s.deint.blk.set s.deint.cnt.toNat it.grp, cnt := s.deint.cnt + 1 }
    let c := 4 + r.cr.toNat
    (r.cnt.toNat ≠ c → s.soft = false → exec .deintH s = .next { s with e4 := rest, deint := r }) ∧
    (r.cnt.toNat ≠ c → s.soft = true → exec .deintS s = .next { s with e4 := rest, deint := r }) ∧
    (r.cnt.toNat = c → s.soft = false → s.e5.length + 1 ≤ s.par.qDepth →
      exec .deintH s =
        .next { s with
          e4 := rest
          deint := { r with cnt := 0 }
          e5 := s.e5 ++ [⟨(List.range s.sf).map (hardCodeword s.sf c r.blk), [], r.sof, r.hdr, r.cr⟩] }) ∧
    (r.cnt.toNat = c → s.soft = true → s.e5.length + 1 ≤ s.par.qDepth →
      exec .deintS s =
        .next { s with
          e4 := rest
          deint := { r with cnt := 0 }
          e5 := s.e5 ++ [⟨[], (List.range s.sf).map (softCodeword s.sf c r.blk), r.sof, r.hdr, r.cr⟩] })

/-- The permutation, hard and soft (44_deinterleaver.md R232, R233): bit `c - 1 - i` of codeword `r` is bit
`SF - 1 - ((i - r - 1) mod SF)` of group `i`. -/
def Obligations.DeinterleavingFollowsTheDiagonals : Prop :=
  ∀ (sf c r i : Nat) (blk : List Group), r < sf → c ≤ 8 → i < c →
    let g := blk.getD i ⟨0, []⟩
    let b := sf - 1 - (((i : Int) - r - 1) % sf).toNat
    (hardCodeword sf c blk r).getLsbD (c - 1 - i) = g.g.getLsbD b ∧
    (softCodeword sf c blk r).getD (c - 1 - i) (.rat 0) = g.gl.getD b (.rat 0)

/-- Deinterleaving undoes the matching transmitter's interleaving (44_deinterleaver.md R232). -/
def Obligations.DeinterleaveUndoesInterleave : Prop :=
  ∀ (sf cr : Nat) (cw : List (BitVec 8)), 7 ≤ sf → sf ≤ 12 → CrLegal cr → cw.length = sf →
    (∀ w ∈ cw, w.toNat < 2 ^ (4 + cr)) →
    (List.range sf).map
      (hardCodeword sf (4 + cr) ((List.range (4 + cr)).map fun i => ⟨interleaveGroup sf (4 + cr) cw i, []⟩)) = cw

/-! ### Hamming Decoder -/

/-- The five operations of the stage (45_hamming.md R240, R243 to R248): one block in, one block of nibbles and statuses out with
the same tags; an uncorrectable codeword of a payload block sets `EVT.PAY_FEC`, and nothing else (60_exceptions.md R305). The metrics
of `HAMM.S` are those of R248 in exact arithmetic; in the mode `finite` they are free values of the operands, the model's
choice, log entry 2. -/
def Obligations.HammingDecodesOneBlock : Prop :=
  ∀ (s : State) (b : CwBlock) (rest : List CwBlock), s.e5 = b :: rest → s.e6.length + 1 ≤ s.par.qDepth →
    let out : List (Nibble × CwStatus) → Out := fun d =>
      .next { s with
        e5 := rest
        e6 := s.e6 ++ [⟨d.map Prod.fst, d.map Prod.snd, b.sof, b.hdr, b.cr⟩]
        regs := if b.hdr = false ∧ CwStatus.uncorr ∈ d.map Prod.snd then { s.regs with evt := s.regs.evt ||| 0x010 }
                else s.regs }
    (s.soft = false → b.cr = 1 → exec .hammCr1 s = out ((List.range s.sf).map fun r => dec1 (b.cw.getD r 0))) ∧
    (s.soft = false → b.cr = 2 → exec .hammCr2 s = out ((List.range s.sf).map fun r => dec2 (b.cw.getD r 0))) ∧
    (s.soft = false → b.cr = 3 → exec .hammCr3 s = out ((List.range s.sf).map fun r => dec3 (b.cw.getD r 0))) ∧
    (s.soft = false → b.cr = 4 → exec .hammCr4 s = out ((List.range s.sf).map fun r => dec4 (b.cw.getD r 0))) ∧
    (s.soft = true → CrLegal b.cr.toNat →
      exec (.hammS (b.cr.setWidth 4)) s = out ((List.range s.sf).map fun r => s.decS b.cr.toNat (b.cwl.getD r [])))

/-- The properties of the four codes (45_hamming.md R249): codewords decode to their own nibble; at `cr` 3 and 4 every single-bit
error is corrected; at `cr` 4 every double-bit error is detected, data as received; at `cr` 1 and 2 every single-bit error is
detected. -/
def Obligations.HammingCodesKeepTheirPromises : Prop :=
  ∀ n : Nibble,
    (dec1 (codeword 1 n) = (n, .none) ∧ dec2 (codeword 2 n) = (n, .none) ∧ dec3 (codeword 3 n) = (n, .none) ∧
      dec4 (codeword 4 n) = (n, .none)) ∧
    (∀ p < 7, dec3 (codeword 3 n ^^^ (1 <<< p)) = (n, .corrected)) ∧
    (∀ p < 8, dec4 (codeword 4 n ^^^ (1 <<< p)) = (n, .corrected)) ∧
    (∀ p < 8, ∀ q < p,
      let w := codeword 4 n ^^^ (1 <<< p) ^^^ (1 <<< q)
      dec4 w = (BitVec.ofBool (w.getLsbD 4) ++ BitVec.ofBool (w.getLsbD 5) ++ BitVec.ofBool (w.getLsbD 6) ++
        BitVec.ofBool (w.getLsbD 7), .uncorr)) ∧
    (∀ p < 5, (dec1 (codeword 1 n ^^^ (1 <<< p))).2 = .uncorr) ∧
    (∀ p < 6, (dec2 (codeword 2 n ^^^ (1 <<< p))).2 = .uncorr)

/-- Soft decoding in exact arithmetic answers the lowest nibble of largest metric, and `CORRECTED` exactly where the sliced word is
not its codeword (45_hamming.md R248); it never answers `UNCORR`. -/
def Obligations.SoftDecodingIsMaximumLikelihood : Prop :=
  ∀ (s : State) (cr : Nat) (l : List Sys2Proof.Num), s.par.num = .exact → CrLegal cr → l.length = 4 + cr →
    (∀ x ∈ l, x.wf = true ∧ x.isReal = true) →
    let L : Nat → ℝ := fun p => (l.getD p (.rat 0)).val.re
    let metric : Nat → ℝ := fun n =>
      ∑ p ∈ Finset.range (4 + cr), if (codeword cr (BitVec.ofNat 4 n)).getLsbD p then L p else -L p
    let out := s.decS cr l
    Value.IsBin 16 metric out.1.toNat ∧
    (out.2 = .none ↔ ∀ p < 4 + cr, (codeword cr out.1).getLsbD p = true ↔ 0 < L p) ∧ out.2 ≠ .uncorr

/-! ### Header Decoder -/

/-- `HDR.PARSE` (46_header.md R263 to R269): the three causes in their order, each an `ABORT` with nothing sent on; an accepted
header sends `FSTART`, the leftover nibbles and `PARAMS` in the same step. -/
def Obligations.HdrParseAcceptsOrAborts : Prop :=
  ∀ (s : State) (b : NibBlock) (rest : List NibBlock), s.impl = false → s.e6 = b :: rest → b.hdr = true →
    s.mbox = none → s.e7.length + (1 + (s.sf - 5)) ≤ s.par.qDepth →
    let h : Nat → Nibble := fun r => b.nib.getD r 0
    let len : Byte := h 0 ++ h 1
    let cr : BitVec 3 := (h 2).extractLsb' 1 3
    let crc := (h 2).getLsbD 0
    let chk : BitVec 5 := (h 3).extractLsb' 0 1 ++ h 4
    let abort : BitVec 4 → Out := fun code =>
      .next { s with e6 := rest, hdrState := .drop, mbox := some (.abort code) }
    (CwStatus.uncorr ∈ b.st → exec .hdrParse s = abort 2) ∧
    (CwStatus.uncorr ∉ b.st → chk ≠ headerChk (h 0) (h 1) (h 2) → exec .hdrParse s = abort 1) ∧
    (CwStatus.uncorr ∉ b.st → chk = headerChk (h 0) (h 1) (h 2) → ¬CrLegal cr.toNat → exec .hdrParse s = abort 3) ∧
    (CwStatus.uncorr ∉ b.st → chk = headerChk (h 0) (h 1) (h 2) → CrLegal cr.toNat →
      exec .hdrParse s =
        .next { s with
          e6 := rest
          hdrState := .pass
          e7 := s.e7 ++ (.fstart len cr crc :: (List.range (s.sf - 5)).map fun r => .nib (h (5 + r)))
          mbox := some (.params len cr crc) })

/-- `HDR.PASS` (46_header.md R270, R272): a payload block's nibbles go on in the state `PASS`, and are discarded otherwise.
`HDR.IMPL` (R271): the first block of a frame is led by `FSTART`; a later one goes on in the state `PASS` only. -/
def Obligations.HdrPassesPayloadBlocks : Prop :=
  ∀ (s : State) (b : NibBlock) (rest : List NibBlock), s.e6 = b :: rest →
    let nibs : List E7Item := (List.range s.sf).map fun r => .nib (b.nib.getD r 0)
    (s.impl = false → b.hdr = false → s.e7.length + s.sf ≤ s.par.qDepth → s.hdrState = .pass →
      exec .hdrPass s = .next { s with e6 := rest, e7 := s.e7 ++ nibs }) ∧
    (s.impl = false → b.hdr = false → s.e7.length + s.sf ≤ s.par.qDepth → s.hdrState ≠ .pass →
      exec .hdrPass s = .next { s with e6 := rest }) ∧
    (s.impl = true → s.e7.length + (1 + s.sf) ≤ s.par.qDepth → b.sof = true →
      exec .hdrImpl s =
        .next { s with e6 := rest, hdrState := .pass, e7 := s.e7 ++ (.fstart s.paylen s.modeCr s.crcEn :: nibs) }) ∧
    (s.impl = true → s.e7.length + (1 + s.sf) ≤ s.par.qDepth → b.sof = false → s.hdrState = .pass →
      exec .hdrImpl s = .next { s with e6 := rest, e7 := s.e7 ++ nibs }) ∧
    (s.impl = true → s.e7.length + (1 + s.sf) ≤ s.par.qDepth → b.sof = false → s.hdrState ≠ .pass →
      exec .hdrImpl s = .next { s with e6 := rest })

/-- A flip of any one of the 12 bits the header checksum covers changes at least two of its five bits (46_header.md R262). -/
def Obligations.HeaderChecksumSeesEverySingleFlip : Prop :=
  ∀ (a b c : Nibble) (p : Nat), p < 4 →
    ∀ d ∈ [headerChk a b c ^^^ headerChk (a ^^^ (1 <<< p)) b c, headerChk a b c ^^^ headerChk a (b ^^^ (1 <<< p)) c,
        headerChk a b c ^^^ headerChk a b (c ^^^ (1 <<< p))],
      ∃ i j, i < j ∧ j < 5 ∧ d.getLsbD i = true ∧ d.getLsbD j = true

/-- A header laid out as 30_encoding.md R110 says is accepted with the values it was made of (R111, R112), whatever its ignored
bits; `HDR.PARSE` on it leaves the same parameters in the message (46_header.md R267). -/
def Obligations.HeaderFieldsComeBack : Prop :=
  ∀ (len : Byte) (cr : BitVec 3) (crc : Bool) (ignored : BitVec 3) (more : List Nibble) (st : List CwStatus)
    (sof hdr : Bool) (tag : BitVec 3), CrLegal cr.toNat → CwStatus.uncorr ∉ st →
    let h := headerNibbles len cr crc
    let b : NibBlock := ⟨h.set 3 (h.getD 3 0 ||| (ignored ++ (0 : BitVec 1))) ++ more, st, sof, hdr, tag⟩
    b.hdrAbort = none ∧ b.hdrLen = len ∧ b.hdrCr = cr ∧ b.hdrCrc = crc ∧
    ∀ (s : State) (rest : List NibBlock), s.impl = false → s.e6 = b :: rest → hdr = true → s.mbox = none →
      s.e7.length + (1 + (s.sf - 5)) ≤ s.par.qDepth →
      ∃ t, exec .hdrParse s = .next t ∧ t.mbox = some (.params len cr crc)

/-! ### Dewhitener -/

/-- `DEWH.START` and `DEWH.NIB` (47_dewhitener.md R283 to R286): the restart, with `FSTART` sent on; padding dropped; the low nibble
held; the byte completed by the high nibble, payload dewhitened, CRC unchanged. -/
def Obligations.DewhitenerAssemblesBytes : Prop :=
  ∀ (s : State) (rest : List E7Item), s.e8.length + 1 ≤ s.par.qDepth →
    (∀ len cr crc, s.e7 = .fstart len cr crc :: rest →
      exec .dewhStart s =
        .next { s with
          e7 := rest
          dewh := { s.dewh with nibV := false, byteIdx := 0, lfsr := 0xFF, len := len, crc := crc,
                                isOpen := decide (0 < len.toNat + 2 * bitNat crc) }
          e8 := s.e8 ++ [.fstart len crc] }) ∧
    (∀ n, s.e7 = .nib n :: rest →
      let payload := s.dewh.byteIdx.toNat < s.dewh.len.toNat
      let last := (s.dewh.byteIdx + 1).toNat = s.dewh.len.toNat + 2 * bitNat s.dewh.crc
      (s.dewh.isOpen = false → exec .dewhNib s = .next { s with e7 := rest }) ∧
      (s.dewh.isOpen = true → s.dewh.nibV = false →
        exec .dewhNib s = .next { s with e7 := rest, dewh := { s.dewh with nibHold := n, nibV := true } }) ∧
      (s.dewh.isOpen = true → s.dewh.nibV = true → payload →
        exec .dewhNib s =
          .next { s with
            e7 := rest
            dewh := { s.dewh with
              nibV := false, lfsr := lfsrNext s.dewh.lfsr, byteIdx := s.dewh.byteIdx + 1, isOpen := decide (¬last) }
            e8 := s.e8 ++ [.byte ((n ++ s.dewh.nibHold : BitVec 8) ^^^ s.dewh.lfsr)] }) ∧
      (s.dewh.isOpen = true → s.dewh.nibV = true → ¬payload →
        exec .dewhNib s =
          .next { s with
            e7 := rest
            dewh := { s.dewh with nibV := false, byteIdx := s.dewh.byteIdx + 1, isOpen := decide (¬last) }
            e8 := s.e8 ++ [.byte (n ++ s.dewh.nibHold : BitVec 8)] }))

/-- The whitening sequence (47_dewhitener.md R281): it starts with 0xFF, has period 255, takes every nonzero byte value once per
period and never 0. -/
def Obligations.WhiteningHasPeriod255 : Prop :=
  whitening 0 = 0xFF ∧ (∀ i, whitening (i + 255) = whitening i) ∧ (∀ i, whitening i ≠ 0) ∧
  (∀ b : Byte, b ≠ 0 → ∃ i < 255, whitening i = b ∧ ∀ j < 255, whitening j = b → j = i)

/-- A whole frame's nibbles through `DEWH.NIB` (47_dewhitener.md R284, R285): after two steps a byte, exactly the frame's bytes went
out in order, payload bytes xored with the whitening sequence and CRC bytes unchanged, and the stage is closed. -/
def Obligations.DewhitenerPassesAWholeFrame : Prop :=
  ∀ (s : State) (bytes : List Byte) (rest : List E7Item),
    s.dewh.isOpen = true → s.dewh.nibV = false → s.dewh.byteIdx = 0 → s.dewh.lfsr = 0xFF →
    bytes ≠ [] → bytes.length = s.dewh.len.toNat + 2 * bitNat s.dewh.crc →
    s.e7 = bytes.flatMap (fun b => [E7Item.nib (b.extractLsb' 0 4), E7Item.nib (b.extractLsb' 4 4)]) ++ rest →
    s.e8.length + bytes.length ≤ s.par.qDepth →
    ∃ t, repeatOp .dewhNib (2 * bytes.length) s = .next t ∧
      t.e7 = rest ∧
      t.e8 = s.e8 ++ bytes.mapIdx (fun i b => E8Item.byte (if i < s.dewh.len.toNat then b ^^^ whitening i else b)) ∧
      t.dewh.isOpen = false

/-! ### CRC Verifier -/

/-- `CRCV.START` (48_crc.md R293, R295): a new frame is opened; a frame with no bytes at all gives its empty record at once. -/
def Obligations.CrcvStartOpensAFrame : Prop :=
  ∀ (s : State) (len : Byte) (crc : Bool) (rest : List E8Item), s.e8 = .fstart len crc :: rest →
    (len.toNat + 2 * bitNat crc ≠ 0 →
      exec .crcvStart s =
        .next { s with
          e8 := rest
          crcv := { s.crcv with len := len, crc := crc, payCnt := 0, acc := 0, rx := 0, isOpen := true } }) ∧
    (len.toNat + 2 * bitNat crc = 0 → s.e9.length + 1 ≤ s.par.recDepth →
      exec .crcvStart s =
        .next { s with
          e8 := rest
          crcv := { s.crcv with len := len, crc := crc, payCnt := 0, acc := 0, rx := 0, isOpen := false }
          e9 := s.e9 ++ [⟨0, .unverified, []⟩]
          regs := { s.regs with evt := s.regs.evt ||| 0x001, frameCnt := s.regs.frameCnt + 1 } })

/-- `CRCV.BYTE` (48_crc.md R294, R295): a closed frame drops the byte; an open one stores a payload byte at `pay[pay_cnt]`, every
other byte of `PAY` unchanged, or takes a CRC byte, low byte first; the byte that completes the frame pushes the record, sets
`REC`, and `CRC_FAIL` on a mismatch. -/
def Obligations.CrcvByteStoresOrFinishes : Prop :=
  ∀ (s : State) (b : Byte) (rest : List E8Item), s.e8 = .byte b :: rest →
    (s.crcv.isOpen = false → exec .crcvByte s = .next { s with e8 := rest }) ∧
    (s.crcv.isOpen = true → s.crcv.pay.wf = true →
      s.crcv.payCnt.toNat < s.crcv.len.toNat + 2 * bitNat s.crcv.crc →
      let payload := s.crcv.payCnt.toNat < s.crcv.len.toNat
      let low := s.crcv.payCnt.toNat = s.crcv.len.toNat
      let last := s.crcv.payCnt.toNat + 1 = s.crcv.len.toNat + 2 * bitNat s.crcv.crc
      (last → s.e9.length + 1 ≤ s.par.recDepth) →
      ∃ (pay : Memory) (acc rx : BitVec 16),
        (payload → pay.read s.crcv.payCnt.toNat = b ∧ acc = crc16Update s.crcv.acc b) ∧
        (∀ a, (payload → a ≠ s.crcv.payCnt.toNat) → pay.read a = s.crcv.pay.read a) ∧
        (¬payload → acc = s.crcv.acc) ∧
        (payload → rx = s.crcv.rx) ∧
        (low → rx.extractLsb' 0 8 = b ∧ rx.extractLsb' 8 8 = s.crcv.rx.extractLsb' 8 8) ∧
        (¬payload → ¬low → rx.extractLsb' 8 8 = b ∧ rx.extractLsb' 0 8 = s.crcv.rx.extractLsb' 0 8) ∧
        let r : CrcvRegs := { s.crcv with pay := pay, acc := acc, rx := rx, payCnt := s.crcv.payCnt + 1, isOpen := decide (¬last) }
        let fail := s.crcv.crc = true ∧ acc ≠ rx
        let ok : CrcOk := if s.crcv.crc = false then .unverified else if acc = rx then .pass else .fail
        (¬last → exec .crcvByte s = .next { s with e8 := rest, crcv := r }) ∧
        (last →
          exec .crcvByte s =
            .next { s with
              e8 := rest
              crcv := r
              e9 := s.e9 ++ [⟨s.crcv.len, ok, (List.range s.crcv.len.toNat).map pay.read⟩]
              regs := { s.regs with
                evt := s.regs.evt ||| (if fail then 0x021 else 0x001)
                frameCnt := s.regs.frameCnt + 1 } }))

/-- The CRC of a payload and its check values (48_crc.md R292). -/
def Obligations.CrcCheckValues : Prop :=
  (∀ bytes : List Byte, crc16 bytes = bytes.foldl crc16Update 0x0000) ∧
  crc16 [] = 0x0000 ∧ crc16 [0xFF] = 0x1EF0 ∧ crc16 [0x41] = 0x58E5 ∧
  crc16 [0x50] = 0x5AF5 ∧ crc16 [0x50, 0x49] = 0xD752 ∧ crc16 [0x50, 0x49, 0x4E] = 0x4090 ∧
  crc16 [0x50, 0x49, 0x4E, 0x47] = 0xE0E7 ∧
  crc16 [0x31, 0x32, 0x33, 0x34, 0x35, 0x36, 0x37, 0x38, 0x39] = 0x31C3

/-- The CRC detects every single-bit error of a payload of any length (48_crc.md R297). -/
def Obligations.CrcDetectsEverySingleBitError : Prop :=
  ∀ (bytes : List Byte) (i p : Nat), i < bytes.length → p < 8 →
    crc16 (bytes.set i (bytes.getD i 0 ^^^ (1 <<< p))) ≠ crc16 bytes

/-- A whole frame's bytes through `CRCV.BYTE` (48_crc.md R294 to R297): exactly one record, with the payload bytes alone, flagged
by comparing their CRC with the two trailing bytes, low byte first. -/
def Obligations.CrcvEmitsOneRecordPerFrame : Prop :=
  ∀ (s : State) (bytes : List Byte) (rest : List E8Item),
    s.crcv.isOpen = true → s.crcv.payCnt = 0 → s.crcv.acc = 0 → s.crcv.pay.wf = true →
    bytes ≠ [] → bytes.length = s.crcv.len.toNat + 2 * bitNat s.crcv.crc →
    s.e8 = bytes.map E8Item.byte ++ rest → s.e9.length + 1 ≤ s.par.recDepth →
    let L := s.crcv.len.toNat
    let received : BitVec 16 := bytes.getD (L + 1) 0 ++ bytes.getD L 0
    let ok : CrcOk :=
      if s.crcv.crc = false then .unverified else if crc16 (bytes.take L) = received then .pass else .fail
    ∃ t, repeatOp .crcvByte bytes.length s = .next t ∧
      t.e8 = rest ∧ t.e9 = s.e9 ++ [⟨s.crcv.len, ok, bytes.take L⟩] ∧ t.crcv.isOpen = false ∧
      t.regs = { s.regs with
        evt := s.regs.evt ||| (if ok = .fail then 0x021 else 0x001), frameCnt := s.regs.frameCnt + 1 }

/-! ### The whole machine -/

/-- The invariant holds after reset. -/
def Obligations.ResetHasTheInvariant : Prop := Inv State.reset

/-- Every step keeps the invariant: the configuration checked by START (R142), the empty mode `IDLE` (R317), the synchronizer's
invariants (R207), legal tags and bounded edges (R123, R76), the whitening generator in step with the byte index (R281), the
canonical form of `PAY` and the running CRC (R294). -/
def Obligations.StepKeepsTheInvariant : Prop :=
  ∀ s t : State, Inv s → step s = .next t → Inv t

/-- No operation but `CRCV.BYTE` changes a byte of `PAY`, and it changes only the byte at `pay_cnt` (10_state.md R50, R59); reset
aside, where `PAY` is unspecified (R60). -/
def Obligations.OnlyCrcvByteWritesPay : Prop :=
  ∀ (i : Instr) (s t : State), exec i s = .next t → ¬IsSreset i s →
    ∀ a : Nat,
      (i = .crcvByte → s.crcv.isOpen = true → s.crcv.payCnt.toNat < s.crcv.len.toNat → a ≠ s.crcv.payCnt.toNat) →
      t.crcv.pay.read a = s.crcv.pay.read a

/-- While `RUN` = 1 no operation but SRESET changes a configuration register (20_memory.md R88, 40_host_ops.md R142). -/
def Obligations.ConfigurationIsLockedWhileRunning : Prop :=
  ∀ (i : Instr) (s t : State), exec i s = .next t → s.regs.run = true → ¬IsSreset i s →
    t.regs.sf = s.regs.sf ∧ t.regs.bw = s.regs.bw ∧ t.regs.fs = s.regs.fs ∧ t.regs.mode = s.regs.mode ∧
    t.regs.paylen = s.regs.paylen ∧ t.regs.sync = s.regs.sync ∧ t.regs.det = s.regs.det

/-- Flags and counters have one writer each (10_state.md R27, R29, R59; 60_exceptions.md R318). Only the host's write clears a
flag; an agent sets only its own flags; `DROP_CNT` counts the aborts consumed and `FRAME_CNT` the records pushed, and beside
SRESET only a performed START clears them. The premise on `MBOX` is part of the invariant `FlightInv`. -/
def Obligations.FlagsAndCountersHaveOneWriter : Prop :=
  ∀ (i : Instr) (s t : State), exec i s = .next t → ¬IsSreset i s → (∀ m ∈ s.mbox, MessageLegal m) →
    (¬(i = .regWr ∧ s.env.idx = 0x0A) → s.regs.evt &&& ~~~t.regs.evt = 0) ∧
    t.regs.evt &&& ~~~s.regs.evt &&& ~~~(evtOf (agentOf i)) = 0 ∧
    ((t.regs.dropCnt = s.regs.dropCnt ∧ ¬(i = .syncFb ∧ (∃ c, s.mbox = some (.abort c)) ∧ t.mbox = none)) ∨
      (i = .syncFb ∧ (∃ c, s.mbox = some (.abort c)) ∧ t.mbox = none ∧ t.regs.dropCnt = s.regs.dropCnt + 1) ∨
      (IsStart i s ∧ s.regs.run = false ∧ t.regs.run = true ∧ t.regs.dropCnt = 0)) ∧
    ((t.regs.frameCnt = s.regs.frameCnt ∧ t.e9.length ≤ s.e9.length) ∨
      (agentOf i = .crcv ∧ t.e9.length = s.e9.length + 1 ∧ t.regs.frameCnt = s.regs.frameCnt + 1) ∨
      (IsStart i s ∧ s.regs.run = false ∧ t.regs.run = true ∧ t.regs.frameCnt = 0))
end

