-- ==== Sys2Proof/Laws/Memory.lean ====
section
/-! SUPPORT. The byte memory `PAY`: what a read after a write gives, and that every operation keeps the canonical form. -/

namespace Sys2Proof.Machine

/-- A memory in canonical form from `lo` on is in canonical form from any lower address on. -/
theorem Memory.wfFrom_mono {size : Nat} {m : Memory} {lo lo' : Nat} (h : Memory.wfFrom size lo m = true) (hl : lo' ≤ lo) :
    Memory.wfFrom size lo' m = true := by
  cases m with
  | nil => rfl
  | cons c m => simp only [Memory.wfFrom, Bool.and_eq_true, decide_eq_true_eq] at h ⊢; exact ⟨⟨⟨by omega, h.1.1.2⟩, h.1.2⟩, h.2⟩

/-- Below its lowest address a memory reads as unlisted. -/
theorem Memory.read_below {size : Nat} {m : Memory} {lo a : Nat} (h : Memory.wfFrom size lo m = true) (ha : a < lo) :
    Memory.read m a = unlisted := by
  induction m generalizing lo with
  | nil => rfl
  | cons c m ih =>
    simp only [Memory.wfFrom, Bool.and_eq_true, decide_eq_true_eq] at h
    rw [Memory.read, if_neg (by omega)]
    exact ih h.2 (by omega)

/-- A write leaves every other address alone. -/
theorem Memory.read_write_ne (m : Memory) {a a' : Nat} (b : Byte) (hne : a' ≠ a) :
    (m.write a b).read a' = m.read a' := by
  induction m with
  | nil => unfold Memory.write; split <;> simp [Memory.read, hne.symm]
  | cons c m ih =>
    unfold Memory.write
    split
    · split <;> simp [Memory.read, hne.symm]
    · split
      · rename_i h; split <;> simp [Memory.read, h, hne.symm]
      · simp [Memory.read, ih]

/-- A read after a write to the same address gives the value written. -/
theorem Memory.read_write_eq {size lo : Nat} {m : Memory} {a : Nat} (b : Byte) (h : Memory.wfFrom size lo m = true) :
    (m.write a b).read a = b := by
  induction m generalizing lo with
  | nil => unfold Memory.write; split <;> simp_all [Memory.read]
  | cons c m ih =>
    simp only [Memory.wfFrom, Bool.and_eq_true, decide_eq_true_eq] at h
    unfold Memory.write
    split
    · split
      · rename_i hb
        rw [Memory.read, if_neg (by omega), Memory.read_below h.2 (by omega), hb]
      · simp [Memory.read]
    · split
      · split
        · rename_i hb; rw [Memory.read_below h.2 (by omega), hb]
        · simp [Memory.read]
      · rename_i hc; simp [Memory.read, hc, ih h.2]

/-- A write keeps the canonical form. -/
theorem Memory.wfFrom_write {size lo : Nat} {m : Memory} {a : Nat} (b : Byte) (h : Memory.wfFrom size lo m = true)
    (hlo : lo ≤ a) (ha : a < size) : Memory.wfFrom size lo (m.write a b) = true := by
  induction m generalizing lo with
  | nil => unfold Memory.write; split <;> simp_all [Memory.wfFrom]
  | cons c m ih =>
    simp only [Memory.wfFrom, Bool.and_eq_true, decide_eq_true_eq] at h
    unfold Memory.write
    split
    · split
      · simpa [Memory.wfFrom] using ⟨h.1, h.2⟩
      · rename_i hac hb
        simp only [Memory.wfFrom, Bool.and_eq_true, decide_eq_true_eq]
        exact ⟨⟨⟨hlo, ha⟩, hb⟩, ⟨⟨by omega, h.1.1.2⟩, h.1.2⟩, h.2⟩
    · split
      · split
        · exact Memory.wfFrom_mono h.2 (by omega)
        · rename_i hca hb
          simp only [Memory.wfFrom, Bool.and_eq_true, decide_eq_true_eq]
          exact ⟨⟨⟨hlo, ha⟩, hb⟩, hca ▸ h.2⟩
      · simp only [Memory.wfFrom, Bool.and_eq_true, decide_eq_true_eq]
        exact ⟨h.1, ih h.2 (by omega)⟩

/-- What a store into `PAY` does: it stores where there is a byte, and faults past the 255 bytes (10_state.md R50). -/
theorem storePay_spec (m : Memory) (a : Nat) (b : Byte) :
    (a < paySize ∧ storePay m a b = .ok (m.write a b)) ∨ (paySize ≤ a ∧ storePay m a b = .error (.payIndex a)) := by
  unfold storePay
  split
  · exact .inl ⟨‹_›, rfl⟩
  · exact .inr ⟨by omega, rfl⟩

/-- Every store keeps the canonical form of `PAY`. -/
theorem storePay_wf {m m' : Memory} {a : Nat} {b : Byte} (h : storePay m a b = .ok m') (hw : m.wf = true) : m'.wf = true := by
  obtain ⟨ha, he⟩ | ⟨-, he⟩ := storePay_spec m a b
  · rw [he] at h; cases h; exact Memory.wfFrom_write b hw (Nat.zero_le a) ha
  · rw [he] at h; cases h

/-- The memory after reset is in canonical form. -/
theorem State.reset_pay_wf : State.reset.crcv.pay.wf = true := rfl

/-- The bytes read out after storing the next one: those before it, then it. -/
theorem Memory.firstBytes_succ (m : Memory) (n : Nat) : m.firstBytes (n + 1) = m.firstBytes n ++ [m.read n] := by
  simp [Memory.firstBytes, List.range_succ]

/-- A write at `n` leaves the first `n` bytes alone. -/
theorem Memory.firstBytes_write (m : Memory) (n : Nat) (b : Byte) : (m.write n b).firstBytes n = m.firstBytes n := by
  unfold Memory.firstBytes
  refine List.map_congr_left fun i hi => Memory.read_write_ne m b ?_
  have := List.mem_range.mp hi
  omega

end Sys2Proof.Machine
end

