-- ==== Sys2Proof/Laws/State.lean ====
section
/-! SUPPORT. One lemma per field of State and per shared update, each true by `rfl`, for `simp`. -/

namespace Sys2Proof.Machine

/-! ### `reset_search()` (42_sync.md R183) -/

@[simp] theorem SyncRegs.resetSearch_state (r : SyncRegs) : r.resetSearch.state = .searching := rfl
@[simp] theorem SyncRegs.resetSearch_symIdx (r : SyncRegs) : r.resetSearch.symIdx = 0 := rfl
@[simp] theorem SyncRegs.resetSearch_symRem (r : SyncRegs) : r.resetSearch.symRem = 0 := rfl
@[simp] theorem SyncRegs.resetSearch_hdrWait (r : SyncRegs) : r.resetSearch.hdrWait = false := rfl
@[simp] theorem SyncRegs.resetSearch_runLen (r : SyncRegs) : r.resetSearch.runLen = 0 := rfl
@[simp] theorem SyncRegs.resetSearch_prevV (r : SyncRegs) : r.resetSearch.prevV = false := rfl
@[simp] theorem SyncRegs.resetSearch_prev (r : SyncRegs) : r.resetSearch.prev = r.prev := rfl
@[simp] theorem SyncRegs.resetSearch_driftSum (r : SyncRegs) : r.resetSearch.driftSum = 0 := rfl
@[simp] theorem SyncRegs.resetSearch_kLock (r : SyncRegs) : r.resetSearch.kLock = r.kLock := rfl
@[simp] theorem SyncRegs.resetSearch_syncIdx (r : SyncRegs) : r.resetSearch.syncIdx = 0 := rfl
@[simp] theorem SyncRegs.resetSearch_sfdIdx (r : SyncRegs) : r.resetSearch.sfdIdx = 0 := rfl
@[simp] theorem SyncRegs.resetSearch_kdn (r : SyncRegs) : r.resetSearch.kdn = r.kdn := rfl
@[simp] theorem SyncRegs.resetSearch_cfo2 (r : SyncRegs) : r.resetSearch.cfo2 = r.cfo2 := rfl
@[simp] theorem SyncRegs.resetSearch_fp (r : SyncRegs) : r.resetSearch.fp = { r.fp with valid := false } := rfl

/-! ### Setting the flag of a cause -/

@[simp] theorem State.flag_par (s : State) (c : Cause) : (s.flag c).par = s.par := rfl
@[simp] theorem State.flag_env (s : State) (c : Cause) : (s.flag c).env = s.env := rfl
@[simp] theorem State.flag_regs (s : State) (c : Cause) : (s.flag c).regs = { s.regs with evt := setEvt s.regs.evt c.code } := rfl
@[simp] theorem State.flag_sync (s : State) (c : Cause) : (s.flag c).sync = s.sync := rfl
@[simp] theorem State.flag_deint (s : State) (c : Cause) : (s.flag c).deint = s.deint := rfl
@[simp] theorem State.flag_hdrState (s : State) (c : Cause) : (s.flag c).hdrState = s.hdrState := rfl
@[simp] theorem State.flag_dewh (s : State) (c : Cause) : (s.flag c).dewh = s.dewh := rfl
@[simp] theorem State.flag_crcv (s : State) (c : Cause) : (s.flag c).crcv = s.crcv := rfl
@[simp] theorem State.flag_dbox (s : State) (c : Cause) : (s.flag c).dbox = s.dbox := rfl
@[simp] theorem State.flag_mbox (s : State) (c : Cause) : (s.flag c).mbox = s.mbox := rfl
@[simp] theorem State.flag_e1 (s : State) (c : Cause) : (s.flag c).e1 = s.e1 := rfl
@[simp] theorem State.flag_e2 (s : State) (c : Cause) : (s.flag c).e2 = s.e2 := rfl
@[simp] theorem State.flag_e3 (s : State) (c : Cause) : (s.flag c).e3 = s.e3 := rfl
@[simp] theorem State.flag_e4 (s : State) (c : Cause) : (s.flag c).e4 = s.e4 := rfl
@[simp] theorem State.flag_e5 (s : State) (c : Cause) : (s.flag c).e5 = s.e5 := rfl
@[simp] theorem State.flag_e6 (s : State) (c : Cause) : (s.flag c).e6 = s.e6 := rfl
@[simp] theorem State.flag_e7 (s : State) (c : Cause) : (s.flag c).e7 = s.e7 := rfl
@[simp] theorem State.flag_e8 (s : State) (c : Cause) : (s.flag c).e8 = s.e8 := rfl
@[simp] theorem State.flag_e9 (s : State) (c : Cause) : (s.flag c).e9 = s.e9 := rfl

/-! ### The entry of an aborted frame (60_exceptions.md R312) -/

@[simp] theorem State.abortFrame_par (s : State) (n : Nat) : (s.abortFrame n).par = s.par := rfl
@[simp] theorem State.abortFrame_env (s : State) (n : Nat) : (s.abortFrame n).env = s.env := rfl
@[simp] theorem State.abortFrame_regs (s : State) (n : Nat) : (s.abortFrame n).regs = { s.regs with evt := setEvt s.regs.evt n, dropCnt := s.regs.dropCnt + 1 } := rfl
@[simp] theorem State.abortFrame_sync (s : State) (n : Nat) : (s.abortFrame n).sync = s.sync.resetSearch := rfl
@[simp] theorem State.abortFrame_deint (s : State) (n : Nat) : (s.abortFrame n).deint = s.deint := rfl
@[simp] theorem State.abortFrame_hdrState (s : State) (n : Nat) : (s.abortFrame n).hdrState = s.hdrState := rfl
@[simp] theorem State.abortFrame_dewh (s : State) (n : Nat) : (s.abortFrame n).dewh = s.dewh := rfl
@[simp] theorem State.abortFrame_crcv (s : State) (n : Nat) : (s.abortFrame n).crcv = s.crcv := rfl
@[simp] theorem State.abortFrame_dbox (s : State) (n : Nat) : (s.abortFrame n).dbox = s.dbox := rfl
@[simp] theorem State.abortFrame_mbox (s : State) (n : Nat) : (s.abortFrame n).mbox = s.mbox := rfl
@[simp] theorem State.abortFrame_e1 (s : State) (n : Nat) : (s.abortFrame n).e1 = s.e1 := rfl
@[simp] theorem State.abortFrame_e2 (s : State) (n : Nat) : (s.abortFrame n).e2 = s.e2 := rfl
@[simp] theorem State.abortFrame_e3 (s : State) (n : Nat) : (s.abortFrame n).e3 = s.e3 := rfl
@[simp] theorem State.abortFrame_e4 (s : State) (n : Nat) : (s.abortFrame n).e4 = s.e4 := rfl
@[simp] theorem State.abortFrame_e5 (s : State) (n : Nat) : (s.abortFrame n).e5 = s.e5 := rfl
@[simp] theorem State.abortFrame_e6 (s : State) (n : Nat) : (s.abortFrame n).e6 = s.e6 := rfl
@[simp] theorem State.abortFrame_e7 (s : State) (n : Nat) : (s.abortFrame n).e7 = s.e7 := rfl
@[simp] theorem State.abortFrame_e8 (s : State) (n : Nat) : (s.abortFrame n).e8 = s.e8 := rfl
@[simp] theorem State.abortFrame_e9 (s : State) (n : Nat) : (s.abortFrame n).e9 = s.e9 := rfl

/-! ### `pipeline_clear()` (40_host_ops.md R145) -/

@[simp] theorem State.pipelineClear_par (s : State) : (s.pipelineClear).par = s.par := rfl
@[simp] theorem State.pipelineClear_env (s : State) : (s.pipelineClear).env = s.env := rfl
@[simp] theorem State.pipelineClear_regs (s : State) : (s.pipelineClear).regs = s.regs := rfl
@[simp] theorem State.pipelineClear_sync (s : State) : (s.pipelineClear).sync = .reset := rfl
@[simp] theorem State.pipelineClear_deint (s : State) : (s.pipelineClear).deint = { s.deint with cnt := 0 } := rfl
@[simp] theorem State.pipelineClear_hdrState (s : State) : (s.pipelineClear).hdrState = .idle := rfl
@[simp] theorem State.pipelineClear_dewh (s : State) : (s.pipelineClear).dewh = { s.dewh with nibV := false, isOpen := false, lfsr := 0xFF, byteIdx := 0 } := rfl
@[simp] theorem State.pipelineClear_crcv (s : State) : (s.pipelineClear).crcv = { s.crcv with isOpen := false, acc := 0, payCnt := 0 } := rfl
@[simp] theorem State.pipelineClear_dbox (s : State) : (s.pipelineClear).dbox = none := rfl
@[simp] theorem State.pipelineClear_mbox (s : State) : (s.pipelineClear).mbox = none := rfl
@[simp] theorem State.pipelineClear_e1 (s : State) : (s.pipelineClear).e1 = [] := rfl
@[simp] theorem State.pipelineClear_e2 (s : State) : (s.pipelineClear).e2 = [] := rfl
@[simp] theorem State.pipelineClear_e3 (s : State) : (s.pipelineClear).e3 = [] := rfl
@[simp] theorem State.pipelineClear_e4 (s : State) : (s.pipelineClear).e4 = [] := rfl
@[simp] theorem State.pipelineClear_e5 (s : State) : (s.pipelineClear).e5 = [] := rfl
@[simp] theorem State.pipelineClear_e6 (s : State) : (s.pipelineClear).e6 = [] := rfl
@[simp] theorem State.pipelineClear_e7 (s : State) : (s.pipelineClear).e7 = [] := rfl
@[simp] theorem State.pipelineClear_e8 (s : State) : (s.pipelineClear).e8 = [] := rfl
@[simp] theorem State.pipelineClear_e9 (s : State) : (s.pipelineClear).e9 = s.e9 := rfl

/-! ### `SRESET()` (40_host_ops.md R148) -/

@[simp] theorem State.sresetCmd_par (s : State) : (s.sresetCmd).par = s.par := rfl
@[simp] theorem State.sresetCmd_env (s : State) : (s.sresetCmd).env = s.env := rfl
@[simp] theorem State.sresetCmd_regs (s : State) : (s.sresetCmd).regs = State.reset.regs := rfl
@[simp] theorem State.sresetCmd_sync (s : State) : (s.sresetCmd).sync = State.reset.sync := rfl
@[simp] theorem State.sresetCmd_deint (s : State) : (s.sresetCmd).deint = State.reset.deint := rfl
@[simp] theorem State.sresetCmd_hdrState (s : State) : (s.sresetCmd).hdrState = State.reset.hdrState := rfl
@[simp] theorem State.sresetCmd_dewh (s : State) : (s.sresetCmd).dewh = State.reset.dewh := rfl
@[simp] theorem State.sresetCmd_crcv (s : State) : (s.sresetCmd).crcv = State.reset.crcv := rfl
@[simp] theorem State.sresetCmd_dbox (s : State) : (s.sresetCmd).dbox = State.reset.dbox := rfl
@[simp] theorem State.sresetCmd_mbox (s : State) : (s.sresetCmd).mbox = State.reset.mbox := rfl
@[simp] theorem State.sresetCmd_e1 (s : State) : (s.sresetCmd).e1 = State.reset.e1 := rfl
@[simp] theorem State.sresetCmd_e2 (s : State) : (s.sresetCmd).e2 = State.reset.e2 := rfl
@[simp] theorem State.sresetCmd_e3 (s : State) : (s.sresetCmd).e3 = State.reset.e3 := rfl
@[simp] theorem State.sresetCmd_e4 (s : State) : (s.sresetCmd).e4 = State.reset.e4 := rfl
@[simp] theorem State.sresetCmd_e5 (s : State) : (s.sresetCmd).e5 = State.reset.e5 := rfl
@[simp] theorem State.sresetCmd_e6 (s : State) : (s.sresetCmd).e6 = State.reset.e6 := rfl
@[simp] theorem State.sresetCmd_e7 (s : State) : (s.sresetCmd).e7 = State.reset.e7 := rfl
@[simp] theorem State.sresetCmd_e8 (s : State) : (s.sresetCmd).e8 = State.reset.e8 := rfl
@[simp] theorem State.sresetCmd_e9 (s : State) : (s.sresetCmd).e9 = State.reset.e9 := rfl

/-! ### `raise`, cause by cause (60_exceptions.md R312) -/

@[simp] theorem State.raise_record (s : State) (n : BitVec 4) : s.raise .record n = { s with regs := { s.regs with evt := setEvt s.regs.evt 0, frameCnt := s.regs.frameCnt + 1 } } := rfl
@[simp] theorem State.raise_hdrChk (s : State) (n : BitVec 4) : s.raise .hdrChk n = s.abortFrame 1 := rfl
@[simp] theorem State.raise_hdrFec (s : State) (n : BitVec 4) : s.raise .hdrFec n = s.abortFrame 2 := rfl
@[simp] theorem State.raise_hdrRsvd (s : State) (n : BitVec 4) : s.raise .hdrRsvd n = s.abortFrame 3 := rfl
@[simp] theorem State.raise_payFec (s : State) (n : BitVec 4) : s.raise .payFec n = s.flag .payFec := rfl
@[simp] theorem State.raise_crcFail (s : State) (n : BitVec 4) : s.raise .crcFail n = s.flag .crcFail := rfl
@[simp] theorem State.raise_ovf (s : State) (n : BitVec 4) : s.raise .ovf n = s.flag .ovf := rfl
@[simp] theorem State.raise_cfgErr (s : State) (n : BitVec 4) : s.raise .cfgErr n = { s with regs := { s.regs with evt := setEvt s.regs.evt 7, cfgErr := true, cfgCode := n } } := rfl
@[simp] theorem State.raise_busErr (s : State) (n : BitVec 4) : s.raise .busErr n = s.flag .busErr := rfl
@[simp] theorem State.raise_syncMiss (s : State) (n : BitVec 4) : s.raise .syncMiss n = { s with sync := s.sync.resetSearch, dbox := some .default } := rfl

/-! ### The host's line at the ports (log entry 7) -/

@[simp] theorem State.present_par (s : State) (l : Stim) (r : List Stim) : (s.present l r).par = s.par := by cases l <;> rfl
@[simp] theorem State.present_regs (s : State) (l : Stim) (r : List Stim) : (s.present l r).regs = s.regs := by cases l <;> rfl
@[simp] theorem State.present_sync (s : State) (l : Stim) (r : List Stim) : (s.present l r).sync = s.sync := by cases l <;> rfl
@[simp] theorem State.present_deint (s : State) (l : Stim) (r : List Stim) : (s.present l r).deint = s.deint := by cases l <;> rfl
@[simp] theorem State.present_hdrState (s : State) (l : Stim) (r : List Stim) : (s.present l r).hdrState = s.hdrState := by cases l <;> rfl
@[simp] theorem State.present_dewh (s : State) (l : Stim) (r : List Stim) : (s.present l r).dewh = s.dewh := by cases l <;> rfl
@[simp] theorem State.present_crcv (s : State) (l : Stim) (r : List Stim) : (s.present l r).crcv = s.crcv := by cases l <;> rfl
@[simp] theorem State.present_dbox (s : State) (l : Stim) (r : List Stim) : (s.present l r).dbox = s.dbox := by cases l <;> rfl
@[simp] theorem State.present_mbox (s : State) (l : Stim) (r : List Stim) : (s.present l r).mbox = s.mbox := by cases l <;> rfl
@[simp] theorem State.present_e1 (s : State) (l : Stim) (r : List Stim) : (s.present l r).e1 = s.e1 := by cases l <;> rfl
@[simp] theorem State.present_e2 (s : State) (l : Stim) (r : List Stim) : (s.present l r).e2 = s.e2 := by cases l <;> rfl
@[simp] theorem State.present_e3 (s : State) (l : Stim) (r : List Stim) : (s.present l r).e3 = s.e3 := by cases l <;> rfl
@[simp] theorem State.present_e4 (s : State) (l : Stim) (r : List Stim) : (s.present l r).e4 = s.e4 := by cases l <;> rfl
@[simp] theorem State.present_e5 (s : State) (l : Stim) (r : List Stim) : (s.present l r).e5 = s.e5 := by cases l <;> rfl
@[simp] theorem State.present_e6 (s : State) (l : Stim) (r : List Stim) : (s.present l r).e6 = s.e6 := by cases l <;> rfl
@[simp] theorem State.present_e7 (s : State) (l : Stim) (r : List Stim) : (s.present l r).e7 = s.e7 := by cases l <;> rfl
@[simp] theorem State.present_e8 (s : State) (l : Stim) (r : List Stim) : (s.present l r).e8 = s.e8 := by cases l <;> rfl
@[simp] theorem State.present_e9 (s : State) (l : Stim) (r : List Stim) : (s.present l r).e9 = s.e9 := by cases l <;> rfl
@[simp] theorem State.present_sched (s : State) (l : Stim) (r : List Stim) : (s.present l r).env.sched = s.env.sched := by cases l <;> rfl
@[simp] theorem State.present_stim (s : State) (l : Stim) (r : List Stim) : (s.present l r).env.stim = r := by cases l <;> rfl
@[simp] theorem State.present_por (s : State) (l : Stim) (r : List Stim) : (s.present l r).env.por = s.env.por := by cases l <;> rfl

/-! ### The power-on reset input (70_reset_and_hazards.md R340; log entry 11) -/

@[simp] theorem State.powerOnReset_true (s : State) : s.powerOnReset true = State.sresetCmd { s with env := { s.env with por := true } } := rfl
@[simp] theorem State.powerOnReset_false (s : State) : s.powerOnReset false = { s with env := { s.env with por := false } } := rfl
theorem State.stageSelector_held {s : State} (h : s.env.por = true) (a : Agent) : s.stageSelector a = none := by simp [State.stageSelector, h]
theorem State.stageSelector_released {s : State} (h : s.env.por = false) (a : Agent) : s.stageSelector a = s.inputSelector a := by simp [State.stageSelector, h]
theorem State.hostSelector_held {s : State} (h : s.env.por = true) (l : Stim) : s.hostSelector l = none := by simp [State.hostSelector, h]
theorem State.hostSelector_released {s : State} (h : s.env.por = false) (l : Stim) : s.hostSelector l = s.lineSelector l := by simp [State.hostSelector, h]

/-! ### What a symbol step reads is not changed by popping `E2` -/

@[simp] theorem State.sf_popE2 (s : State) (q : List SymEvt) : State.sf { s with e2 := q } = s.sf := rfl
@[simp] theorem State.impl_popE2 (s : State) (q : List SymEvt) : State.impl { s with e2 := q } = s.impl := rfl
@[simp] theorem State.soft_popE2 (s : State) (q : List SymEvt) : State.soft { s with e2 := q } = s.soft := rfl
@[simp] theorem State.crcEn_popE2 (s : State) (q : List SymEvt) : State.crcEn { s with e2 := q } = s.crcEn := rfl
@[simp] theorem State.modeCr_popE2 (s : State) (q : List SymEvt) : State.modeCr { s with e2 := q } = s.modeCr := rfl
@[simp] theorem State.paylen_popE2 (s : State) (q : List SymEvt) : State.paylen { s with e2 := q } = s.paylen := rfl
@[simp] theorem State.syncBin0_popE2 (s : State) (q : List SymEvt) : State.syncBin0 { s with e2 := q } = s.syncBin0 := rfl
@[simp] theorem State.syncBin1_popE2 (s : State) (q : List SymEvt) : State.syncBin1 { s with e2 := q } = s.syncBin1 := rfl
@[simp] theorem State.syncN_popE2 (s : State) (q : List SymEvt) : State.syncN { s with e2 := q } = s.syncN := rfl
@[simp] theorem State.minRun_popE2 (s : State) (q : List SymEvt) : State.minRun { s with e2 := q } = s.minRun := rfl
@[simp] theorem State.binTol_popE2 (s : State) (q : List SymEvt) : State.binTol { s with e2 := q } = s.binTol := rfl
@[simp] theorem State.bins_popE2 (s : State) (q : List SymEvt) : State.bins { s with e2 := q } = s.bins := rfl
@[simp] theorem State.os_popE2 (s : State) (q : List SymEvt) : State.os { s with e2 := q } = s.os := rfl
@[simp] theorem State.wlen_popE2 (s : State) (q : List SymEvt) : State.wlen { s with e2 := q } = s.wlen := rfl
@[simp] theorem State.syncBin_popE2 (s : State) (q : List SymEvt) (i : BitVec 2) : State.syncBin { s with e2 := q } i = s.syncBin i := rfl
@[simp] theorem State.near_popE2 (s : State) (q : List SymEvt) (a b : Bin) : State.near { s with e2 := q } a b = s.near a b := rfl
@[simp] theorem State.coarseSkip_popE2 (s : State) (q : List SymEvt) (k : Bin) : State.coarseSkip { s with e2 := q } k = s.coarseSkip k := rfl
@[simp] theorem State.fineSkip_popE2 (s : State) (q : List SymEvt) (k : Int) : State.fineSkip { s with e2 := q } k = s.fineSkip k := rfl
@[simp] theorem State.searchRun_popE2 (s : State) (q : List SymEvt) (k : Bin) : State.searchRun { s with e2 := q } k = s.searchRun k := rfl
@[simp] theorem State.enterFrame_popE2 (s : State) (q : List SymEvt) : State.enterFrame { s with e2 := q } = s.enterFrame := rfl
@[simp] theorem State.hdrBlk_popE2 (s : State) (q : List SymEvt) : State.hdrBlk { s with e2 := q } = s.hdrBlk := rfl
@[simp] theorem State.frameItem_popE2 (s : State) (q : List SymEvt) (e : SymEvt) : State.frameItem { s with e2 := q } e = s.frameItem e := rfl
@[simp] theorem State.frameRegs_popE2 (s : State) (q : List SymEvt) : State.frameRegs { s with e2 := q } = s.frameRegs := rfl

end Sys2Proof.Machine
end

