-- ==== Sys2Proof/Laws/Ops.lean ====
section
/-! SUPPORT. What each shared operation can do, said once. -/

namespace Sys2Proof.Machine

/-- An operation that is not enabled does nothing, and one that is takes its step (20_memory.md R76). -/
theorem ifEnabled_eq_next {c : Bool} {s t u : State} :
    ifEnabled c s t = .next u ↔ (c = true ∧ u = t) ∨ (c = false ∧ u = s) := by
  cases c <;> simp [ifEnabled, eq_comm]

@[simp] theorem ifEnabled_true (s t : State) : ifEnabled true s t = .next t := rfl
@[simp] theorem ifEnabled_false (s t : State) : ifEnabled false s t = .next s := rfl

/-- An edge has room for `k` items. -/
theorem State.room_iff {α : Type} (s : State) (q : List α) (k : Nat) : s.room q k = true ↔ q.length + k ≤ s.par.qDepth := by
  simp [State.room]

/-- `E9` has room for one record. -/
theorem State.recRoom_iff (s : State) : s.recRoom = true ↔ s.e9.length < s.par.recDepth := by
  simp [State.recRoom]

/-- In exact arithmetic a soft value is the rule's own. -/
theorem State.soften_exact {s : State} (h : s.par.num = .exact) (x : Num) (r : Rat) : s.soften x r = x := by
  simp [State.soften, h]

/-- In the mode `finite` a soft value is the implementation's. -/
theorem State.soften_finite {s : State} (h : s.par.num = .finite) (x : Num) (r : Rat) : s.soften x r = .rat r := by
  simp [State.soften, h]

/-! ### Symbol steps (42_sync.md R182) -/

/-- The part of the enabling of a symbol step that all five share. -/
theorem State.symReady_iff (s : State) (st : SyncState) :
    s.symReady st = true ↔
      s.regs.run = true ∧ s.sync.state = st ∧ s.sync.hdrWait = false ∧ s.dbox = none ∧ s.e2 ≠ [] := by
  simp [State.symReady, and_assoc]

/-- A symbol step pops the event it interprets. -/
theorem State.symStep_cons {s : State} {e : SymEvt} {rest : List SymEvt} (h : s.e2 = e :: rest)
    (f : State → SymEvt → State) : s.symStep f = f { s with e2 := rest } e := by
  simp [State.symStep, h]

/-! ### Stages 3 to 5: an item in, an item out -/

/-- The Gray Demapper's step (43_gray.md R220). -/
theorem State.grayStep_cons {s : State} {it : SymItem} {rest : List SymItem} (h : s.e3 = it :: rest)
    (f : SymItem → Group) :
    s.grayStep f = { s with e3 := rest, e4 := s.e4 ++ [⟨f it, it.sof, it.hdr, it.cr⟩] } := by
  simp [State.grayStep, h]

/-- The Deinterleaver's step (44_deinterleaver.md R234): the group enters the block; a complete block goes out. -/
theorem State.deintStep_cons {s : State} {it : GroupItem} {rest : List GroupItem} (h : s.e4 = it :: rest)
    (f : DeintRegs → CwBlock) :
    s.deintStep f =
      if (s.deint.take it).complete then
        { s with e4 := rest, deint := { s.deint.take it with cnt := 0 }, e5 := s.e5 ++ [f (s.deint.take it)] }
      else { s with e4 := rest, deint := s.deint.take it } := by
  simp [State.deintStep, h]

/-- The Hamming Decoder's block step (45_hamming.md R247): only an uncorrectable payload block sets a flag. -/
theorem State.hammStep_cons {s : State} {b : CwBlock} {rest : List CwBlock} (h : s.e5 = b :: rest)
    (f : CwBlock → List (Nibble × CwStatus)) :
    s.hammStep f =
      { s with
        e5 := rest
        e6 := s.e6 ++ [⟨(f b).map Prod.fst, (f b).map Prod.snd, b.sof, b.hdr, b.cr⟩]
        regs := if !b.hdr && anyUncorr ((f b).map Prod.snd) then { s.regs with evt := setEvt s.regs.evt 4 } else s.regs } := by
  simp only [State.hammStep, h]
  split <;> rfl

/-! ### The CRC Verifier -/

/-- `finish()` (48_crc.md R295): the record, the two flags, the count, the closed frame, and nothing else. -/
theorem State.finish_eq (s : State) :
    s.finish =
      { s with
        e9 := s.e9 ++ [s.crcv.record]
        crcv := { s.crcv with isOpen := false }
        regs := { s.regs with
          evt := if s.crcv.flag = .fail then setEvt (setEvt s.regs.evt 0) 5 else setEvt s.regs.evt 0
          frameCnt := s.regs.frameCnt + 1 } } := by
  unfold State.finish
  split <;> rfl

/-- What a byte of an open frame does to the registers (48_crc.md R294). A store is never past `PAY`, since `pay_cnt < cv_len`. -/
theorem CrcvRegs.take_spec (r : CrcvRegs) (b : Byte) :
    r.take b = .ok
      (if r.payCnt.toNat < r.len.toNat then
        { r with pay := r.pay.write r.payCnt.toNat b, acc := crc16Update r.acc b, payCnt := r.payCnt + 1 }
      else if r.payCnt.toNat = r.len.toNat then { r with rx := r.rx.extractLsb' 8 8 ++ b, payCnt := r.payCnt + 1 }
      else { r with rx := b ++ r.rx.extractLsb' 0 8, payCnt := r.payCnt + 1 }) := by
  unfold CrcvRegs.take
  split
  · rename_i h
    obtain ⟨-, he⟩ | ⟨hp, -⟩ := storePay_spec r.pay r.payCnt.toNat b
    · rw [he]
    · have := r.len.isLt; simp only [paySize] at hp; omega
  · split <;> rfl

/-! ### Turns -/

/-- Whose turn it is (20_memory.md R78, R79): the next choice of the schedule, else the most downstream enabled stage, else the
host; no one where nothing is enabled and no line is pending. -/
theorem State.pick_cases {s : State} {a : Agent} {t : State} (h : s.pick = some (a, t)) :
    (∃ rest, s.env.sched = a :: rest ∧ t = { s with env := { s.env with sched := rest } }) ∨
    (s.env.sched = [] ∧ t = s ∧ downstreamFirst.find? s.stageEnabled = some a) ∨
    (s.env.sched = [] ∧ t = s ∧ a = .host ∧ s.env.stim ≠ [] ∧ downstreamFirst.find? s.stageEnabled = none) := by
  unfold State.pick at h
  split at h
  · cases h; exact .inl ⟨_, ‹_›, rfl⟩
  · split at h
    · cases h; exact .inr (.inl ⟨‹_›, rfl, ‹_›⟩)
    · split at h
      · cases h
      · cases h; exact .inr (.inr ⟨‹_›, rfl, rfl, by simp_all, ‹_›⟩)

/-- What an operation named by a descriptor does: it is performed, or the descriptor names none and is refused. -/
theorem perform_cases (w : Opsel) (s : State) :
    (∃ i, decode w = .ok i ∧ perform w s = exec i s) ∨
    (∃ e, decode w = .error e ∧ perform w s = .refused (.noOperation w)) := by
  unfold perform
  split
  · exact .inl ⟨_, ‹_›, rfl⟩
  · exact .inr ⟨_, ‹_›, rfl⟩

/-- What the host's turn does: its line is one operation, or a line of the test bench, or the power-on reset. -/
theorem hostRun_cases {s t : State} (h : hostRun s = .next t) :
    (s.env.stim = [] ∧ t = s) ∨
    ∃ line rest, s.env.stim = line :: rest ∧
      ((∃ k, line = .sym k ∧ (s.present line rest).benchSym k = .next t) ∨
       (∃ b, line = .powerOn b ∧ t = (s.present line rest).powerOnReset b) ∨
       (∃ w i, (s.present line rest).hostSelector line = some w ∧ decode w = .ok i ∧
         exec i (s.present line rest) = .next t) ∨
       ((s.present line rest).hostSelector line = none ∧ t = s.present line rest)) := by
  unfold hostRun at h
  split at h
  · cases h; exact .inl ⟨‹_›, rfl⟩
  · rename_i line rest hs
    refine .inr ⟨line, rest, hs, ?_⟩
    dsimp only at h
    split at h
    · exact .inl ⟨_, rfl, h⟩
    · cases h; exact .inr (.inl ⟨_, rfl, rfl⟩)
    · split at h
      · rename_i w hw
        obtain ⟨i, hi, he⟩ | ⟨e, -, he⟩ := perform_cases w (s.present line rest)
        · exact .inr (.inr (.inl ⟨w, i, hw, hi, he ▸ h⟩))
        · rw [he] at h; cases h
      · cases h; exact .inr (.inr (.inr ⟨‹_›, rfl⟩))

/-- What a stage's turn does. -/
theorem stageRun_cases {a : Agent} {s t : State} (ha : a ≠ .host) (h : agentRun a s = .next t) :
    (s.stageSelector a = none ∧ t = s) ∨
    (∃ w i, s.stageSelector a = some w ∧ decode w = .ok i ∧ exec i s = .next t) := by
  have hr : agentRun a s = match s.stageSelector a with | some w => perform w s | none => .next s := by
    cases a <;> first | rfl | exact absurd rfl ha
  rw [hr] at h
  split at h
  · rename_i w hw
    obtain ⟨i, hi, he⟩ | ⟨e, -, he⟩ := perform_cases w s
    · exact .inr ⟨w, i, hw, hi, he ▸ h⟩
    · rw [he] at h; cases h
  · cases h; exact .inl ⟨‹_›, rfl⟩

/-- An enabled stage's turn: its enabled operation is performed, or its descriptor names none and is refused. -/
theorem stageEnabled_cases {a : Agent} {s : State} (ha : a ≠ .host) (h : s.stageEnabled a = true) :
    (∃ w i, s.stageSelector a = some w ∧ decode w = .ok i ∧ enabled i s = true ∧ agentRun a s = exec i s) ∨
    (∃ w, s.stageSelector a = some w ∧ agentRun a s = .refused (.noOperation w)) := by
  have hr : agentRun a s = match s.stageSelector a with | some w => perform w s | none => .next s := by
    cases a <;> first | rfl | exact absurd rfl ha
  unfold State.stageEnabled at h
  split at h
  · cases h
  · rename_i w hw
    rw [hw] at hr
    obtain ⟨i, hi, he⟩ | ⟨e, hd, he⟩ := perform_cases w s
    · rw [hi] at h; exact .inl ⟨w, i, hw, hi, h, hr.trans he⟩
    · exact .inr ⟨w, hw, hr.trans he⟩

/-- Everything one step can do. Beside the environment it changes the state only through one operation, the bench line
`SYM`, or the power-on reset. -/
theorem step_cases {s t : State} (h : turn s = .next t) :
    ∃ e : Env,
      t = { s with env := e } ∨ (∃ i, exec i { s with env := e } = .next t) ∨
      (∃ k, State.benchSym { s with env := e } k = .next t) ∨ t = State.sresetCmd { s with env := e } := by
  unfold turn at h
  split at h
  · rename_i a u hp
    have hu : ∃ e : Env, u = { s with env := e } := by
      obtain ⟨rest, -, rfl⟩ | ⟨-, rfl, -⟩ | ⟨-, rfl, -⟩ := State.pick_cases hp
      · exact ⟨_, rfl⟩
      · exact ⟨_, rfl⟩
      · exact ⟨_, rfl⟩
    obtain ⟨e, rfl⟩ := hu
    by_cases ha : a = .host
    · subst ha
      obtain ⟨-, rfl⟩ | ⟨line, rest, -, hl⟩ := hostRun_cases h
      · exact ⟨e, .inl rfl⟩
      · have hpres : ∃ e', State.present { s with env := e } line rest = { s with env := e' } := by
          cases line <;> exact ⟨_, rfl⟩
        obtain ⟨e', he'⟩ := hpres
        rw [he'] at hl
        obtain ⟨k, -, hk⟩ | ⟨b, -, rfl⟩ | ⟨w, i, -, -, hi⟩ | ⟨-, rfl⟩ := hl
        · exact ⟨e', .inr (.inr (.inl ⟨k, hk⟩))⟩
        · cases b
          · exact ⟨_, .inl rfl⟩
          · exact ⟨_, .inr (.inr (.inr rfl))⟩
        · exact ⟨e', .inr (.inl ⟨i, hi⟩)⟩
        · exact ⟨e', .inl rfl⟩
    · obtain ⟨-, rfl⟩ | ⟨w, i, -, -, hi⟩ := stageRun_cases ha h
      · exact ⟨e, .inl rfl⟩
      · exact ⟨e, .inr (.inl ⟨i, hi⟩)⟩
  · cases h; exact ⟨s.env, .inl rfl⟩

end Sys2Proof.Machine
end

