-- ==== Sys2Proof/Laws/PerInstr.lean ====
section
/-! SUPPORT. Per-instruction lemmas. Family `ZeroFields`: the descriptor of an operation has 0 in the fields that 30_encoding.md
R120 fixes at 0, and a stage number of R120. -/

namespace Sys2Proof.Laws

/-- Bits [7:4] and [2:0] of the operation's descriptor are 0, and its `STAGE` is 0 to 8 (30_encoding.md R120). -/
def ZeroFields.Statement (i : Instr) : Prop := encode i &&& 0x00F7 = 0 ∧ (opselStage (encode i)).toNat ≤ 8

theorem ZeroFields.regWr : ZeroFields.Statement .regWr := by unfold ZeroFields.Statement; decide
theorem ZeroFields.regRd : ZeroFields.Statement .regRd := by unfold ZeroFields.Statement; decide
theorem ZeroFields.start : ZeroFields.Statement .start := by unfold ZeroFields.Statement; decide
theorem ZeroFields.stop : ZeroFields.Statement .stop := by unfold ZeroFields.Statement; decide
theorem ZeroFields.sreset : ZeroFields.Statement .sreset := by unfold ZeroFields.Statement; decide
theorem ZeroFields.sampPush : ZeroFields.Statement .sampPush := by unfold ZeroFields.Statement; decide
theorem ZeroFields.recPop : ZeroFields.Statement .recPop := by unfold ZeroFields.Statement; decide
theorem ZeroFields.demodH : ZeroFields.Statement .demodH := by unfold ZeroFields.Statement; decide
theorem ZeroFields.demodS : ZeroFields.Statement .demodS := by unfold ZeroFields.Statement; decide
theorem ZeroFields.syncSearch : ZeroFields.Statement .syncSearch := by unfold ZeroFields.Statement; decide
theorem ZeroFields.syncLocked : ZeroFields.Statement .syncLocked := by unfold ZeroFields.Statement; decide
theorem ZeroFields.syncSwchk : ZeroFields.Statement .syncSwchk := by unfold ZeroFields.Statement; decide
theorem ZeroFields.syncSfd : ZeroFields.Statement .syncSfd := by unfold ZeroFields.Statement; decide
theorem ZeroFields.syncFrame : ZeroFields.Statement .syncFrame := by unfold ZeroFields.Statement; decide
theorem ZeroFields.syncFb : ZeroFields.Statement .syncFb := by unfold ZeroFields.Statement; decide
theorem ZeroFields.grayH : ZeroFields.Statement .grayH := by unfold ZeroFields.Statement; decide
theorem ZeroFields.grayS : ZeroFields.Statement .grayS := by unfold ZeroFields.Statement; decide
theorem ZeroFields.deintH : ZeroFields.Statement .deintH := by unfold ZeroFields.Statement; decide
theorem ZeroFields.deintS : ZeroFields.Statement .deintS := by unfold ZeroFields.Statement; decide
theorem ZeroFields.hammCr1 : ZeroFields.Statement .hammCr1 := by unfold ZeroFields.Statement; decide
theorem ZeroFields.hammCr2 : ZeroFields.Statement .hammCr2 := by unfold ZeroFields.Statement; decide
theorem ZeroFields.hammCr3 : ZeroFields.Statement .hammCr3 := by unfold ZeroFields.Statement; decide
theorem ZeroFields.hammCr4 : ZeroFields.Statement .hammCr4 := by unfold ZeroFields.Statement; decide
theorem ZeroFields.hammS (sub : BitVec 4) : ZeroFields.Statement (.hammS sub) := by
  revert sub; unfold ZeroFields.Statement; decide
theorem ZeroFields.hdrParse : ZeroFields.Statement .hdrParse := by unfold ZeroFields.Statement; decide
theorem ZeroFields.hdrPass : ZeroFields.Statement .hdrPass := by unfold ZeroFields.Statement; decide
theorem ZeroFields.hdrImpl : ZeroFields.Statement .hdrImpl := by unfold ZeroFields.Statement; decide
theorem ZeroFields.dewhStart : ZeroFields.Statement .dewhStart := by unfold ZeroFields.Statement; decide
theorem ZeroFields.dewhNib : ZeroFields.Statement .dewhNib := by unfold ZeroFields.Statement; decide
theorem ZeroFields.crcvStart : ZeroFields.Statement .crcvStart := by unfold ZeroFields.Statement; decide
theorem ZeroFields.crcvByte : ZeroFields.Statement .crcvByte := by unfold ZeroFields.Statement; decide

end Sys2Proof.Laws
end

