-- ==== Sys2Proof/Machine/Stimulus.lean ====
section
/-! DEFINITION. The stimulus notation (30_encoding.md R124 to R126): its lines, the pseudo-operations among them, and what each
expands to, the lines that `env.stim` holds. Every sample has the exact value of 41_demod.md R173 and 30_encoding.md R126, whatever
`OS` and the frequency offset are. -/

namespace Sys2Proof.Machine

/-! ### Samples -/

/-- The real part of an exact number. -/
def realPart (z : Num) : Num := Num.mul (.rat (1 / 2)) (Num.add z (Num.conj z))

/-- The imaginary part of an exact number. -/
def imagPart (z : Num) : Num := Num.mul (.rat (1 / 2)) (Num.mul Num.imag (Num.sub (Num.conj z) z))

/-- The line that pushes the sample `z`. -/
def sampLine (z : Num) : Stim := .samp (realPart z) (imagPart z)

/-- Sample `m` of the up-chirp of value `s` at `os` samples per chip, `C_s[m]`, `t = m / OS` (41_demod.md R173). -/
def chirp (sf os s m : Nat) : Num :=
  let t : Rat := (m : Rat) / os
  let n : Rat := (2 ^ sf : Nat)
  if t < n - s then Num.unit (t * t / (2 * n) + (s / n - 1 / 2) * t)
  else Num.unit (t * t / (2 * n) + (s / n - 3 / 2) * t)

/-- The samples `C_s[m]`, m = 0 .. WLEN - 1. -/
def upChirpSamples (sf os s : Nat) : List Num := (List.range (2 ^ sf * os)).map (chirp sf os s)

/-- The samples of the down-chirp, `conj(C_0[m])`. -/
def downChirpSamples (sf os : Nat) : List Num := (upChirpSamples sf os 0).map Num.conj

/-- The samples of `QDOWNCHIRP` (R126). -/
def quarterDownChirpSamples (sf os : Nat) : List Num := (downChirpSamples sf os).take (2 ^ sf * os / 4)

/-- The bins of the sync word that `FRAME` sends: `SYNC_BIN0`, and `SYNC_BIN1` if `SYNC_N` = 2 (R126). -/
def State.syncBins (s : State) : List Nat := s.syncBin0.toNat :: if s.syncN = 2 then [s.syncBin1.toNat] else []

/-- The samples of `FRAME P, [s0, s1, ...]` (R126), in the configuration of `s`. -/
def State.frameSamples (s : State) (p : Nat) (syms : List Nat) : List Num :=
  let up := upChirpSamples s.sf s.os
  let down := downChirpSamples s.sf s.os
  (List.replicate p (up 0)).flatten ++ s.syncBins.flatMap up ++ down ++ down ++ quarterDownChirpSamples s.sf s.os ++
    syms.flatMap up

/-- The modifier `CFO f` (R126): the sample of index `m` since START, from `m0` on, times `exp(j 2 pi f m / WLEN)`. -/
def cfo (wlen : Nat) (f : Rat) (m0 : Nat) (z : List Num) : List Num :=
  z.mapIdx fun i x => Num.mul x (Num.unit (f * (m0 + i : Nat) / wlen))

/-! ### Lines -/

/-- A named field of a register: bits `lo .. lo + width - 1` of the register `idx` (10_state.md R21 to R26). -/
structure Field where
  idx   : BitVec 6
  lo    : Nat
  width : Nat
deriving DecidableEq, Repr

/-- `MODE.IMPL` (10_state.md R25), and so on. -/
def Field.impl : Field := ⟨0x05, 0, 1⟩
def Field.soft : Field := ⟨0x05, 1, 1⟩
def Field.crcEn : Field := ⟨0x05, 2, 1⟩
def Field.cr : Field := ⟨0x05, 4, 3⟩
/-- `SYNC.SYNC_BIN0` (R26), and so on. -/
def Field.syncBin0 : Field := ⟨0x07, 0, 12⟩
def Field.syncBin1 : Field := ⟨0x07, 16, 12⟩
def Field.syncN : Field := ⟨0x07, 28, 2⟩
def Field.minRun : Field := ⟨0x08, 0, 8⟩
def Field.binTol : Field := ⟨0x08, 8, 11⟩

/-- The register value `w` with the field set to `v`. -/
def Field.set (f : Field) (w v : Word32) : Word32 :=
  let mask : Word32 := ((1 <<< f.width) - 1) <<< f.lo
  (w &&& ~~~mask) ||| ((v <<< f.lo) &&& mask)

/-- A line of the notation: the host operations and the shorthand of R124, `SYM` and `SYMS` of R125, the pseudo-operations of
R126, and the power-on reset input (log entry 11). -/
inductive Line where
  | regW (idx : BitVec 6) (v : Word32)
  | regField (f : Field) (v : Word32)
  | regR (idx : BitVec 6)
  | start
  | stop
  | sreset
  | samp (i q : Num)
  | pop
  | sym (k : Bin)
  | syms (ks : List Bin)
  | syncWord (b : Byte)
  | upChirp (s : Nat)
  | downChirp
  | quarterDownChirp
  | silence (n : Nat)
  | frame (p : Nat) (syms : List Nat)
  | cfo (f : Rat)
  | powerOn (asserted : Bool)
deriving DecidableEq, Repr

/-- What the meaning of a line depends on: the registers as the lines before it leave them, the fields that shorthand lines
have named, the frequency offset in force, and the samples pushed since the most recent START (R124, R126). -/
structure Bench where
  core   : State
  fields : List (BitVec 6 × Word32)
  offset : Rat
  count  : Nat
deriving DecidableEq, Repr

/-- Before the first line of a stimulus for a CORE in the state `s`. -/
def Bench.init (s : State) : Bench := ⟨s, [], 0, 0⟩

/-- The value that earlier shorthand lines have given the register `idx`; other fields 0 (R124). -/
def Bench.named (b : Bench) (idx : BitVec 6) : Word32 := (b.fields.lookup idx).getD 0

/-- A write is START: of `CTRL`, with bit 0 alone of the three (10_state.md R22). -/
def isStartWrite (idx : BitVec 6) (v : Word32) : Bool :=
  decide (idx = 0) && !v.getLsbD 2 && !v.getLsbD 1 && v.getLsbD 0

/-- The line `REGW`, which stores nothing while the power-on reset input is asserted (70_reset_and_hazards.md R340). Each START starts the count of samples anew (log entry 18). -/
def Bench.write (b : Bench) (idx : BitVec 6) (v : Word32) : List Stim × Bench :=
  ([.regW idx v],
    { b with
      core := if b.core.env.por then b.core else b.core.regWrite idx v
      count := if isStartWrite idx v then 0 else b.count })

/-- Samples pushed, with the frequency offset in force (R126). -/
def Bench.push (b : Bench) (z : List Num) : List Stim × Bench :=
  ((Sys2Proof.Machine.cfo b.core.wlen b.offset b.count z).map sampLine, { b with count := b.count + z.length })

/-- The value `SYNCWORD b` writes to `SYNC` (R102, R126): `SYNC_N` = 2 and a bin of 8 times each nibble. -/
def syncWordValue (b : Byte) : Word32 :=
  (2 <<< 28) ||| ((8 * (b.extractLsb' 0 4).setWidth 32) <<< 16) ||| (8 * (b.extractLsb' 4 4).setWidth 32)

/-- What a line expands to, and what it leaves for the lines after it (R124 to R126). -/
def Bench.line (b : Bench) : Line → List Stim × Bench
  | .regW idx v => b.write idx v
  | .regField f v =>
    let w := f.set (b.named f.idx) v
    { b with fields := (f.idx, w) :: b.fields }.write f.idx w
  | .regR idx => ([.regR idx], b)
  | .start => b.write 0 1
  | .stop => b.write 0 2
  | .sreset => b.write 0 4
  | .samp i q => b.push [Sample.value ⟨i, q⟩]
  | .pop => ([.pop], b)
  | .sym k => ([.sym k], b)
  | .syms ks => (ks.map .sym, b)
  | .syncWord w => b.write 0x07 (syncWordValue w)
  | .upChirp s => b.push (upChirpSamples b.core.sf b.core.os s)
  | .downChirp => b.push (downChirpSamples b.core.sf b.core.os)
  | .quarterDownChirp => b.push (quarterDownChirpSamples b.core.sf b.core.os)
  | .silence n => b.push (List.replicate n (.rat 0))
  | .frame p syms => b.push (b.core.frameSamples p syms)
  | .cfo f => ([], { b with offset := f })
  | .powerOn asserted => ([.powerOn asserted], { b with core := b.core.powerOnReset asserted })

/-- The lines a stimulus expands to, top to bottom (R124). -/
def Bench.expand (b : Bench) : List Line → List Stim
  | [] => []
  | l :: rest => (b.line l).1 ++ Bench.expand (b.line l).2 rest

end Sys2Proof.Machine
end

