-- ==== Sys2Proof/Tests/Slice0.lean ====
section
/-! SUPPORT. Tests of the model, with the source of each expected value, and a witness for the hypotheses of every statement
that has some. -/

namespace Sys2Proof.Tests

open Sys2Proof Sys2Proof.Machine Sys2Proof.Safety

/-- The base configuration of 95_test_vectors.md with the given `MODE`, running, `DBOX` empty. -/
def base (mode : Word32 := 0) : State :=
  { State.reset with
    regs := { HostRegs.reset with sf := 7, bw := 125000, fs := 125000, mode := mode, paylen := 4, sync := 0x20100008,
                                  det := 0x106, run := true } }

/-- The state an operation leaves; reset where it stops. -/
def post : Out → State
  | .next t => t
  | .fault _ => State.reset
  | .refused _ => State.reset

/-- The host's operands at the ports. -/
def host (s : State) (idx : BitVec 6) (v : Word32) : State := { s with env := { s.env with idx := idx, v := v } }

/-- `REG_WR`, then `REG_RD` of the same register. -/
def readBack (idx : BitVec 6) (v : Word32) : Word32 :=
  (post (execRegRd (post (execRegWr (host State.reset idx v))))).env.rdData

/-- The synchronizer of the base configuration, `r` in its registers, after the symbol `k`. -/
def afterSym (i : Instr) (r : SyncRegs) (k : Bin) : State := post (exec i { base with sync := r, e2 := [⟨k, []⟩] })

/-- The state `i` steps from is the running base configuration with `items` in `E7`. -/
def dewh (r : DewhRegs) (items : List E7Item) : State := { base with dewh := r, e7 := items }

/-- An operation `n` times. -/
def times (i : Instr) (n : Nat) (s : State) : State := post (repeatOp i n s)

/-! ### Well-formedness: the ill-formed terms are refused -/

theorem test_wf_refuses_hammS_sub_0 : (Instr.hammS 0).wellFormed = false := by decide
theorem test_wf_refuses_hammS_sub_5 : (Instr.hammS 5).wellFormed = false := by decide
/-- `j` is no real number. -/
theorem test_wf_refuses_imaginary_component : (Stim.samp Num.imag (.rat 0)).wellFormed = false := by decide +kernel
/-- A factor 0 of a root of unity is not canonical. -/
theorem test_wf_refuses_zero_factor : (Stim.samp (.rat 0) (.ext 1 (.rat 1) (.rat 0))).wellFormed = false := by decide +kernel
/-- The three cube roots of unity are not independent. -/
theorem test_wf_refuses_third_cube_root : (Stim.samp (.rat 0) (.odd [(1 / 3, 1), (2 / 3, 1)])).wellFormed = false := by decide +kernel
theorem test_wf_accepts :
    (Instr.hammS 4).wellFormed = true ∧ (Stim.samp (.rat (-1 / 2)) (.rat 3)).wellFormed = true ∧
    (sampLine (chirp 2 3 1 1)).wellFormed = true := by decide +kernel

/-! ### Decoding: words written out from 30_encoding.md R121, `STAGE SUB 0000 s 000` -/

theorem test_decode_host :
    decode 0b0000000000000000 = .ok .regWr ∧ decode 0b0000000100001000 = .ok .regRd ∧
    decode 0b0000001000000000 = .ok .start ∧ decode 0b0000001100001000 = .ok .stop ∧
    decode 0b0000010000000000 = .ok .sreset ∧ decode 0b0000010100001000 = .ok .sampPush ∧
    decode 0b0000011000000000 = .ok .recPop := by decide

theorem test_decode_demod :
    decode 0b0001000000000000 = .ok .demodH ∧ decode 0b0001000000001000 = .ok .demodS := by decide

theorem test_decode_sync :
    decode 0b0010000000000000 = .ok .syncSearch ∧ decode 0b0010000100001000 = .ok .syncLocked ∧
    decode 0b0010001000000000 = .ok .syncSwchk ∧ decode 0b0010001100001000 = .ok .syncSfd ∧
    decode 0b0010010000000000 = .ok .syncFrame ∧ decode 0b0010100000001000 = .ok .syncFb := by decide

theorem test_decode_gray_deint :
    decode 0b0011000000000000 = .ok .grayH ∧ decode 0b0011000000001000 = .ok .grayS ∧
    decode 0b0100000000000000 = .ok .deintH ∧ decode 0b0100000000001000 = .ok .deintS := by decide

theorem test_decode_hamm :
    decode 0b0101000100000000 = .ok .hammCr1 ∧ decode 0b0101001000000000 = .ok .hammCr2 ∧
    decode 0b0101001100000000 = .ok .hammCr3 ∧ decode 0b0101010000000000 = .ok .hammCr4 ∧
    decode 0b0101000100001000 = .ok (.hammS 1) ∧ decode 0b0101010000001000 = .ok (.hammS 4) := by decide

theorem test_decode_hdr_dewh_crcv :
    decode 0b0110000000001000 = .ok .hdrParse ∧ decode 0b0110000100000000 = .ok .hdrPass ∧
    decode 0b0110001000001000 = .ok .hdrImpl ∧ decode 0b0111000000000000 = .ok .dewhStart ∧
    decode 0b0111000100001000 = .ok .dewhNib ∧ decode 0b1000000000000000 = .ok .crcvStart ∧
    decode 0b1000000100001000 = .ok .crcvByte := by decide

/-- Rejected words (R123), by name. -/
theorem test_decode_rejects :
    decode 0b1001000000000000 = .error .reservedStage ∧ decode 0b1111111111111111 = .error .reservedStage ∧
    decode 0b0000000010000000 = .error .nonzeroZeroField ∧ decode 0b0001000000000001 = .error .nonzeroZeroField ∧
    decode 0b0000011100000000 = .error .noSuchSub ∧ decode 0b0010010100000000 = .error .noSuchSub ∧
    decode 0b0101000000000000 = .error .noSuchSub ∧ decode 0b0101010100000000 = .error .noSuchSub := by decide

/-! ### Placing a word for the next step -/

/-- The operation the next step performs, and whether it is enabled there. -/
def nextOp (s : State) : Option (Instr × Bool) :=
  match s.pick with
  | none => none
  | some (.host, t) =>
    match t.env.stim with
    | [] => none
    | line :: rest =>
      (((t.present line rest).hostSelector line).bind fun w => (decode w).toOption).map fun i => (i, enabled i t)
  | some (a, t) => ((t.stageSelector a).bind fun w => (decode w).toOption).map fun i => (i, enabled i t)

/-- The words of the opcode table, both values of an ignored bit `SOFT`, and `SUB` = 1 to 4 of `HAMM.S`. -/
def tableWords : List Nat :=
  [0x0000, 0x0100, 0x0200, 0x0300, 0x0400, 0x0500, 0x0600, 0x0008, 0x0608, 0x1000, 0x1008, 0x2000, 0x2100, 0x2200, 0x2300,
   0x2400, 0x2800, 0x2808] ++
  [0x3000, 0x3008, 0x4000, 0x4008, 0x5100, 0x5200, 0x5300, 0x5400, 0x5108, 0x5208, 0x5308, 0x5408, 0x6000, 0x6008, 0x6100,
   0x6200, 0x6208, 0x7000, 0x7100, 0x8000, 0x8100, 0x8108]

/-- After reset, the word placed is the operation performed next, and it is enabled. -/
theorem test_withFetchWord :
    ∀ w ∈ tableWords, nextOp (State.reset.withFetchWord 16 w) = (decodeTableWord 16 w).map fun i => (i, true) := by
  decide +kernel

/-! ### Spec vectors -/

/-- 95_test_vectors.md V100. -/
theorem test_regWr_masks :
    readBack 0x02 0xFFFFFFFF = 0x0000000F ∧ readBack 0x05 0xFFFFFFFF = 0x00000077 ∧
    readBack 0x07 0xFFFFFFFF = 0x3FFF0FFF ∧ readBack 0x08 0xFFFFFFFF = 0x0007FFFF ∧
    readBack 0x09 0xFFFFFFFF = 0x000001FF ∧ readBack 0x06 0x000001FF = 0x000000FF := by decide

/-- V101: a read-only register, an undefined index, a locked register. -/
theorem test_regWr_refused :
    (post (execRegWr (host State.reset 0x01 0))).regs.evt = 0x100 ∧
    (post (execRegWr (host State.reset 0x20 5))).regs.evt = 0x100 ∧
    (post (execRegWr (host base 0x02 8))).regs.sf = 7 ∧ (post (execRegWr (host base 0x02 8))).regs.evt = 0x100 := by decide

/-- V101: `REGR 0x0F`, `REGR CTRL`. V80: `EST`, `DRIFT`. -/
theorem test_regRd :
    (post (execRegRd (host base 0x0F 0))).regs.evt = 0x100 ∧ (post (execRegRd (host base 0x0F 0))).env.rdData = 0 ∧
    (post (execRegRd (host base 0x00 0))).env.rdData = 0 ∧
    (let s := { base with sync := { SyncRegs.reset with kLock := 15, runLen := 6, driftSum := 5, cfo2 := 0xFF6 } }
     (post (execRegRd (host s 0x0D 0))).env.rdData = 0x000F0FF6 ∧
     (post (execRegRd (host s 0x0E 0))).env.rdData = 0x06000005) := by decide

/-- The state after the host's turns with the given lines. -/
def hostTurns (s : State) (l : List Stim) : State :=
  l.foldl (fun s _ => post (hostRun s)) { s with env := { s.env with stim := l } }

/-- R340: asserted, the input resets; a write and a bench line offered then do nothing; released, a write is performed. -/
theorem test_power_on_reset :
    (hostTurns base [.powerOn true]).regs = HostRegs.reset ∧ (hostTurns base [.powerOn true]).env.por = true ∧
    (hostTurns base [.powerOn true, .regW 0x02 8, .sym 3]).regs.sf = 0 ∧
    (hostTurns base [.powerOn true, .regW 0x02 8, .sym 3]).env.stim = [] ∧
    (hostTurns base [.powerOn true, .powerOn false, .regW 0x02 8]).regs.sf = 8 := by decide

/-- A running session with the input asserted on the next line; the input asserted, with a line of each kind. -/
theorem witness_resetValues :
    (let s := { base with env := { Env.reset with stim := [.powerOn true] } }; s.env.stim = .powerOn true :: []) ∧
    (let s := fun l => { State.reset with env := { Env.reset with por := true, stim := [l] } }
     ∀ l : Stim, (s l).env.por = true ∧ (s l).env.stim = l :: []) ∧
    Stim.pop ≠ .powerOn true ∧ Stim.powerOn false ≠ .powerOn true := ⟨rfl, fun _ => ⟨rfl, rfl⟩, by decide, by decide⟩

/-- V102: `REGW CTRL, 7` is SRESET alone, `REGW CTRL, 3` while running STOP alone. -/
theorem test_sreset_stop_priority :
    (post (execRegWr (host base 0 7))).regs.sf = 0 ∧ (post (execRegWr (host base 0 7))).regs.run = false ∧
    (post (execRegWr (host base 0 3))).regs.sf = 7 ∧ (post (execRegWr (host base 0 3))).regs.run = false := by decide

/-- R144: START at reset is refused with code 1 (`SF` = 0); with the base configuration it runs and posts the first message. -/
theorem test_start :
    (post (execStart State.reset)).regs.cfgCode = 1 ∧ (post (execStart State.reset)).regs.evt = 0x080 ∧
    (let s := { base with regs := { base.regs with run := false } }
     (post (execStart s)).regs.run = true ∧ (post (execStart s)).dbox = some ⟨.normal, 0, 0⟩) := by decide

/-- V104. -/
theorem test_irq :
    (let s := { State.reset with regs := { HostRegs.reset with evt := 0x021, irqEn := 0x020 } }
     s.irq = true ∧ (post (execRegWr (host s 0x0A 0x020))).irq = false ∧
     (post (execRegWr (host s 0x0A 0x020))).regs.evt = 0x001) := by decide

/-- R149: a full FIFO loses the sample and sets `OVF`; idle, the sample goes without a trace. -/
theorem test_sampPush :
    (let s := { base with par := { base.par with sampDepth := 1 } }
     (post (execSampPush s)).e1.length = 1 ∧ (post (execSampPush (post (execSampPush s)))).e1.length = 1 ∧
     (post (execSampPush (post (execSampPush s)))).regs.evt = 0x040 ∧ (post (execSampPush State.reset)).e1 = []) := by decide

/-- R150. -/
theorem test_recPop :
    (let s := { base with e9 := [⟨1, .pass, [7]⟩, ⟨0, .unverified, []⟩] }
     (post (execRecPop s)).env.recOut = some ⟨1, .pass, [7]⟩ ∧ (post (execRecPop s)).e9 = [⟨0, .unverified, []⟩] ∧
     (post (execRecPop State.reset)).env.recOut = none) := by decide

/-- By hand from R162 to R168, N = 2: the window 1, j is the up-chirp of value 1; `U` = 1, -j; `y` = 1, -1; `M` = 0, 4. -/
theorem test_demod_two_bins :
    spectrum 1 1 [.rat 1, Num.imag] .normal 0 = [.rat 0, .rat 4] ∧
    demodBin .exact 1 1 [.rat 1, Num.imag] .normal 0 = 1 ∧
    demodLl .exact 1 1 [.rat 1, Num.imag] .normal 0 = [.rat 0, .rat 1] := by decide +kernel

/-- V10, at `SF` = 3 with two samples a chip; the window of V14, V15 with `c2` = 4, and V17 with f = -2,
scaled down alike. -/
theorem test_demod_chirps :
    demodBin .exact 3 2 (upChirpSamples 3 2 5) .normal 0 = 5 ∧ demodBin .exact 3 2 (downChirpSamples 3 2) .up 0 = 0 ∧
    demodBin .exact 3 2 (upChirpSamples 3 2 5) .normal 4 = 3 ∧
    demodBin .exact 3 2 (cfo 16 (-2) 0 (upChirpSamples 3 2 5)) .normal 0 = 3 := by decide +kernel

/-- At three samples a chip: V10 scaled down; the window one sample late (R174, the nearest bin); an offset of 4/3 bins from
the second sample on. The last two read off whole chips; their spectra, evaluated in floating point from R162 to R173, are
3, 0.80, 1, 11.2 and 0.80, 1, 11.2, 3. -/
theorem test_demod_three_per_chip :
    demodBin .exact 2 3 (upChirpSamples 2 3 3) .normal 0 = 3 ∧
    demodBin .exact 2 3 ((upChirpSamples 2 3 3).rotate 1) .normal 0 = 3 ∧
    demodBin .exact 2 3 (cfo 12 (4 / 3) 1 (upChirpSamples 2 3 1)) .normal 0 = 2 := by decide +kernel

/-- Roots of unity of orders 9, 15 and 36: the group law, the sum of all, an inverse, a sign (`2 cos 80` degrees is 0.347...). -/
theorem test_roots_of_unity :
    Num.mul (Num.unit (7 / 15)) (Num.unit (11 / 15)) = Num.unit (1 / 5) ∧
    Num.sum ((List.range 9).map fun a => Num.unit (mkRat a 9)) = .rat 0 ∧
    Num.mul (Num.add (Num.unit (5 / 36)) (.rat 2)) (Num.inv (Num.add (Num.unit (5 / 36)) (.rat 2))) = .rat 1 ∧
    Num.lt (.rat (347 / 1000)) (Num.add (Num.unit (2 / 9)) (Num.unit (-2 / 9))) = true ∧
    Num.lt (Num.add (Num.unit (2 / 9)) (Num.unit (-2 / 9))) (.rat (348 / 1000)) = true := by decide +kernel

/-- The step takes the message, the skipped samples and the window, and no more. -/
theorem test_demodH_takes_window :
    (let s := { base with regs := { base.regs with sf := 1 }, dbox := some ⟨.normal, 0, 1⟩,
                          e1 := [⟨.rat 9, .rat 9⟩, ⟨.rat 1, .rat 0⟩, ⟨.rat 0, .rat 1⟩, ⟨.rat 5, .rat 5⟩] }
     (post (execDemodH s)).e2 = [⟨1, []⟩] ∧ (post (execDemodH s)).e1 = [⟨.rat 5, .rat 5⟩] ∧
     (post (execDemodH s)).dbox = none ∧
     (post (execDemodS { s with regs := { s.regs with mode := 2 } })).e2 = [⟨1, [.rat 0, .rat 1]⟩]) := by decide +kernel

/-- V80: the sixth symbol of the chain locks, `k_lock` = 15, skip 113. V82: a broken run restarts at 1. -/
theorem test_syncSearch :
    (let r := { SyncRegs.reset with runLen := 5, driftSum := 4, prev := 14, prevV := true }
     let t := afterSym .syncSearch r 15
     t.sync.state = .preambleLocked ∧ t.sync.runLen = 6 ∧ t.sync.driftSum = 5 ∧ t.sync.kLock = 15 ∧
     t.dbox = some ⟨.normal, 0, 113⟩ ∧ (afterSym .syncSearch r 17).sync.runLen = 1) := by decide

/-- V81: the distance is circular and the drift signed. -/
theorem test_syncSearch_circular :
    (afterSym .syncSearch { SyncRegs.reset with runLen := 4, driftSum := 1, prev := 0, prevV := true } 127).sync.driftSum = 0 ∧
    (afterSym .syncSearch { SyncRegs.reset with runLen := 4, driftSum := 1, prev := 0, prevV := true } 127).sync.runLen = 5 := by
  decide

/-- V83, V84: more preamble, the first sync symbol, a miss. -/
theorem test_syncLocked :
    (let r := { SyncRegs.reset with state := .preambleLocked }
     (afterSym .syncLocked r 127).sync.state = .preambleLocked ∧ (afterSym .syncLocked r 9).sync.state = .syncWordCheck ∧
     (afterSym .syncLocked r 9).sync.syncIdx = 1 ∧ (afterSym .syncLocked r 10).sync.state = .searching ∧
     (afterSym .syncLocked r 10).regs.evt = 0) := by decide

/-- V83, V84. -/
theorem test_syncSwchk :
    (let r := { SyncRegs.reset with state := .syncWordCheck, syncIdx := 1 }
     (afterSym .syncSwchk r 15).sync.state = .sfdAlign ∧ (afterSym .syncSwchk r 15).dbox = some ⟨.up, 0, 0⟩ ∧
     (afterSym .syncSwchk r 20).sync.state = .searching) := by decide

/-- V84: windows 4 then 5, 4 then 7, 118 then 118. -/
theorem test_syncSfd :
    (let r := { SyncRegs.reset with state := .sfdAlign, sfdIdx := 1, kdn := 4 }
     (afterSym .syncSfd r 5).sync.cfo2 = 5 ∧ (afterSym .syncSfd r 5).dbox = some ⟨.normal, 5, 34⟩ ∧
     (afterSym .syncSfd r 5).sync.state = .inFrame ∧ (afterSym .syncSfd r 7).sync.state = .searching ∧
     (afterSym .syncSfd { r with kdn := 118 } 118).dbox = some ⟨.normal, 0xFF6, 27⟩) := by decide

/-- P2: the 8th header symbol raises the hold; V33's frame: the last symbol completes it. -/
theorem test_syncFrame :
    (let r := { SyncRegs.reset with state := .inFrame, symIdx := 7, fp := ⟨true, 4, 0, false, false⟩ }
     (afterSym .syncFrame r 91).sync.hdrWait = true ∧ (afterSym .syncFrame r 91).e3 = [⟨91, [], false, true, 4⟩]) ∧
    (let r := { SyncRegs.reset with state := .inFrame, symIdx := 8, symRem := 1, fp := ⟨true, 3, 3, true, false⟩ }
     (afterSym .syncFrame r 3).sync.state = .searching ∧ (afterSym .syncFrame r 3).e3 = [⟨3, [], false, false, 3⟩]) := by
  decide

/-- V1: `PARAMS(4, 1, 1)` gives 10 more symbols. R204: `ABORT(1)` sets `HDR_CHK` and counts. -/
theorem test_syncFb :
    (let s := { base with sync := { SyncRegs.reset with state := .inFrame, symIdx := 8, hdrWait := true } }
     (post (execSyncFb { s with mbox := some (.params 4 1 true) })).sync.symRem = 10 ∧
     (post (execSyncFb { s with mbox := some (.abort 1) })).regs.evt = 0x002 ∧
     (post (execSyncFb { s with mbox := some (.abort 1) })).regs.dropCnt = 1 ∧
     (post (execSyncFb { s with mbox := some (.abort 1) })).sync.state = .searching) := by decide

/-- V90. -/
theorem test_symbol_counts :
    explicitSymbols 7 4 1 true = 10 ∧ explicitSymbols 7 0 1 false = 0 ∧ explicitSymbols 8 3 3 false = 7 ∧
    explicitSymbols 9 10 2 true = 18 ∧ explicitSymbols 12 2 1 true = 5 ∧ implicitSymbols 7 1 1 false = 5 ∧
    implicitSymbols 12 3 4 true = 8 ∧ implicitSymbols 9 10 2 true = 18 := by decide

/-- V20. -/
theorem test_grayH :
    gray 4 = 6 ∧ gray 56 = 36 ∧ gray 127 = 64 ∧ gray 4095 = 2048 ∧ grayInverse 4 = 7 ∧ grayInverse 127 = 85 ∧
    (post (execGrayH { base with e3 := [⟨56, [], true, true, 4⟩] })).e4 = [⟨⟨36, []⟩, true, true, 4⟩] := by decide

/-- V21: `gl[0..6]` = -0.5, -0.7, +0.7, -0.6, -0.6, +0.7, -0.7. -/
theorem test_grayS :
    (let ll := (((List.replicate 128 (Sys2Proof.Num.rat 0)).set 56 (.rat (7 / 10))).set 57 (.rat (1 / 5))).set 40 (.rat (1 / 10))
     (post (execGrayS { base 2 with e3 := [⟨56, ll, false, false, 1⟩] })).e4 =
       [⟨⟨0, [.rat (-1 / 2), .rat (-7 / 10), .rat (7 / 10), .rat (-3 / 5), .rat (-3 / 5), .rat (7 / 10), .rat (-7 / 10)]⟩,
         false, false, 1⟩]) := by decide +kernel

/-- V31: the block of the groups 123, 127, 52, 39, 126. -/
theorem test_deintH :
    (let s := { base with e4 := [123, 127, 52, 39, 126].map fun g => ⟨⟨g, []⟩, false, false, 1⟩ }
     (times .deintH 5 s).e5 = [⟨[0x1D, 0x1B, 0x09, 0x1B, 0x1E, 0x1B, 0x1D], [], false, false, 1⟩] ∧
     (times .deintH 5 s).deint.cnt = 0) := by decide +kernel

/-- V34: a group tagged `sof` discards the partial block. V32's first probe, soft. -/
theorem test_deint_restart_and_soft :
    (let s := { base with e4 := ([1, 2, 3].map fun g => ⟨⟨g, []⟩, false, false, 1⟩) ++ [⟨⟨9, []⟩, true, true, 4⟩] }
     (times .deintH 4 s).deint.cnt = 1 ∧ (times .deintH 4 s).deint.cr = 4 ∧ (times .deintH 4 s).e5 = []) ∧
    (let one (b : Nat) : List Sys2Proof.Num := (List.replicate 7 (.rat (-1))).set b (.rat 1)
     let s := { base 2 with e4 := [0, 6, 5, 4, 3].map fun b => ⟨⟨0, one b⟩, false, false, 1⟩ }
     ((times .deintS 5 s).e5.head?.map fun b => b.cwl.getD 0 []) = some (List.replicate 5 (.rat 1))) := by decide +kernel

/-- V41. -/
theorem test_dec1 :
    dec1 0x11 = (1, .none) ∧ dec1 0x10 = (1, .uncorr) ∧ dec1 0x01 = (0, .uncorr) ∧ dec1 0x13 = (9, .uncorr) ∧
    dec1 0x09 = (2, .none) := by decide
/-- V42. -/
theorem test_dec2 :
    dec2 0x22 = (1, .none) ∧ dec2 0x23 = (1, .uncorr) ∧ dec2 0x24 = (9, .uncorr) ∧ dec2 0x3A = (7, .none) := by decide
/-- V43. -/
theorem test_dec3 :
    dec3 0x45 = (1, .none) ∧ dec3 0x44 = (1, .corrected) ∧ dec3 0x47 = (1, .corrected) ∧ dec3 0x46 = (9, .corrected) ∧
    dec3 0x7E = (15, .corrected) := by decide
/-- V44. -/
theorem test_dec4 :
    dec4 0x8B = (1, .none) ∧ dec4 0x0B = (1, .corrected) ∧ dec4 0x4B = (2, .uncorr) ∧ dec4 0x6B = (6, .corrected) ∧
    dec4 0xFC = (15, .uncorr) ∧ dec4 0x01 = (0, .corrected) := by decide

/-- V46: an uncorrectable codeword of a payload block sets `PAY_FEC`; of a header block it does not. -/
theorem test_hammCr1_block :
    (let b : CwBlock := ⟨[0x1D, 0x1B, 0x01, 0x1B, 0x1E, 0x1B, 0x1D], [], false, false, 1⟩
     (post (execHammCr1 { base with e5 := [b] })).e6 =
       [⟨[7, 11, 0, 11, 15, 11, 7], [.none, .none, .uncorr, .none, .none, .none, .none], false, false, 1⟩] ∧
     (post (execHammCr1 { base with e5 := [b] })).regs.evt = 0x010 ∧
     (post (execHammCr1 { base with e5 := [⟨b.cw, [], true, true, 1⟩] })).regs.evt = 0) := by decide

/-- The soft codeword of a word: +1 for a 1, -1 for a 0. -/
def softWord (n : Nat) (w : BitVec 8) : List Sys2Proof.Num :=
  (List.range n).map fun p => if w.getLsbD p then .rat 1 else .rat (-1)

/-- V45. -/
theorem test_hammS :
    base.decS 4 (softWord 8 0x8B) = (1, .none) ∧ base.decS 4 ((softWord 8 0x8B).set 7 (.rat (-1 / 5))) = (1, .corrected) ∧
    base.decS 4 (((softWord 8 0x8B).set 7 (.rat (-1 / 5))).set 6 (.rat (1 / 10))) = (1, .corrected) ∧
    base.decS 4 (List.replicate 8 (.rat 0)) = (0, .none) ∧ base.decS 1 ((softWord 5 0x11).set 0 (.rat (-3 / 10))) = (1, .corrected) ∧
    base.decS 3 (((softWord 7 0x45).set 0 (.rat (-1 / 2))).set 1 (.rat (2 / 5))) = (1, .corrected) := by decide +kernel

/-- A header block of the given nibbles, seven rows, status 0. -/
def hdrBlock (n : List Nibble) : NibBlock := ⟨n ++ [0, 0], List.replicate 7 .none, true, true, 4⟩

/-- V51. -/
theorem test_hdrParse_rejections :
    (hdrBlock [0, 4, 3, 0, 7]).hdrAbort = some 1 ∧ (hdrBlock [0, 4, 1, 0, 1]).hdrAbort = some 3 ∧
    (hdrBlock [0, 4, 15, 0, 0]).hdrAbort = some 3 ∧ (hdrBlock [0, 4, 3, 14, 6]).hdrAbort = none ∧
    (⟨[0, 4, 3, 0, 7, 0, 0], [.none, .uncorr, .none, .none, .none, .none, .none], true, true, 4⟩ : NibBlock).hdrAbort = some 2 := by
  decide

/-- V1: `PARAMS(4, 1, 1)`, `FSTART` and the nibbles 15, 10; an abort sends nothing on. -/
theorem test_hdrParse :
    (let s := { base with e6 := [⟨[0, 4, 3, 0, 6, 15, 10], List.replicate 7 .none, true, true, 4⟩] }
     (post (execHdrParse s)).mbox = some (.params 4 1 true) ∧
     (post (execHdrParse s)).e7 = [.fstart 4 1 true, .nib 15, .nib 10] ∧
     (post (execHdrParse { base with e6 := [hdrBlock [0, 4, 3, 0, 7]] })).e7 = []) := by decide

/-- V52. -/
theorem test_hdrPass_hdrImpl :
    (let b : NibBlock := ⟨[7, 11, 2, 11, 15, 11, 7], List.replicate 7 .none, false, false, 1⟩
     (post (execHdrPass { base with e6 := [b], hdrState := .pass })).e7 = b.nib.map .nib ∧
     (post (execHdrPass { base with e6 := [b], hdrState := .drop })).e7 = [] ∧
     (post (execHdrImpl { base 0x35 with e6 := [{ b with sof := true }] })).e7 = .fstart 4 3 true :: b.nib.map .nib) := by decide

/-- V50. -/
theorem test_header_nibbles :
    headerNibbles 255 4 true = [15, 15, 9, 0, 8] ∧ headerNibbles 16 2 true = [1, 0, 5, 1, 9] ∧
    headerNibbles 2 4 false = [0, 2, 8, 0, 12] := by decide

/-- V60. -/
theorem test_whitening :
    (List.range 12).map whitening = [0xFF, 0xFE, 0xFC, 0xF8, 0xF0, 0xE1, 0xC2, 0x85, 0x0B, 0x17, 0x2F, 0x5E] ∧
    whitening 254 = 0x7F := by decide +kernel

/-- V61. -/
theorem test_dewh_frame :
    (let t := times .dewhNib 8 (post (execDewhStart (dewh .reset (.fstart 3 3 false :: [1, 2, 3, 5, 14, 11, 0, 0].map .nib))))
     t.e8 = [.fstart 3 false, .byte 0xDE, .byte 0xAD, .byte 0x42] ∧ t.dewh.isOpen = false ∧ t.e7 = []) := by decide +kernel

/-- V62: an empty payload with CRC; without, closed at once. -/
theorem test_dewh_empty :
    (let t := times .dewhNib 4 (post (execDewhStart (dewh .reset (.fstart 0 1 true :: [0, 0, 0, 0].map .nib))))
     t.e8 = [.fstart 0 true, .byte 0, .byte 0] ∧ t.dewh.lfsr = 0xFF ∧
     (post (execDewhStart (dewh .reset [.fstart 0 1 false]))).dewh.isOpen = false) := by decide +kernel

/-- V70. -/
theorem test_crc16 :
    crc16 [0x01] = 0x1021 ∧ crc16 [0x4F, 0x4B] = 0xE45D ∧ crc16 [0x48, 0x69] = 0x79EA ∧ crc16 [0xDE, 0xAD, 0x42] = 0x7D31 ∧
    crc16Update 0x1021 0x00 = 0x3331 := by decide +kernel

/-- V71: a good frame, and the same with a wrong CRC byte. -/
theorem test_crcv_records :
    (let run (c : Byte) := times .crcvByte 6 (post (execCrcvStart
       { base with e8 := .fstart 4 true :: [0x50, 0x49, 0x4E, 0x47, c, 0xE0].map .byte }))
     (run 0xE7).e9 = [⟨4, .pass, [0x50, 0x49, 0x4E, 0x47]⟩] ∧ (run 0xE7).regs.evt = 0x001 ∧
     (run 0xE6).e9 = [⟨4, .fail, [0x50, 0x49, 0x4E, 0x47]⟩] ∧ (run 0xE6).regs.evt = 0x021) := by decide +kernel

/-- V71: `FSTART(0, 0)` is a record at once; a new `FSTART` discards an unfinished frame without a record. -/
theorem test_crcvStart :
    (post (execCrcvStart { base with e8 := [.fstart 0 false] })).e9 = [⟨0, .unverified, []⟩] ∧
    (post (execCrcvStart { base with e8 := [.fstart 0 false] })).regs.frameCnt = 1 ∧
    (post (execCrcvStart { base with crcv := { CrcvRegs.reset with isOpen := true, len := 2 }, e8 := [.fstart 1 true] })).e9 = [] := by
  decide

/-- R126, R102: the sync word 0x12 gives the bins 8 and 16. -/
theorem test_sync_word : syncWordValue 0x12 = 0x20100008 := by decide

/-- `N` = 2, three samples a chip. -/
def tinyBench : Bench :=
  .init { State.reset with regs := { HostRegs.reset with sf := 1, bw := 1, fs := 3, sync := 0x20010000 } }

/-- R124: the shorthand keeps the fields named before. R126: `FRAME` sends `SYNC_BIN1` only where `SYNC_N` = 2; `CFO` counts
samples from the most recent START, and `CFO 0` ends it. -/
theorem test_stimulus :
    tinyBench.expand [.regField .minRun 6, .regField .binTol 1] = [.regW 0x08 6, .regW 0x08 0x106] ∧
    tinyBench.core.syncBins = [0, 1] ∧ { tinyBench.core with regs := { tinyBench.core.regs with sync := 0x10010000 } }.syncBins = [0] ∧
    (tinyBench.expand [.frame 2 [1]]).length = (2 + 2 + 2 + 1) * 6 + 1 ∧
    tinyBench.expand [.silence 1, .cfo 3, .samp (.rat 1) (.rat 0), .start, .samp (.rat 1) (.rat 0), .samp (.rat 1) (.rat 0),
        .cfo 0, .samp (.rat 1) (.rat 0)] =
      [.samp (.rat 0) (.rat 0), .samp (.rat (-1)) (.rat 0), .regW 0 1, .samp (.rat 1) (.rat 0), .samp (.rat (-1)) (.rat 0),
       .samp (.rat 1) (.rat 0)] := by
  decide +kernel

/-! ### Witnesses: for every statement with hypotheses, states and operands that meet them, clause by clause -/

theorem witness_decodeOfEncode :
    (Instr.hammS 1).wellFormed = true ∧ (Instr.hammS 4).wellFormed = true ∧ Instr.crcvByte.wellFormed = true ∧
    Instr.crcvByte.mask.getLsbD 3 = false := by decide

theorem witness_decodeIsTheTable : decode 0x5308 = .ok (.hammS 3) ∧ (0x0008 : Opsel) &&& Instr.regWr.mask = encode .regWr := by
  decide

/-- A stage's turn, by the schedule, and the host's; an enabled stage operation; a `CTRL` write of each kind. -/
theorem witness_stepPerforms :
    (let s := { base with e3 := [⟨5, [], true, false, 1⟩] }
     s.pick = some (.gray, s) ∧ s.stageSelector .gray = some 0x3000 ∧ decode 0x3000 = .ok .grayH ∧
     s.env.por = false ∧ agentOf .grayH ≠ .host ∧ enabled .grayH s = true) ∧
    { base with env := { Env.reset with por := true } }.env.por = true ∧
    (let s := { State.reset with env := { Env.reset with stim := [.pop] } }
     s.pick = some (.host, s) ∧ s.env.stim = .pop :: [] ∧ (s.present .pop []).hostSelector .pop = some 0x0600 ∧
     decode 0x0600 = .ok .recPop) ∧
    ((7 : Word32).getLsbD 2 = true ∧ (3 : Word32).getLsbD 2 = false ∧ (3 : Word32).getLsbD 1 = true ∧
     (1 : Word32).getLsbD 2 = false ∧ (1 : Word32).getLsbD 1 = false ∧ (1 : Word32).getLsbD 0 = true ∧
     (8 : Word32).getLsbD 2 = false ∧ (8 : Word32).getLsbD 1 = false ∧ (8 : Word32).getLsbD 0 = false) :=
  ⟨⟨rfl, rfl, rfl, rfl, by decide, by decide⟩, rfl, ⟨rfl, rfl, rfl, rfl⟩, by decide⟩

/-- The base configuration with one line to come, and after it. -/
def popRun (k : Nat) : State := if k = 0 then { base with env := { Env.reset with stim := [.pop] } } else base

theorem popRun_inv (k : Nat) : Inv (popRun k) := by
  unfold popRun
  split <;>
  exact ⟨⟨by decide, by decide, by decide, by decide, by decide, by decide⟩,
    ⟨by decide, by decide, by decide, by decide⟩,
    ⟨by decide, fun h => absurd h (by decide), by decide, by decide, by decide, by decide, by decide, by decide, by decide⟩,
    ⟨by simp [base, State.reset], by simp [base, State.reset], by simp [base, State.reset], by simp [base, State.reset],
      by simp [base, State.reset], rfl, fun h => absurd rfl h, by decide⟩,
    ⟨by decide, fun _ => rfl⟩, ⟨by decide, by decide, by decide⟩⟩

theorem base_waits (a : Agent) : ¬Ready a base := by
  cases a <;> simp only [Ready, reduceCtorEq, if_true, if_false] <;> decide

/-- A stage enabled; none, with a line; none, with no line; a choice given. An infinite run of the reference schedule, and
the schedule it is under. -/
theorem witness_referenceSchedule :
    (let s := { base with e3 := [⟨5, [], true, false, 1⟩], e7 := [.nib 0] }
     s.env.sched = [] ∧ downstreamFirst.find? s.stageEnabled = some .dewh) ∧
    (State.reset.env.sched = [] ∧ downstreamFirst.find? State.reset.stageEnabled = none ∧ State.reset.env.stim = []) ∧
    (let s := { State.reset with env := { Env.reset with stim := [.powerOn true], sched := [.demod] } }
     s.env.sched = .demod :: [] ∧ downstreamFirst.find? s.stageEnabled = none ∧ s.env.stim ≠ []) ∧
    ((popRun 0).env.sched = [] ∧ (∀ k, Inv (popRun k)) ∧ ∀ k, step (popRun k) = .next (popRun (k + 1))) ∧
    Schedule (fun _ => .host) popRun := by
  refine ⟨by decide, by decide, by decide, ⟨rfl, popRun_inv, ?_⟩, ?_, ?_⟩
  · rintro ⟨_ | k⟩ <;> rfl
  · rintro ⟨_ | k⟩
    · exact .inl ⟨by simp [Ready, popRun], rfl⟩
    · exact .inr ⟨base_waits, rfl⟩
  · exact fun a k h => absurd (h (k + 1) (by omega)) (base_waits a)

theorem witness_notEnabled : enabled .demodH State.reset = false ∧ enabled (.hammS 5) base = false := by decide

/-- A running session in a frame: a header-block symbol waits, a payload block is half full, a byte of an open frame waits. -/
def inFrame (mode : Word32) : State :=
  { base mode with
    env := { Env.reset with stim := [.pop] }
    sync := { SyncRegs.reset with state := .inFrame, symIdx := 8, symRem := 3, fp := ⟨true, 1, 4, true, true⟩ }
    e2 := [⟨5, []⟩]
    e3 := [⟨6, [], false, false, 1⟩]
    e6 := [⟨[], [], true, true, 4⟩]
    mbox := some (.abort 3)
    deint := { DeintRegs.reset with cnt := 4, cr := 1 }
    crcv := { CrcvRegs.reset with isOpen := true, len := 4, crc := true }
    e8 := [.byte 0x50] }

theorem inFrame_inv (mode : Word32) (h : mode = 0 ∨ mode = 2) : Inv (inFrame mode) := by
  obtain rfl | rfl := h <;>
  refine ⟨⟨by decide, by decide, by decide, by decide, by decide, by decide⟩,
    ⟨by decide, by decide, by decide, by decide⟩,
    ⟨by decide, fun _ => ⟨by decide, by decide⟩, by decide, by decide, by decide, by decide, by decide, by decide, by decide⟩,
    ⟨?_, by simp [inFrame, base, State.reset], by simp [inFrame, base, State.reset], ?_, ?_, rfl,
      fun _ => ⟨⟨⟨by decide, by decide⟩, by decide⟩, by decide⟩, by decide⟩,
    ⟨by decide, fun _ => rfl⟩, ⟨by decide, by decide, fun _ => rfl⟩⟩ <;>
  simp [inFrame, base, State.reset, TagLegal, MessageLegal, CrLegal, State.impl]

/-- Hard mode, and soft mode with a line that is not `SYM`. -/
theorem witness_noStepStops :
    (Inv (inFrame 0) ∧ (inFrame 0).soft = false) ∧
    (Inv (inFrame 2) ∧ (inFrame 2).soft = true ∧ ∀ k, (inFrame 2).env.stim.head? ≠ some (.sym k)) :=
  ⟨⟨inFrame_inv 0 (.inl rfl), rfl⟩, inFrame_inv 2 (.inr rfl), rfl, fun _ h => by cases h⟩

theorem witness_stepKeepsTheInvariant : Inv (inFrame 0) ∧ ∃ t, step (inFrame 0) = .next t := ⟨inFrame_inv 0 (.inl rfl), _, rfl⟩

theorem witness_regWrStores :
    ∀ idx ∈ [0x02, 0x03, 0x04, 0x05, 0x06, 0x07, (0x08 : BitVec 6)],
      (host State.reset idx 0xFFFFFFFF).regs.run = false ∧ (host State.reset idx 0xFFFFFFFF).env.idx = idx := by decide

/-- Each refused index; a locked register at both ends of the range. -/
theorem witness_refusedWrite :
    (∀ idx ∈ [0x01, 0x0B, 0x0C, 0x0D, (0x0E : BitVec 6)], (host base idx 0).env.idx = idx) ∧
    (∀ idx ∈ [0x02, (0x08 : BitVec 6)], (host base idx 0).regs.run = true ∧ 0x02 ≤ (host base idx 0).env.idx.toNat ∧
      (host base idx 0).env.idx.toNat ≤ 0x08) := by decide

theorem witness_undefinedIndex : ∀ idx ∈ [0x0F, (0x3F : BitVec 6)], 0x0F ≤ (host base idx 0).env.idx.toNat := by decide

theorem witness_regWrInAnyMode : ∀ idx ∈ [0x09, 0x0A, (0x00 : BitVec 6)], (host base idx 7).env.idx = idx := by decide

theorem witness_regRd :
    ∀ n < 0x0F, (host base (BitVec.ofNat 6 n) 0).env.idx.toNat ≤ 0x0E ∧ (host base (BitVec.ofNat 6 n) 0).env.idx.toNat = n := by
  decide

/-- The base configuration, not running, with one field of it changed. -/
def idle (f : HostRegs → HostRegs) : State := { base with regs := f { base.regs with run := false } }

theorem witness_start :
    base.regs.run = true ∧ (State.reset.regs.run = false ∧ State.reset.configCheck ≠ 0) ∧
    ((idle id).regs.run = false ∧ (idle id).configCheck = 0) := by decide

/-- P7 and its like, each code at the edge of its condition. -/
theorem witness_configCheck :
    (idle fun r => { r with sf := 6 }).configCheck = 1 ∧ (idle fun r => { r with sf := 13 }).configCheck = 1 ∧
    (idle fun r => { r with bw := 0 }).configCheck = 2 ∧ (idle fun r => { r with fs := 125001 }).configCheck = 2 ∧
    (idle fun r => { r with bw := 1, fs := 513 }).configCheck = 2 ∧ (idle fun r => { r with bw := 1, fs := 512 }).configCheck = 0 ∧
    (idle fun r => { r with mode := 0x01 }).configCheck = 3 ∧ (idle fun r => { r with mode := 0x51 }).configCheck = 3 ∧
    (idle fun r => { r with sync := 0x00100008 }).configCheck = 4 ∧ (idle fun r => { r with sync := 0x20800008 }).configCheck = 4 ∧
    (idle fun r => { r with sync := 0x10000080 }).configCheck = 4 ∧ (idle fun r => { r with sync := 0x1FFF007F }).configCheck = 0 ∧
    (idle fun r => { r with det := 0x101 }).configCheck = 5 ∧ (idle fun r => { r with det := 0x2006 }).configCheck = 5 ∧
    (idle fun r => { r with det := 0x1F02 }).configCheck = 0 ∧
    (idle fun r => { r with mode := 0x11, paylen := 0 }).configCheck = 6 ∧
    (idle fun r => { r with mode := 0x41, paylen := 1 }).configCheck = 0 := by decide +kernel

theorem witness_stop : State.reset.regs.run = false ∧ base.regs.run = true := by decide

/-- Idle; full; one place left. -/
theorem witness_sampPush :
    State.reset.regs.run = false ∧
    (let s := { base with par := { base.par with sampDepth := 1 } }
     (s.regs.run = true ∧ s.e1.length ≠ s.par.sampDepth) ∧
     ({ s with e1 := [⟨.rat 0, .rat 0⟩] } : State).e1.length = s.par.sampDepth) := by decide

theorem witness_recPop : State.reset.e9 = [] ∧ ({ base with e9 := [⟨0, .unverified, []⟩] } : State).e9 = ⟨0, .unverified, []⟩ :: [] := by
  decide

theorem witness_irq :
    (host base 0x0A 0xFFFFFFFF).env.idx = 0x0A ∧ (host base 0x0A 0xFFFFFFFF).env.v = 0xFFFFFFFF ∧
    ({ base with regs := { base.regs with evt := 0x100, irqEn := 0x100 } } : State).irq = true := by decide

/-- A window of two samples; exactly it and the skip are held. -/
def oneWindow (mode : Word32) : State :=
  { base mode with
    regs := { (base mode).regs with sf := 1 }
    dbox := some ⟨.normal, 0, 1⟩
    e1 := List.replicate 3 ⟨.rat 0, .rat 0⟩ }

theorem witness_demodTakes :
    ∀ soft : Bool, let s := oneWindow (if soft then 2 else 0)
      s.regs.run = true ∧ s.dbox = some ⟨.normal, 0, 1⟩ ∧ s.e2 = [] ∧ 1 + s.wlen = s.e1.length ∧ s.soft = soft := by
  decide +kernel

/-- A window with a line at one sample a chip, the silent one, and an up-chirp at three. -/
theorem witness_demodComputes :
    (∀ n < 2 ^ 1, ([Sys2Proof.Num.rat 1, Num.imag].getD (n * 1) (.rat 0)).wf = true) ∧
    (∀ n < 2 ^ 1, ([Sys2Proof.Num.rat 0, .rat 0].getD (n * 1) (.rat 0)).wf = true) ∧
    ∀ n < 2 ^ 1, ((upChirpSamples 1 3 1).getD (n * 3) (.rat 0)).wf = true := by decide +kernel

theorem witness_demodScale :
    (∀ n < 2 ^ 1, ((upChirpSamples 1 3 1).getD (n * 3) (.rat 0)).wf = true) ∧
    (Sys2Proof.Num.ext 1 (.rat (1 / 2)) (.rat (-2))).wf = true ∧
    Sys2Proof.Num.ext 1 (.rat (1 / 2)) (.rat (-2)) ≠ .rat 0 := by decide +kernel

theorem unitRoot_one : unitRoot 1 = Complex.I := by
  rw [unitRoot, show Complex.I * (Real.pi : ℂ) / 2 ^ 1 = (Real.pi : ℂ) / 2 * Complex.I by ring, Complex.exp_mul_I]
  simp

theorem turn_zero : Value.turn 0 = 1 := by simp [Value.turn]

theorem turn_neg_quarter : Value.turn (-1 / 4) = -Complex.I := by
  rw [Value.turn, show Complex.I * ((2 * Real.pi * (-1 / 4) : ℝ) : ℂ) = -(Real.pi / 2) * Complex.I by push_cast; ring,
    Complex.exp_mul_I]
  simp

theorem turn_half : Value.turn (1 / 2) = -1 := by
  rw [Value.turn, show Complex.I * ((2 * Real.pi * (1/2) : ℝ) : ℂ) = Real.pi * Complex.I by push_cast; ring, Complex.exp_pi_mul_I]

theorem turn_neg_three_quarters : Value.turn (-3 / 4) = Complex.I := by
  rw [show (-3 / 4 : ℝ) = (-1 / 4 - 1 / 2) by norm_num, Value.turn]
  rw [show Complex.I * ((2 * Real.pi * (-1/4 - 1/2) : ℝ) : ℂ) = Complex.I * ((2 * Real.pi * (-1/4) : ℝ) : ℂ) - Real.pi * Complex.I by push_cast; ring,
    Complex.exp_sub, Complex.exp_pi_mul_I, show Complex.exp (Complex.I * ((2 * Real.pi * (-1/4) : ℝ) : ℂ)) = -Complex.I from turn_neg_quarter]
  simp

/-- At whole chips a chirp is the same at every `OS`. -/
theorem chirp_whole (N os v n : Nat) (h : os ≠ 0) : Value.chirp N os v (n * os) = Value.chirp N 1 v n := by
  have : ((n * os : Nat) : ℝ) / os = (n : ℝ) / (1 : Nat) := by field_simp; push_cast; ring
  simp only [Value.chirp, this]

theorem chirps : Value.chirp 2 1 1 0 = 1 ∧ Value.chirp 2 1 1 1 = Complex.I ∧ Value.chirp 2 1 0 0 = 1 ∧ Value.chirp 2 1 0 1 = -Complex.I := by
  refine ⟨?_, ?_, ?_, ?_⟩ <;> simp only [Value.chirp] <;> norm_num
  · exact turn_zero
  · rw [← neg_div]; exact turn_neg_three_quarters
  · exact turn_zero
  · rw [← neg_div]; exact turn_neg_quarter

theorem val_imag : Num.imag.val = Complex.I := by simp [Num.imag, Num.val, unitRoot_one]

/-- The window of the up-chirp of value 1, `N` = 2, three samples a chip: 1 and j at the whole chips. -/
theorem threePerChip :
    (upChirpSamples 1 3 1).getD (0 * 3) (.rat 0) = .rat 1 ∧ (upChirpSamples 1 3 1).getD (1 * 3) (.rat 0) = Num.imag := by
  decide +kernel

/-- `N` = 2, `OS` = 3: 1 and j at the whole chips are the up-chirp of value 1 and the down-chirp; both clauses. -/
theorem witness_demodAligned :
    let w := upChirpSamples 1 3 1
    (∀ n < 2 ^ 1, (w.getD (n * 3) (.rat 0)).wf = true) ∧
    (∀ n < 2 ^ 1, (w.getD (n * 3) (.rat 0)).val = 1 * Value.chirp (2 ^ 1) 3 1 (n * 3)) ∧
    ∀ n < 2 ^ 1, (w.getD (n * 3) (.rat 0)).val = 1 * (starRingEnd ℂ) (Value.chirp (2 ^ 1) 3 0 (n * 3)) := by
  obtain ⟨a, b, c, d⟩ := chirps
  obtain ⟨u, v⟩ := threePerChip
  refine ⟨by decide +kernel, ?_, ?_⟩ <;> intro n hn <;> rw [chirp_whole _ _ _ _ (by decide)] <;>
    (obtain rfl | rfl : n = 0 ∨ n = 1 := by omega) <;> simp only [u, v] <;>
    simp [val_imag, Num.val, a, b, c, d]

/-- `N` = 2, `OS` = 3, one bin of offset, the window one chip early: j and -1 at the whole chips; both clauses. -/
theorem witness_demodOffsets :
    let at' : Nat → Nat := fun m => (((m : Int) - 1 * (3 : Nat)) % (2 ^ 1 * 3 : Nat)).toNat
    let cfo : Nat → ℂ := fun m => Value.turn (((1 : Int) : ℝ) * m / (2 ^ 1 * 3 : Nat))
    let w := [Num.imag, .rat 0, .rat 0, Sys2Proof.Num.rat (-1), .rat 0, .rat 0]
    (∀ n < 2 ^ 1, (w.getD (n * 3) (.rat 0)).wf = true) ∧
    (∀ n < 2 ^ 1, (w.getD (n * 3) (.rat 0)).val = 1 * (Value.chirp (2 ^ 1) 3 1 (at' (n * 3)) * cfo (n * 3))) ∧
    ∀ n < 2 ^ 1,
      (w.getD (n * 3) (.rat 0)).val = 1 * ((starRingEnd ℂ) (Value.chirp (2 ^ 1) 3 0 (at' (n * 3))) * cfo (n * 3)) := by
  obtain ⟨a, b, c, d⟩ := chirps
  have h := turn_half
  have e (v : Nat) : Value.chirp (2 ^ 1) 3 v 3 = Value.chirp 2 1 v 1 := chirp_whole 2 3 v 1 (by decide)
  have e' (v : Nat) : Value.chirp (2 ^ 1) 3 v 0 = Value.chirp 2 1 v 0 := chirp_whole 2 3 v 0 (by decide)
  have z : Int.toNat 3 = 3 := rfl
  norm_num at h e e'
  refine ⟨by decide +kernel, ?_, ?_⟩ <;> intro n hn <;>
    (obtain rfl | rfl : n = 0 ∨ n = 1 := by omega) <;>
    norm_num [val_imag, Num.val, z, e, e', a, b, c, d, turn_zero, h]

/-- Lock at once, with `MIN_RUN` at its edge; one short of it. -/
theorem witness_syncSearch :
    (let s := { base with e2 := [⟨15, []⟩], sync := { SyncRegs.reset with runLen := 5, prev := 14, prevV := true } }
     SymWaiting s .searching ⟨15, []⟩ [] ∧ s.minRun.toNat = (s.sync.runLen + 1).toNat ∧
     cdist s.bins 15 s.sync.prev.toNat ≤ s.binTol) ∧
    (let s := { base with e2 := [⟨15, []⟩], sync := { SyncRegs.reset with runLen := 4, prev := 14, prevV := true } }
     SymWaiting s .searching ⟨15, []⟩ [] ∧ (s.sync.runLen + 1).toNat + 1 = s.minRun.toNat) := by
  refine ⟨⟨⟨rfl, rfl, rfl, rfl, rfl⟩, by decide, by decide⟩, ⟨rfl, rfl, rfl, rfl, rfl⟩, by decide⟩

/-- The synchronizer in a state, with one symbol waiting. -/
def waiting (r : SyncRegs) (k : Bin) : State := { base with sync := r, e2 := [⟨k, []⟩] }

/-- More preamble at the tolerance; the last sync symbol; the first of two; a miss, in both states. -/
theorem witness_syncWord :
    (let s := waiting { SyncRegs.reset with state := .preambleLocked } 1
     SymWaiting s .preambleLocked ⟨1, []⟩ [] ∧ cdist s.bins 1 0 = s.binTol) ∧
    (let s := waiting { SyncRegs.reset with state := .preambleLocked } 9
     SymWaiting s .preambleLocked ⟨9, []⟩ [] ∧ cdist s.bins 9 s.syncBin0.toNat = s.binTol ∧ ¬cdist s.bins 9 0 ≤ s.binTol ∧
     s.sync.syncIdx + 1 ≠ s.syncN) ∧
    (let s := waiting { SyncRegs.reset with state := .preambleLocked } 10
     SymWaiting s .preambleLocked ⟨10, []⟩ [] ∧ ¬cdist s.bins 10 0 ≤ s.binTol ∧ ¬cdist s.bins 10 s.syncBin0.toNat ≤ s.binTol) ∧
    (let s := waiting { SyncRegs.reset with state := .syncWordCheck, syncIdx := 1 } 17
     SymWaiting s .syncWordCheck ⟨17, []⟩ [] ∧ cdist s.bins 17 s.syncBin1.toNat = s.binTol ∧ s.sync.syncIdx + 1 = s.syncN) ∧
    (let s := waiting { SyncRegs.reset with state := .syncWordCheck, syncIdx := 1 } 18
     SymWaiting s .syncWordCheck ⟨18, []⟩ [] ∧ ¬cdist s.bins 18 s.syncBin1.toNat ≤ s.binTol) := by
  refine ⟨⟨⟨rfl, rfl, rfl, rfl, rfl⟩, by decide⟩, ⟨⟨rfl, rfl, rfl, rfl, rfl⟩, by decide⟩,
    ⟨⟨rfl, rfl, rfl, rfl, rfl⟩, by decide⟩, ⟨⟨rfl, rfl, rfl, rfl, rfl⟩, by decide⟩, ⟨rfl, rfl, rfl, rfl, rfl⟩, by decide⟩

/-- The first window; a second that agrees, in both header modes; a second that does not. -/
theorem witness_sfd :
    (let s := waiting { SyncRegs.reset with state := .sfdAlign } 4
     SymWaiting s .sfdAlign ⟨4, []⟩ [] ∧ s.sync.sfdIdx = 0) ∧
    (let s := waiting { SyncRegs.reset with state := .sfdAlign, sfdIdx := 1, kdn := 4 } 5
     SymWaiting s .sfdAlign ⟨5, []⟩ [] ∧ s.sync.sfdIdx = 1 ∧ cdist s.bins 5 s.sync.kdn.toNat = s.binTol ∧ s.impl = false) ∧
    (let s := { base 0x11 with sync := { SyncRegs.reset with state := .sfdAlign, sfdIdx := 1, kdn := 4 }, e2 := [⟨5, []⟩] }
     SymWaiting s .sfdAlign ⟨5, []⟩ [] ∧ s.sync.sfdIdx = 1 ∧ cdist s.bins 5 s.sync.kdn.toNat = s.binTol ∧ s.impl = true) ∧
    (let s := waiting { SyncRegs.reset with state := .sfdAlign, sfdIdx := 1, kdn := 4 } 6
     SymWaiting s .sfdAlign ⟨6, []⟩ [] ∧ s.sync.sfdIdx = 1 ∧ ¬cdist s.bins 6 s.sync.kdn.toNat ≤ s.binTol) := by
  refine ⟨⟨⟨rfl, rfl, rfl, rfl, rfl⟩, by decide⟩, ⟨⟨rfl, rfl, rfl, rfl, rfl⟩, by decide⟩,
    ⟨⟨rfl, rfl, rfl, rfl, rfl⟩, by decide⟩, ⟨rfl, rfl, rfl, rfl, rfl⟩, by decide⟩

/-- The last header symbol, with one place left in `E3`; the symbol before the last; the last. -/
theorem witness_frame :
    (let s := { waiting { SyncRegs.reset with state := .inFrame, symIdx := 7 } 5 with
                e3 := List.replicate 15 ⟨0, [], false, true, 4⟩ }
     SymWaiting s .inFrame ⟨5, []⟩ [] ∧ s.e3.length + 1 = s.par.qDepth ∧ s.impl = false ∧ s.sync.symIdx.toNat < 8) ∧
    (let s := waiting { SyncRegs.reset with state := .inFrame, symIdx := 8, symRem := 2 } 5
     SymWaiting s .inFrame ⟨5, []⟩ [] ∧ ¬s.sync.symIdx.toNat < 8 ∧ s.sync.symRem ≠ 1) ∧
    (let s := waiting { SyncRegs.reset with state := .inFrame, symIdx := 8, symRem := 1 } 5
     SymWaiting s .inFrame ⟨5, []⟩ [] ∧ ¬s.sync.symIdx.toNat < 8 ∧ s.sync.symRem = 1) := by
  refine ⟨⟨⟨rfl, rfl, rfl, rfl, rfl⟩, by decide⟩, ⟨⟨rfl, rfl, rfl, rfl, rfl⟩, by decide⟩, ⟨rfl, rfl, rfl, rfl, rfl⟩, by decide⟩

/-- In the hold, with a message: symbols left at both ends of the range, none left, an abort. -/
theorem witness_feedback :
    (let s := fun m => { base with sync := { SyncRegs.reset with state := .inFrame, symIdx := 8, hdrWait := true }, mbox := some m }
     ∀ m : MboxMsg, (s m).regs.run = true ∧ (s m).sync.state = .inFrame ∧ (s m).sync.hdrWait = true ∧ (s m).mbox = some m) ∧
    explicitSymbols base.sf 2 1 false = 5 ∧ explicitSymbols base.sf 255 4 true = 592 ∧ explicitSymbols base.sf 1 1 false = 0 :=
  ⟨fun _ => ⟨rfl, rfl, rfl, rfl⟩, by decide, by decide, by decide⟩

theorem witness_symbolCounts : CrLegal 1 ∧ CrLegal 4 ∧ 7 ≤ 12 ∧ 255 ≤ 255 := ⟨⟨by decide, by decide⟩, ⟨by decide, by decide⟩, by decide⟩

theorem witness_gray :
    (let s := { base with e3 := [⟨5, [], true, false, 1⟩], e4 := List.replicate 15 ⟨⟨0, []⟩, false, false, 1⟩ }
     s.e3 = ⟨5, [], true, false, 1⟩ :: [] ∧ s.e4.length + 1 = s.par.qDepth ∧ s.soft = false) ∧
    (base 2).soft = true := by decide

theorem witness_grayInverse : (127 : Bin).toNat < 2 ^ 7 ∧ (4095 : Bin).toNat < 2 ^ 12 := by decide

theorem witness_adjacentBins : 2 ^ 7 - 1 < 2 ^ 7 ∧ 2 ^ 12 - 1 < 2 ^ 12 := by decide

/-- `SF` = 2, bits 0 and 1, the largest entry at index 2. -/
theorem witness_softBits :
    [Sys2Proof.Num.rat 0, .rat (1 / 2), .rat 1, .rat (-3)].length = 2 ^ 2 ∧ 2 < 2 ^ 2 ∧
    (∀ x ∈ [Sys2Proof.Num.rat 0, .rat (1 / 2), .rat 1, .rat (-3)], x.wf = true ∧ x.isReal = true) ∧
    (∀ v < 4, v ≠ 2 → Sys2Proof.Num.lt ([Sys2Proof.Num.rat 0, .rat (1 / 2), .rat 1, .rat (-3)].getD v (.rat 0)) (.rat 1) = true) := by
  decide +kernel

/-- A group entering, one that starts anew by `sof`, and one that completes a block, hard and soft. -/
theorem witness_deint :
    (let it : GroupItem := ⟨⟨1, []⟩, false, false, 1⟩
     let s := fun (mode : Word32) (it : GroupItem) (n : BitVec 4) =>
       { base mode with e4 := [it], deint := { DeintRegs.reset with cnt := n, cr := 1 } }
     (∀ soft : Bool, (s (if soft then 2 else 0) it 0).soft = soft) ∧
     (s 0 it 3).e4 = it :: [] ∧ ((s 0 it 3).deint.cnt + 1).toNat ≠ 4 + (s 0 it 3).deint.cr.toNat ∧
     ((s 0 it 4).deint.cnt + 1).toNat = 4 + (s 0 it 4).deint.cr.toNat ∧ (s 0 it 4).e5.length + 1 ≤ (s 0 it 4).par.qDepth ∧
     (s 0 { it with sof := true } 4).deint.cnt ≠ 0) := by decide

theorem witness_deinterleave :
    (6 < 7 ∧ 8 ≤ 8 ∧ 7 < 8) ∧ (List.replicate 7 (0x1F : BitVec 8)).length = 7 ∧
    (∀ w ∈ List.replicate 7 (0x1F : BitVec 8), w.toNat < 2 ^ (4 + 1)) ∧
    ∀ w ∈ List.replicate 12 (0xFF : BitVec 8), w.toNat < 2 ^ (4 + 4) := by decide

/-- The head block's tag, in hard and in soft mode, `SUB` at both ends of its range. -/
theorem witness_hamming :
    ∀ cr ∈ [1, 2, 3, (4 : BitVec 3)],
      let s := { base with e5 := [⟨[], [], false, false, cr⟩] }
      (∃ b rest, s.e5 = b :: rest ∧ b.cr = cr) ∧ s.e6.length + 1 ≤ s.par.qDepth ∧ s.soft = false ∧ (base 2).soft = true ∧
      1 ≤ cr.toNat ∧ cr.toNat ≤ 4 := by
  intro cr h
  simp only [List.mem_cons, List.not_mem_nil, or_false] at h
  obtain rfl | rfl | rfl | rfl := h <;> exact ⟨⟨_, _, rfl, rfl⟩, by decide, rfl, rfl, by decide, by decide⟩

theorem witness_softDecoding :
    State.reset.par.num = .exact ∧ (softWord 5 0x11).length = 4 + 1 ∧ (softWord 8 0x8B).length = 4 + 4 ∧
    ∀ x ∈ softWord 8 0x8B, x.wf = true ∧ x.isReal = true := by decide +kernel

/-- The four outcomes of a header block, with exactly the room `E7` needs. -/
theorem witness_hdrParse :
    (let s := fun b => { base with e6 := [b], e7 := List.replicate 13 (.nib 0) }
     ∀ b : NibBlock, (s b).impl = false ∧ (s b).e6 = b :: [] ∧ (s b).mbox = none ∧
       (s b).e7.length + (1 + ((s b).sf - 5)) = (s b).par.qDepth) ∧
    (hdrBlock [0, 4, 3, 0, 6]).hdr = true ∧ CwStatus.uncorr ∉ (hdrBlock [0, 4, 3, 0, 6]).st ∧
    CwStatus.uncorr ∈ ({ hdrBlock [0, 4, 3, 0, 7] with st := [.uncorr] } : NibBlock).st ∧
    (7 : BitVec 5) ≠ headerChk 0 4 3 ∧ (6 : BitVec 5) = headerChk 0 4 3 ∧ (1 : BitVec 5) = headerChk 0 4 1 ∧
    ¬(1 ≤ ((1 : Nibble).extractLsb' 1 3).toNat) := by
  refine ⟨fun b => ⟨(by decide : base.impl = false), rfl, rfl, rfl⟩, by decide⟩

/-- Explicit mode, in and outside `PASS`; implicit mode, with and without `sof`; exactly the room `E7` needs. -/
theorem witness_hdrPass :
    (let s := fun (mode : Word32) (b : NibBlock) (st : HdrState) (n : Nat) =>
       { base mode with e6 := [b], hdrState := st, e7 := List.replicate n (.nib 0) }
     let b : NibBlock := ⟨[], [], false, false, 1⟩
     (s 0 b .pass 9).impl = false ∧ b.hdr = false ∧ (s 0 b .pass 9).e7.length + (s 0 b .pass 9).sf = (s 0 b .pass 9).par.qDepth ∧
     (s 0 b .pass 9).hdrState = .pass ∧ (s 0 b .drop 9).hdrState ≠ .pass ∧ (s 0x11 b .pass 8).impl = true ∧
     (s 0x11 b .pass 8).e7.length + (1 + (s 0x11 b .pass 8).sf) = (s 0x11 b .pass 8).par.qDepth ∧
     ({ b with sof := true } : NibBlock).sof = true ∧ b.sof = false) := by decide

theorem witness_headerChecksum :
    3 < 4 ∧ headerChk 0 4 3 ^^^ headerChk (0 ^^^ (1 <<< 3)) 4 3 ∈
      [headerChk 0 4 3 ^^^ headerChk (0 ^^^ (1 <<< 3)) 4 3, headerChk 0 4 3 ^^^ headerChk 0 (4 ^^^ (1 <<< 3)) 3] := by decide

/-- Legal rates at both ends, a corrected codeword; the header of V1, ignored bits set, with exactly the room `E7` needs. -/
theorem witness_headerFields :
    (CrLegal (1 : BitVec 3).toNat ∧ CrLegal (4 : BitVec 3).toNat ∧ CwStatus.uncorr ∉ [CwStatus.corrected]) ∧
    (let h := headerNibbles 4 1 true
     let b : NibBlock := ⟨h.set 3 (h.getD 3 0 ||| ((7 : BitVec 3) ++ (0 : BitVec 1))) ++ [15, 10], [], true, true, 4⟩
     let s := { base with e6 := [b], e7 := List.replicate 13 (.nib 0) }
     s.impl = false ∧ s.e6 = b :: [] ∧ s.mbox = none ∧ s.e7.length + (1 + (s.sf - 5)) = s.par.qDepth) :=
  ⟨⟨⟨by decide, by decide⟩, ⟨by decide, by decide⟩, by decide⟩, by decide⟩

/-- An `FSTART`; a nibble closed, low, high of a payload byte, high of the last byte (of the CRC). -/
theorem witness_dewh :
    (let s := fun (it : E7Item) (o v : Bool) (n : BitVec 9) =>
       { dewh { DewhRegs.reset with isOpen := o, nibV := v, byteIdx := n, len := 1, crc := true } [it] with
         e8 := List.replicate 15 (.byte 0) }
     (s (.fstart 1 1 true) false false 0).e8.length + 1 = (s (.fstart 1 1 true) false false 0).par.qDepth ∧
     (s (.fstart 1 1 true) false false 0).e7 = .fstart 1 1 true :: [] ∧ (s (.nib 5) false false 0).e7 = .nib 5 :: [] ∧
     (s (.nib 5) false false 0).dewh.isOpen = false ∧
     ((s (.nib 5) true false 0).dewh.isOpen = true ∧ (s (.nib 5) true false 0).dewh.nibV = false) ∧
     ((s (.nib 5) true true 0).dewh.nibV = true ∧ (s (.nib 5) true true 0).dewh.byteIdx.toNat < (s (.nib 5) true true 0).dewh.len.toNat) ∧
     ((s (.nib 5) true true 2).dewh.nibV = true ∧ ¬(s (.nib 5) true true 2).dewh.byteIdx.toNat < (s (.nib 5) true true 2).dewh.len.toNat ∧
      ((s (.nib 5) true true 2).dewh.byteIdx + 1).toNat = (s (.nib 5) true true 2).dewh.len.toNat + 2 * bitNat (s (.nib 5) true true 2).dewh.crc)) := by
  decide

/-- One payload byte and a CRC, through `DEWH.NIB`. -/
theorem witness_dewhFrame :
    (let s := dewh { DewhRegs.reset with isOpen := true, len := 1, crc := true }
       ([0xAF, 0xE7, 0xE0].flatMap fun b : Byte => [E7Item.nib (b.extractLsb' 0 4), E7Item.nib (b.extractLsb' 4 4)])
     s.dewh.isOpen = true ∧ s.dewh.nibV = false ∧ s.dewh.byteIdx = 0 ∧ s.dewh.lfsr = 0xFF ∧
     [0xAF, 0xE7, (0xE0 : Byte)].length = s.dewh.len.toNat + 2 * bitNat s.dewh.crc ∧
     s.e7 = ([0xAF, 0xE7, 0xE0].flatMap fun b : Byte => [E7Item.nib (b.extractLsb' 0 4), E7Item.nib (b.extractLsb' 4 4)]) ++ [] ∧
     s.e8.length + 3 ≤ s.par.qDepth) := by decide

/-- A frame with bytes, and one with none and one place left in `E9`. -/
theorem witness_crcvStart :
    (let s := fun (len : Byte) => { base with e8 := [.fstart len false], e9 := List.replicate 3 ⟨0, .unverified, []⟩ }
     (s 1).e8 = .fstart 1 false :: [] ∧ (1 : Byte).toNat + 2 * bitNat false ≠ 0 ∧
     (s 0).e8 = .fstart 0 false :: [] ∧ (0 : Byte).toNat + 2 * bitNat false = 0 ∧ (s 0).e9.length + 1 = (s 0).par.recDepth) := by
  decide

/-- The Verifier with a byte waiting, `n` of 1 + 2 bytes taken. -/
def crcvAt (o : Bool) (n : BitVec 9) : State :=
  { base with
    e8 := [.byte 0x50]
    crcv := { CrcvRegs.reset with isOpen := o, payCnt := n, len := 1, crc := true }
    e9 := List.replicate 3 ⟨0, .unverified, []⟩ }

/-- Closed; a payload byte; the low CRC byte; the high one, the last, with one place left in `E9`. -/
theorem witness_crcvByte :
    (∀ n, (crcvAt true n).e8 = .byte 0x50 :: [] ∧ (crcvAt true n).crcv.pay.wf = true ∧ (crcvAt true n).crcv.isOpen = true) ∧
    (crcvAt false 0).crcv.isOpen = false ∧ (crcvAt true 0).crcv.payCnt.toNat < (crcvAt true 0).crcv.len.toNat ∧
    (crcvAt true 1).crcv.payCnt.toNat = (crcvAt true 1).crcv.len.toNat ∧
    ((crcvAt true 2).crcv.payCnt.toNat + 1 = (crcvAt true 2).crcv.len.toNat + 2 * bitNat (crcvAt true 2).crcv.crc ∧
     (crcvAt true 2).e9.length + 1 = (crcvAt true 2).par.recDepth) :=
  ⟨fun _ => ⟨rfl, rfl, rfl⟩, by decide⟩

theorem witness_crcSingleBit : 0 < [(0x50 : Byte)].length ∧ 7 < 8 := by decide

/-- One payload byte and a CRC, through `CRCV.BYTE`. -/
theorem witness_crcvFrame :
    (let s := { crcvAt true 0 with e8 := [0x50, 0xF5, (0x5A : Byte)].map E8Item.byte }
     s.crcv.isOpen = true ∧ s.crcv.payCnt = 0 ∧ s.crcv.acc = 0 ∧ s.crcv.pay.wf = true ∧
     [0x50, 0xF5, (0x5A : Byte)].length = s.crcv.len.toNat + 2 * bitNat s.crcv.crc ∧
     s.e8 = [0x50, 0xF5, (0x5A : Byte)].map E8Item.byte ++ [] ∧ s.e9.length + 1 ≤ s.par.recDepth) := by decide

/-- A payload store, and a write of `CTRL` that is no SRESET, while `RUN` = 1; the message in `MBOX` is legal. -/
theorem witness_wholeMachine :
    (∃ t, exec .crcvByte (inFrame 0) = .next t) ∧ ¬IsSreset .crcvByte (inFrame 0) ∧ (inFrame 0).regs.run = true ∧
    (inFrame 0).crcv.payCnt.toNat < (inFrame 0).crcv.len.toNat ∧ (∀ m ∈ (inFrame 0).mbox, MessageLegal m) ∧
    ¬IsSreset .regWr (host (inFrame 0) 0 3) :=
  ⟨⟨_, rfl⟩, by simp [IsSreset], rfl, by decide, (inFrame_inv 0 (.inl rfl)).flight.message, by simp [IsSreset, host]⟩

end Sys2Proof.Tests
end

section
/-! What one operation does, said once for all 31: its effect where it is enabled, nothing at all where it is not
(20_memory.md R76). -/

namespace Sys2Proof.Machine

/-- The registers of the CRC Verifier after a byte of an open frame (48_crc.md R294), with no fault in the way. -/
def CrcvRegs.taken (r : CrcvRegs) (b : Byte) : CrcvRegs :=
  if r.payCnt.toNat < r.len.toNat then
    { r with pay := r.pay.write r.payCnt.toNat b, acc := crc16Update r.acc b, payCnt := r.payCnt + 1 }
  else if r.payCnt.toNat = r.len.toNat then { r with rx := r.rx.extractLsb' 8 8 ++ b, payCnt := r.payCnt + 1 }
  else { r with rx := b ++ r.rx.extractLsb' 0 8, payCnt := r.payCnt + 1 }

theorem CrcvRegs.take_eq_ok (r : CrcvRegs) (b : Byte) : r.take b = .ok (r.taken b) := r.take_spec b

/-- The CRC Verifier after the byte `b` left `E8` (48_crc.md R294): outside a frame it is dropped, and the last byte of a frame
finishes it. -/
def State.crcvByteNext (s : State) (b : Byte) (rest : List E8Item) : State :=
  let t := { s with e8 := rest, crcv := s.crcv.taken b }
  if s.crcv.isOpen = false then { s with e8 := rest }
  else if (s.crcv.taken b).payCnt.toNat = frameBytes (s.crcv.taken b).len (s.crcv.taken b).crc then t.finish
  else t

/-- The effect of the step of `CRCV.BYTE`. -/
def State.crcvByteEffect (s : State) : State :=
  match s.e8 with
  | .byte b :: rest => s.crcvByteNext b rest
  | _ => s

theorem State.crcvByteEffect_cons {s : State} {b : Byte} {rest : List E8Item} (h : s.e8 = .byte b :: rest) :
    s.crcvByteEffect = s.crcvByteNext b rest := by
  simp [State.crcvByteEffect, h]

/-- The step of `CRCV.BYTE` answers its effect: no store is past `PAY`. -/
theorem State.crcvByteStep_eq (s : State) : s.crcvByteStep = .next s.crcvByteEffect := by
  unfold State.crcvByteStep
  split
  · rename_i b rest h
    simp only [State.crcvByteEffect_cons h, State.crcvByteNext, CrcvRegs.take_eq_ok]
    split <;> rfl
  · rename_i h
    unfold State.crcvByteEffect
    split
    · exact absurd ‹_› (h _ _)
    · rfl

/-- What the operation `i` makes of a state in which it is enabled. -/
def effect (i : Instr) (s : State) : State :=
  match i with
  | .regWr => s.regWrite s.env.idx s.env.v
  | .regRd =>
    let t := { s with env := { s.env with rdData := s.regRead s.env.idx } }
    if 0x0E < s.env.idx.toNat then t.raise .busErr else t
  | .start => s.startCmd
  | .stop => s.stopCmd
  | .sreset => s.sresetCmd
  | .sampPush =>
    if s.regs.run = false then s
    else if s.e1.length = s.par.sampDepth then s.raise .ovf
    else { s with e1 := s.e1 ++ [⟨s.env.i, s.env.q⟩] }
  | .recPop => { s with env := { s.env with recOut := s.e9.head? }, e9 := s.e9.tail }
  | .demodH => s.demodStep false
  | .demodS => s.demodStep true
  | .syncSearch => s.symStep fun t e => t.searchStep e.bin
  | .syncLocked => s.symStep fun t e => t.lockedStep e.bin
  | .syncSwchk => s.symStep fun t e => t.syncCheck e.bin
  | .syncSfd => s.symStep fun t e => t.sfdStep e.bin
  | .syncFrame => s.symStep fun t e => t.frameStep e
  | .syncFb => s.mbox.elim s s.fbStep
  | .grayH => s.grayStep fun it => ⟨gray it.bin, []⟩
  | .grayS =>
    s.grayStep fun it => ⟨0, (List.range s.sf).map fun b => s.soften (softBit s.sf it.ll b) (Config.softGray s.sf it.ll b)⟩
  | .deintH => s.deintStep fun r => r.hardBlock s.sf
  | .deintS => s.deintStep fun r => r.softBlock s.sf
  | .hammCr1 => s.hammStep (s.hardRows dec1)
  | .hammCr2 => s.hammStep (s.hardRows dec2)
  | .hammCr3 => s.hammStep (s.hardRows dec3)
  | .hammCr4 => s.hammStep (s.hardRows dec4)
  | .hammS _ => s.hammStep s.softRows
  | .hdrParse => s.parseStep
  | .hdrPass => s.passStep
  | .hdrImpl => s.implStep
  | .dewhStart => s.dewhStartStep
  | .dewhNib => s.dewhNibStep
  | .crcvStart => s.crcvStartStep
  | .crcvByte => s.crcvByteEffect

theorem execSyncFb_eq (s : State) : execSyncFb s = ifEnabled (canSyncFb s) s (s.mbox.elim s s.fbStep) := by
  unfold execSyncFb
  cases s.mbox <;> rfl

theorem execCrcvByte_eq (s : State) : execCrcvByte s = ifEnabled (canCrcvByte s) s s.crcvByteEffect := by
  unfold execCrcvByte ifEnabled
  rw [State.crcvByteStep_eq]
  split <;> rfl

/-- Every operation answers its effect where it is enabled, and the state as it is where it is not (20_memory.md R76,
70_reset_and_hazards.md R352). -/
theorem exec_eq_ifEnabled (i : Instr) (s : State) : exec i s = ifEnabled (enabled i s) s (effect i s) := by
  cases i with
  | syncFb => exact execSyncFb_eq s
  | crcvByte => exact execCrcvByte_eq s
  | _ => rfl

theorem exec_of_not_enabled {i : Instr} {s : State} (h : enabled i s = false) : exec i s = .next s := by
  rw [exec_eq_ifEnabled, h, ifEnabled_false]

theorem exec_of_enabled {i : Instr} {s : State} (h : enabled i s = true) : exec i s = .next (effect i s) := by
  rw [exec_eq_ifEnabled, h, ifEnabled_true]

end Sys2Proof.Machine
end

section
/-! The choices still to come (`env.sched`) steer nothing but whose turn it is: no operation and no turn reads or writes them. -/

namespace Sys2Proof.Machine

/-- The state with the choices `l` still to come. -/
def State.withSched (s : State) (l : List Agent) : State := { s with env := { s.env with sched := l } }

@[simp] theorem State.withSched_self (s : State) : s.withSched s.env.sched = s := rfl
@[simp] theorem State.withSched_sched (s : State) (l : List Agent) : (s.withSched l).env.sched = l := rfl
@[simp] theorem State.withSched_stim (s : State) (l : List Agent) : (s.withSched l).env.stim = s.env.stim := rfl
@[simp] theorem State.withSched_dbox (s : State) (l : List Agent) : (s.withSched l).dbox = s.dbox := rfl
@[simp] theorem State.withSched_mbox (s : State) (l : List Agent) : (s.withSched l).mbox = s.mbox := rfl
@[simp] theorem State.withSched_e2 (s : State) (l : List Agent) : (s.withSched l).e2 = s.e2 := rfl
@[simp] theorem State.withSched_e3 (s : State) (l : List Agent) : (s.withSched l).e3 = s.e3 := rfl
@[simp] theorem State.withSched_e4 (s : State) (l : List Agent) : (s.withSched l).e4 = s.e4 := rfl
@[simp] theorem State.withSched_e5 (s : State) (l : List Agent) : (s.withSched l).e5 = s.e5 := rfl
@[simp] theorem State.withSched_e6 (s : State) (l : List Agent) : (s.withSched l).e6 = s.e6 := rfl
@[simp] theorem State.withSched_e7 (s : State) (l : List Agent) : (s.withSched l).e7 = s.e7 := rfl
@[simp] theorem State.withSched_e8 (s : State) (l : List Agent) : (s.withSched l).e8 = s.e8 := rfl

/-! ### Operations of the host -/

theorem State.startCmd_withSched (s : State) (l : List Agent) : (s.withSched l).startCmd = s.startCmd.withSched l := by
  simp only [State.startCmd, apply_ite (State.withSched · l)]
  rfl

theorem State.stopCmd_withSched (s : State) (l : List Agent) : (s.withSched l).stopCmd = s.stopCmd.withSched l := by
  simp only [State.stopCmd, apply_ite (State.withSched · l)]
  rfl

theorem State.command_withSched (s : State) (l : List Agent) (v : Word32) :
    (s.withSched l).command v = (s.command v).withSched l := by
  simp only [State.command, State.startCmd_withSched, State.stopCmd_withSched, apply_ite (State.withSched · l)]
  rfl

theorem State.regWrite_withSched (s : State) (l : List Agent) (idx : BitVec 6) (v : Word32) :
    (s.withSched l).regWrite idx v = (s.regWrite idx v).withSched l := by
  simp only [State.regWrite, State.command_withSched, apply_ite (State.withSched · l)]
  rfl

/-! ### Steps of the stages -/

theorem State.demodStep_withSched (s : State) (l : List Agent) (b : Bool) :
    (s.withSched l).demodStep b = (s.demodStep b).withSched l := by
  cases h : s.dbox <;> simp only [State.demodStep, State.withSched_dbox, h]
  rfl

/-- A symbol step does not read the choices where its part on the event does not. -/
theorem State.symStep_withSched (s : State) (l : List Agent) (f : State → SymEvt → State)
    (hf : ∀ t e, f (State.withSched t l) e = (f t e).withSched l) :
    (s.withSched l).symStep f = (s.symStep f).withSched l := by
  cases h : s.e2 with
  | nil => simp only [State.symStep, State.withSched_e2, h]
  | cons e rest =>
    rw [State.symStep_cons h, State.symStep_cons (s := s.withSched l) h]
    exact hf { s with e2 := rest } e

theorem State.searchStep_withSched (s : State) (l : List Agent) (k : Bin) :
    (s.withSched l).searchStep k = (s.searchStep k).withSched l := by
  simp only [State.searchStep, apply_ite (State.withSched · l)]
  rfl

theorem State.syncCheck_withSched (s : State) (l : List Agent) (k : Bin) :
    (s.withSched l).syncCheck k = (s.syncCheck k).withSched l := by
  simp only [State.syncCheck, apply_ite (State.withSched · l)]
  rfl

theorem State.lockedStep_withSched (s : State) (l : List Agent) (k : Bin) :
    (s.withSched l).lockedStep k = (s.lockedStep k).withSched l := by
  simp only [State.lockedStep, State.syncCheck_withSched, apply_ite (State.withSched · l)]
  rfl

theorem State.sfdStep_withSched (s : State) (l : List Agent) (k : Bin) :
    (s.withSched l).sfdStep k = (s.sfdStep k).withSched l := by
  simp only [State.sfdStep, apply_ite (State.withSched · l)]
  rfl

theorem State.frameStep_withSched (s : State) (l : List Agent) (e : SymEvt) :
    (s.withSched l).frameStep e = (s.frameStep e).withSched l := by
  simp only [State.frameStep, apply_ite (State.withSched · l)]
  rfl

theorem State.fbStep_withSched (s : State) (l : List Agent) (m : MboxMsg) :
    (s.withSched l).fbStep m = (s.fbStep m).withSched l := by
  cases m <;> rfl

theorem State.grayStep_withSched (s : State) (l : List Agent) (f : SymItem → Group) :
    (s.withSched l).grayStep f = (s.grayStep f).withSched l := by
  cases h : s.e3 <;> simp only [State.grayStep, State.withSched_e3, h]
  rfl

theorem State.deintStep_withSched (s : State) (l : List Agent) (f : DeintRegs → CwBlock) :
    (s.withSched l).deintStep f = (s.deintStep f).withSched l := by
  cases h : s.e4 <;> simp only [State.deintStep, State.withSched_e4, h, apply_ite (State.withSched · l)]
  rfl

theorem State.hammStep_withSched (s : State) (l : List Agent) (f : CwBlock → List (Nibble × CwStatus)) :
    (s.withSched l).hammStep f = (s.hammStep f).withSched l := by
  cases h : s.e5 <;> simp only [State.hammStep, State.withSched_e5, h, apply_ite (State.withSched · l)]
  rfl

theorem State.parseStep_withSched (s : State) (l : List Agent) :
    (s.withSched l).parseStep = s.parseStep.withSched l := by
  cases h : s.e6 with
  | nil => simp only [State.parseStep, State.withSched_e6, h]
  | cons b rest =>
    simp only [State.parseStep, State.withSched_e6, h]
    cases b.hdrAbort <;> rfl

theorem State.passStep_withSched (s : State) (l : List Agent) : (s.withSched l).passStep = s.passStep.withSched l := by
  cases h : s.e6 <;> simp only [State.passStep, State.withSched_e6, h]
  rfl

theorem State.implStep_withSched (s : State) (l : List Agent) : (s.withSched l).implStep = s.implStep.withSched l := by
  cases h : s.e6 <;> simp only [State.implStep, State.withSched_e6, h]
  rfl

theorem State.dewhStartStep_withSched (s : State) (l : List Agent) :
    (s.withSched l).dewhStartStep = s.dewhStartStep.withSched l := by
  rcases h : s.e7 with _ | ⟨_ | _, rest⟩ <;> simp only [State.dewhStartStep, State.withSched_e7, h]
  rfl

theorem State.dewhNibStep_withSched (s : State) (l : List Agent) :
    (s.withSched l).dewhNibStep = s.dewhNibStep.withSched l := by
  rcases h : s.e7 with _ | ⟨_ | _, rest⟩ <;>
    simp only [State.dewhNibStep, State.withSched_e7, h, apply_ite (State.withSched · l)]
  rfl

theorem State.finish_withSched (s : State) (l : List Agent) : (s.withSched l).finish = s.finish.withSched l := by
  simp only [State.finish_eq]
  rfl

theorem State.crcvStartStep_withSched (s : State) (l : List Agent) :
    (s.withSched l).crcvStartStep = s.crcvStartStep.withSched l := by
  rcases h : s.e8 with _ | ⟨_ | _, rest⟩ <;>
    simp only [State.crcvStartStep, State.withSched_e8, h, apply_ite (State.withSched · l), ← State.finish_withSched]
  rfl

theorem State.crcvByteEffect_withSched (s : State) (l : List Agent) :
    (s.withSched l).crcvByteEffect = s.crcvByteEffect.withSched l := by
  rcases h : s.e8 with _ | ⟨_ | _, rest⟩ <;>
    simp only [State.crcvByteEffect, State.crcvByteNext, State.withSched_e8, h, apply_ite (State.withSched · l),
      ← State.finish_withSched]
  rfl

/-! ### Every operation, every turn -/

theorem enabled_withSched (i : Instr) (s : State) (l : List Agent) : enabled i (s.withSched l) = enabled i s := by
  cases i <;> rfl

theorem effect_withSched (i : Instr) (s : State) (l : List Agent) :
    effect i (s.withSched l) = (effect i s).withSched l := by
  cases i with
  | regWr => exact s.regWrite_withSched l _ _
  | regRd => simp only [effect, apply_ite (State.withSched · l)]; rfl
  | start => exact s.startCmd_withSched l
  | stop => exact s.stopCmd_withSched l
  | sreset => rfl
  | sampPush => simp only [effect, apply_ite (State.withSched · l)]; rfl
  | recPop => rfl
  | demodH | demodS => exact s.demodStep_withSched l _
  | syncSearch => exact s.symStep_withSched l (fun t e => t.searchStep e.bin) fun t e => t.searchStep_withSched l e.bin
  | syncLocked => exact s.symStep_withSched l (fun t e => t.lockedStep e.bin) fun t e => t.lockedStep_withSched l e.bin
  | syncSwchk => exact s.symStep_withSched l (fun t e => t.syncCheck e.bin) fun t e => t.syncCheck_withSched l e.bin
  | syncSfd => exact s.symStep_withSched l (fun t e => t.sfdStep e.bin) fun t e => t.sfdStep_withSched l e.bin
  | syncFrame => exact s.symStep_withSched l (fun t e => t.frameStep e) fun t e => t.frameStep_withSched l e
  | syncFb =>
    cases h : s.mbox with
    | none => simp only [effect, State.withSched_mbox, h, Option.elim]
    | some m => simpa only [effect, State.withSched_mbox, h, Option.elim] using s.fbStep_withSched l m
  | grayH | grayS => exact s.grayStep_withSched l _
  | deintH => exact s.deintStep_withSched l fun r => r.hardBlock s.sf
  | deintS => exact s.deintStep_withSched l fun r => r.softBlock s.sf
  | hammCr1 | hammCr2 | hammCr3 | hammCr4 | hammS => exact s.hammStep_withSched l _
  | hdrParse => exact s.parseStep_withSched l
  | hdrPass => exact s.passStep_withSched l
  | hdrImpl => exact s.implStep_withSched l
  | dewhStart => exact s.dewhStartStep_withSched l
  | dewhNib => exact s.dewhNibStep_withSched l
  | crcvStart => exact s.crcvStartStep_withSched l
  | crcvByte => exact s.crcvByteEffect_withSched l

theorem exec_withSched {i : Instr} {s t : State} (h : exec i s = .next t) (l : List Agent) :
    exec i (s.withSched l) = .next (t.withSched l) := by
  rw [exec_eq_ifEnabled, ifEnabled_eq_next] at h
  rw [exec_eq_ifEnabled, enabled_withSched, effect_withSched]
  obtain ⟨he, rfl⟩ | ⟨he, rfl⟩ := h <;> rw [he] <;> rfl

theorem perform_withSched {w : Opsel} {s t : State} (h : perform w s = .next t) (l : List Agent) :
    perform w (s.withSched l) = .next (t.withSched l) := by
  unfold perform at h ⊢
  split at h
  · exact exec_withSched h l
  · cases h

theorem State.present_withSched (s : State) (line : Stim) (rest : List Stim) (l : List Agent) :
    (s.withSched l).present line rest = (s.present line rest).withSched l := by
  cases line <;> rfl

theorem State.benchSym_withSched {s t : State} {k : Bin} (h : s.benchSym k = .next t) (l : List Agent) :
    (s.withSched l).benchSym k = .next (t.withSched l) := by
  unfold State.benchSym at h ⊢
  split at h
  · cases h; exact if_pos ‹_›
  · split at h
    · cases h
    · cases h
      rw [if_neg (by assumption), if_neg (by assumption)]
      simp only [apply_ite (State.withSched · l)]
      rfl

theorem State.powerOnReset_withSched (s : State) (b : Bool) (l : List Agent) :
    (s.withSched l).powerOnReset b = (s.powerOnReset b).withSched l := by
  cases b <;> rfl

theorem State.hostSelector_withSched (s : State) (line : Stim) (l : List Agent) :
    (s.withSched l).hostSelector line = s.hostSelector line := rfl

theorem State.stageSelector_withSched (s : State) (a : Agent) (l : List Agent) :
    (s.withSched l).stageSelector a = s.stageSelector a := by
  cases a <;> rfl

end Sys2Proof.Machine
end

section
/-! Turns of agents: what forms the descriptor, what an agent with no step to take does, and that no turn reads or writes the
choices still to come. -/

namespace Sys2Proof.Machine

open Sys2Proof.Safety

/-! ### The descriptor of a stage names no host operation (30_encoding.md R120, R121) -/

theorem opselStage_descriptor (s : State) (stage sub : BitVec 4) : opselStage (s.descriptor stage sub) = stage := by
  unfold opselStage State.descriptor
  ext i hi
  rw [BitVec.getElem_extractLsb', BitVec.getLsbD_append, BitVec.getLsbD_append, BitVec.getLsbD_append, BitVec.getLsbD_append,
    if_neg (by omega), if_neg (by omega), if_neg (by omega), if_neg (by omega), BitVec.getLsbD_eq_getElem (by omega)]
  congr 1
  omega

theorem State.opselStage_of_inputSelector {s : State} {a : Agent} {w : Opsel} (h : s.inputSelector a = some w) :
    opselStage w ≠ 0 := by
  have hstage : ∃ stage sub : BitVec 4, stage ≠ 0 ∧ s.descriptor stage sub = w := by
    cases a with
    | host => cases h
    | demod | gray | deint | hamm | hdr =>
      simp only [State.inputSelector] at h
      split at h <;> cases h
      exact ⟨_, _, by decide, rfl⟩
    | sync =>
      simp only [State.inputSelector] at h
      split at h <;> split at h <;> cases h
      · exact ⟨_, _, by decide, rfl⟩
      · exact ⟨_, _, by decide, rfl⟩
    | dewh | crcv =>
      simp only [State.inputSelector] at h
      split at h <;> cases h
      · exact ⟨_, _, by decide, rfl⟩
      · exact ⟨_, _, by decide, rfl⟩
  obtain ⟨stage, sub, hne, rfl⟩ := hstage
  rwa [opselStage_descriptor]

theorem rows_of_host : ∀ r ∈ rows, agentOf r.op = .host → r.mask = 0xFFF7 ∧ opselStage r.val = 0 := by decide

/-- A word that names an operation of the host has `STAGE` 0. -/
theorem opselStage_of_decode_host {w : Opsel} {i : Instr} (h : decode w = .ok i) (hi : agentOf i = .host) :
    opselStage w = 0 := by
  unfold decode at h
  split at h
  · rename_i r hr
    cases h
    obtain ⟨hmask, hval⟩ := rows_of_host r (List.mem_of_find?_eq_some hr) hi
    have hw : w &&& r.mask = r.val := by simpa using List.find?_some hr
    rw [← hval, ← hw, hmask]
    unfold opselStage
    rw [BitVec.extractLsb'_and]
    exact (BitVec.and_allOnes).symm
  · split at h <;> cases h
    cases hi

theorem State.not_host_of_stageSelector {s : State} {a : Agent} {w : Opsel} {i : Instr} (hw : s.stageSelector a = some w)
    (hd : decode w = .ok i) : agentOf i ≠ .host := by
  intro hi
  unfold State.stageSelector at hw
  split at hw
  · cases hw
  · exact State.opselStage_of_inputSelector hw (opselStage_of_decode_host hd hi)

/-! ### The turn of one agent -/

theorem State.stageSelector_host (s : State) : s.stageSelector .host = none := by
  unfold State.stageSelector
  split <;> rfl

theorem agentRun_of_selected {a : Agent} {s : State} {w : Opsel} (h : s.stageSelector a = some w) :
    agentRun a s = perform w s := by
  cases a with
  | host => rw [State.stageSelector_host] at h; cases h
  | _ => simp only [agentRun, h]

theorem agentRun_of_unselected {a : Agent} {s : State} (ha : a ≠ .host) (h : s.stageSelector a = none) :
    agentRun a s = .next s := by
  cases a with
  | host => exact absurd rfl ha
  | _ => simp only [agentRun, h]

/-- The turn of an agent with no step to take leaves the state as it is (20_memory.md R76). -/
theorem agentRun_of_not_ready {a : Agent} {s : State} (h : ¬Ready a s) : agentRun a s = .next s := by
  by_cases ha : a = .host
  · subst ha
    have hstim : s.env.stim = [] := by simpa [Ready] using h
    simp only [agentRun, hostRun, hstim]
  · have hen : s.stageEnabled a = false := by simpa [Ready, ha] using h
    cases hw : s.stageSelector a with
    | none => exact agentRun_of_unselected ha hw
    | some w =>
      rw [agentRun_of_selected hw]
      simp only [State.stageEnabled, hw] at hen
      unfold perform
      cases hd : decode w with
      | error e => simp [hd] at hen
      | ok i => exact exec_of_not_enabled (by simpa [hd] using hen)

theorem hostRun_withSched {s t : State} (h : hostRun s = .next t) (l : List Agent) :
    hostRun (s.withSched l) = .next (t.withSched l) := by
  cases hs : s.env.stim with
  | nil =>
    simp only [hostRun, hs] at h
    cases h
    simp only [hostRun, State.withSched_stim, hs]
  | cons line rest =>
    simp only [hostRun, hs, State.withSched_stim, State.present_withSched, State.hostSelector_withSched,
      State.powerOnReset_withSched] at h ⊢
    cases line with
    | sym k => exact State.benchSym_withSched h l
    | powerOn b => cases h; rfl
    | _ =>
      dsimp only at h ⊢
      split at h
      · exact perform_withSched h l
      · cases h; rfl

theorem agentRun_withSched {a : Agent} {s t : State} (h : agentRun a s = .next t) (l : List Agent) :
    agentRun a (s.withSched l) = .next (t.withSched l) := by
  by_cases ha : a = .host
  · subst ha
    exact hostRun_withSched h l
  · cases hw : s.stageSelector a with
    | none =>
      rw [agentRun_of_unselected ha hw] at h
      cases h
      exact agentRun_of_unselected ha ((s.stageSelector_withSched a l).trans hw)
    | some w =>
      rw [agentRun_of_selected hw] at h
      rw [agentRun_of_selected ((s.stageSelector_withSched a l).trans hw)]
      exact perform_withSched h l

/-- No turn writes the choices still to come. -/
theorem agentRun_sched {a : Agent} {s t : State} (h : agentRun a s = .next t) : t.env.sched = s.env.sched := by
  have hself := agentRun_withSched h s.env.sched
  have ht : t = t.withSched s.env.sched := by simpa [h] using hself
  exact congrArg (·.env.sched) ht

/-! ### One step -/

theorem step_of_choice {s : State} {a : Agent} {rest : List Agent} (h : s.env.sched = a :: rest) :
    step s = agentRun a (s.withSched rest) := by
  simp only [step, turn, State.pick, h]
  rfl

theorem step_of_stage {s : State} {a : Agent} (hs : s.env.sched = [])
    (ha : downstreamFirst.find? s.stageEnabled = some a) : step s = agentRun a s := by
  simp only [step, turn, State.pick, hs, ha]

theorem step_of_line {s : State} (hs : s.env.sched = []) (hq : Quiescent s) (hl : s.env.stim ≠ []) :
    step s = hostRun s := by
  have hq' : downstreamFirst.find? s.stageEnabled = none := hq
  have hl' : s.env.stim.isEmpty = false := by simpa using hl
  simp only [step, turn, State.pick, hs, hq', hl']
  rfl

theorem step_of_no_line {s : State} (hs : s.env.sched = []) (hq : Quiescent s) (hl : s.env.stim = []) :
    step s = .next s := by
  have hq' : downstreamFirst.find? s.stageEnabled = none := hq
  simp only [step, turn, State.pick, hs, hq', hl]
  rfl

end Sys2Proof.Machine
end

section
/-! The work that stands in the pipeline. Every step of a stage lowers it, so that the stages alone, with no line of the
host, come to a state where none is enabled: the run to quiescence of 20_memory.md R78 ends. -/

namespace Sys2Proof.Machine

open Sys2Proof.Safety

/-- The items in flight, each weighted by more than all that the step taking it can push: a sample one symbol event, and so
on down to a block of `E6`, that gives at most 16 items of `E7` and a message. -/
def State.backlog (s : State) : Nat :=
  39 * s.e1.length + 38 * s.e2.length + 37 * s.e3.length + 36 * s.e4.length + 35 * s.e5.length + 34 * s.e6.length +
    s.mbox.toList.length + 2 * s.e7.length + s.e8.length

theorem State.sf_lt (s : State) : s.sf < 16 := (s.regs.sf.extractLsb' 0 4).isLt

/-- A window is never empty in a configuration that START accepts (40_host_ops.md R146). -/
theorem State.wlen_pos {s : State} (h : s.configCheck = 0) : 0 < s.wlen := by
  have hrate : s.regs.bw ≠ 0 ∧ s.regs.fs ≠ 0 ∧ s.regs.fs.toNat % s.regs.bw.toNat = 0 := by
    unfold State.configCheck at h
    split at h
    · cases h
    · split at h
      · cases h
      · tauto
  obtain ⟨hbw, hfs, hmod⟩ := hrate
  have hbw' : 0 < s.regs.bw.toNat := Nat.pos_of_ne_zero fun h0 => hbw (BitVec.eq_of_toNat_eq h0)
  have hfs' : 0 < s.regs.fs.toNat := Nat.pos_of_ne_zero fun h0 => hfs (BitVec.eq_of_toNat_eq h0)
  have hos : 0 < s.os := Nat.div_pos (Nat.le_of_dvd hfs' (Nat.dvd_of_mod_eq_zero hmod)) hbw'
  exact Nat.mul_pos (Nat.two_pow_pos _) hos

/-! ### The demodulator and the synchronizer -/

theorem State.backlog_demodStep_lt {s : State} (b : Bool) (h : s.demodReady = true) (hw : s.regs.run = true → 0 < s.wlen) :
    (s.demodStep b).backlog < s.backlog := by
  cases hd : s.dbox with
  | none => simp [State.demodReady, hd] at h
  | some d =>
    simp only [State.demodReady, hd, Bool.and_eq_true, decide_eq_true_eq, List.isEmpty_iff] at h
    obtain ⟨⟨hrun, he2⟩, hlen⟩ := h
    have hpos := hw hrun
    simp only [State.backlog, State.demodStep, hd, he2, List.length_drop, List.length_cons, List.length_nil]
    omega

/-- A symbol step takes an event and pushes at most one item on `E3`. -/
theorem State.backlog_symStep_lt {s : State} {st : SyncState} {f : State → SymEvt → State} (h : s.symReady st = true)
    (hf : ∀ t e, (f t e).backlog ≤ t.backlog + 37) : (s.symStep f).backlog < s.backlog := by
  obtain ⟨-, -, -, -, he2⟩ := (s.symReady_iff st).mp h
  obtain ⟨e, rest, hq⟩ := List.exists_cons_of_ne_nil he2
  have hpop : State.backlog { s with e2 := rest } + 38 = s.backlog := by
    simp only [State.backlog, hq, List.length_cons]
    omega
  have := hf { s with e2 := rest } e
  rw [State.symStep_cons hq]
  omega

theorem State.backlog_searchStep (s : State) (k : Bin) : (s.searchStep k).backlog = s.backlog := by
  unfold State.searchStep
  dsimp only
  split <;> rfl

theorem State.backlog_syncCheck (s : State) (k : Bin) : (s.syncCheck k).backlog = s.backlog := by
  unfold State.syncCheck
  split
  · split <;> rfl
  · rfl

theorem State.backlog_lockedStep (s : State) (k : Bin) : (s.lockedStep k).backlog = s.backlog := by
  unfold State.lockedStep
  split
  · rfl
  · exact s.backlog_syncCheck k

theorem State.backlog_sfdStep (s : State) (k : Bin) : (s.sfdStep k).backlog = s.backlog := by
  unfold State.sfdStep
  split
  · rfl
  · split <;> rfl

theorem State.backlog_frameStep (s : State) (e : SymEvt) : (s.frameStep e).backlog = s.backlog + 37 := by
  have hpush : State.backlog { s with e3 := s.e3 ++ [s.frameItem e] } = s.backlog + 37 := by
    simp only [State.backlog, List.length_append, List.length_cons, List.length_nil]
    omega
  rw [← hpush]
  unfold State.frameStep
  dsimp only
  split <;> rfl

/-- The feedback step takes the message (42_sync.md R203). -/
theorem State.backlog_fbStep {s : State} {m : MboxMsg} (h : s.mbox = some m) : (s.fbStep m).backlog + 1 = s.backlog := by
  cases m <;>
    simp only [State.fbStep, State.backlog, State.abortFrame, h, Option.toList_none, Option.toList_some, List.length_nil,
      List.length_cons] <;> omega

/-! ### The stages 3 to 5 -/

theorem State.backlog_grayStep_lt {s : State} (f : SymItem → Group) (h : s.grayReady = true) :
    (s.grayStep f).backlog < s.backlog := by
  cases hq : s.e3 with
  | nil => simp [State.grayReady, hq] at h
  | cons it rest =>
    simp only [State.grayStep_cons hq, State.backlog, hq, List.length_append, List.length_cons, List.length_nil]
    omega

theorem State.backlog_deintStep_lt {s : State} (f : DeintRegs → CwBlock) (h : s.deintReady = true) :
    (s.deintStep f).backlog < s.backlog := by
  cases hq : s.e4 with
  | nil => simp [State.deintReady, hq] at h
  | cons it rest =>
    rw [State.deintStep_cons hq]
    split <;> simp only [State.backlog, hq, List.length_append, List.length_cons, List.length_nil] <;> omega

theorem State.backlog_hammStep_lt {s : State} {p : CwBlock → Bool} (f : CwBlock → List (Nibble × CwStatus))
    (h : s.hammReady p = true) : (s.hammStep f).backlog < s.backlog := by
  cases hq : s.e5 with
  | nil => simp [State.hammReady, hq] at h
  | cons b rest =>
    simp only [State.hammStep_cons hq, State.backlog, hq, List.length_append, List.length_cons, List.length_nil]
    omega

/-! ### The Header Decoder -/

theorem NibBlock.length_nibItems (b : NibBlock) (lo sf : Nat) : (b.nibItems lo sf).length = sf - lo := by
  simp [NibBlock.nibItems]

theorem State.backlog_parseStep_lt {s : State} (h : s.e6 ≠ []) : s.parseStep.backlog < s.backlog := by
  obtain ⟨b, rest, hq⟩ := List.exists_cons_of_ne_nil h
  have hsf := s.sf_lt
  unfold State.parseStep
  rw [hq]
  dsimp only
  split <;>
    simp only [State.backlog, hq, List.length_append, List.length_cons, List.length_nil, Option.toList_some,
      NibBlock.length_nibItems] <;> omega

theorem State.backlog_passStep_lt {s : State} (h : s.e6 ≠ []) : s.passStep.backlog < s.backlog := by
  obtain ⟨b, rest, hq⟩ := List.exists_cons_of_ne_nil h
  have hsf := s.sf_lt
  simp only [State.passStep, hq, State.backlog]
  split <;> simp only [List.length_append, List.length_cons, NibBlock.length_nibItems] <;> omega

theorem State.backlog_implStep_lt {s : State} (h : s.e6 ≠ []) : s.implStep.backlog < s.backlog := by
  obtain ⟨b, rest, hq⟩ := List.exists_cons_of_ne_nil h
  have hsf := s.sf_lt
  simp only [State.implStep, hq, State.backlog]
  split_ifs <;>
    simp only [List.length_append, List.length_cons, List.length_nil, NibBlock.length_nibItems] <;> omega

theorem State.e6_ne_nil_of_hdrReady {s : State} {hdr : Bool} {k : Nat} (h : s.hdrReady hdr k = true) : s.e6 ≠ [] := by
  intro hq
  simp [State.hdrReady, hq] at h

/-! ### The Dewhitener and the CRC Verifier -/

theorem State.backlog_dewhStartStep_lt {s : State} (h : canDewhStart s = true) : s.dewhStartStep.backlog < s.backlog := by
  rcases hq : s.e7 with _ | ⟨_ | _, rest⟩
  case cons.fstart =>
    simp only [State.dewhStartStep, hq, State.backlog, List.length_append, List.length_cons, List.length_nil]
    omega
  all_goals simp [canDewhStart, State.e7Start, hq] at h

theorem State.backlog_dewhNibStep_lt {s : State} (h : canDewhNib s = true) : s.dewhNibStep.backlog < s.backlog := by
  rcases hq : s.e7 with _ | ⟨_ | _, rest⟩
  case cons.nib =>
    simp only [State.dewhNibStep, hq]
    split
    · simp only [State.backlog, hq, List.length_cons]; omega
    · split <;> simp only [State.backlog, hq, List.length_append, List.length_cons, List.length_nil] <;> omega
  all_goals simp [canDewhNib, State.e7Nib, hq] at h

/-- A finished frame leaves nothing but a record on `E9`. -/
theorem State.backlog_finish (s : State) : s.finish.backlog = s.backlog := by
  rw [State.finish_eq]
  rfl

theorem State.backlog_takeE8_lt {s : State} {x : E8Item} {rest : List E8Item} (h : s.e8 = x :: rest) (r : CrcvRegs) :
    State.backlog { s with e8 := rest, crcv := r } < s.backlog := by
  simp only [State.backlog, h, List.length_cons]
  omega

theorem State.backlog_crcvStartStep_lt {s : State} (h : canCrcvStart s = true) : s.crcvStartStep.backlog < s.backlog := by
  rcases hq : s.e8 with _ | ⟨_ | _, rest⟩
  case cons.fstart =>
    simp only [State.crcvStartStep, hq]
    split
    · exact (State.backlog_finish _).trans_lt (State.backlog_takeE8_lt hq _)
    · exact State.backlog_takeE8_lt hq _
  all_goals simp [canCrcvStart, hq] at h

theorem State.backlog_crcvByteEffect_lt {s : State} (h : canCrcvByte s = true) :
    s.crcvByteEffect.backlog < s.backlog := by
  rcases hq : s.e8 with _ | ⟨_ | b, rest⟩
  case cons.byte =>
    simp only [State.crcvByteEffect_cons hq, State.crcvByteNext]
    split
    · exact State.backlog_takeE8_lt hq s.crcv
    · split
      · exact (State.backlog_finish _).trans_lt (State.backlog_takeE8_lt hq _)
      · exact State.backlog_takeE8_lt hq _
  all_goals simp [canCrcvByte, hq] at h

/-! ### Every step of a stage -/

theorem backlog_effect_lt {i : Instr} {s : State} (hi : agentOf i ≠ .host) (he : enabled i s = true)
    (hw : s.regs.run = true → 0 < s.wlen) : (effect i s).backlog < s.backlog := by
  cases i with
  | regWr | regRd | start | stop | sreset | sampPush | recPop => exact absurd rfl hi
  | demodH | demodS => exact s.backlog_demodStep_lt _ (Bool.and_elim_left he) hw
  | syncSearch => exact State.backlog_symStep_lt he fun t e => (t.backlog_searchStep e.bin).trans_le (Nat.le_add_right _ _)
  | syncLocked => exact State.backlog_symStep_lt he fun t e => (t.backlog_lockedStep e.bin).trans_le (Nat.le_add_right _ _)
  | syncSwchk => exact State.backlog_symStep_lt he fun t e => (t.backlog_syncCheck e.bin).trans_le (Nat.le_add_right _ _)
  | syncSfd => exact State.backlog_symStep_lt he fun t e => (t.backlog_sfdStep e.bin).trans_le (Nat.le_add_right _ _)
  | syncFrame => exact State.backlog_symStep_lt (Bool.and_elim_left he) fun t e => (t.backlog_frameStep e).le
  | syncFb =>
    obtain ⟨m, hm⟩ := Option.isSome_iff_exists.mp (Bool.and_elim_right he)
    have := State.backlog_fbStep hm
    simp only [effect, hm, Option.elim]
    omega
  | grayH | grayS => exact State.backlog_grayStep_lt _ (Bool.and_elim_left he)
  | deintH | deintS => exact State.backlog_deintStep_lt _ (Bool.and_elim_left he)
  | hammCr1 | hammCr2 | hammCr3 | hammCr4 | hammS => exact State.backlog_hammStep_lt _ (Bool.and_elim_left he)
  | hdrParse =>
    exact State.backlog_parseStep_lt (State.e6_ne_nil_of_hdrReady (Bool.and_elim_right (Bool.and_elim_left he)))
  | hdrPass => exact State.backlog_passStep_lt (State.e6_ne_nil_of_hdrReady (Bool.and_elim_right he))
  | hdrImpl =>
    have hne : s.e6.isEmpty = false := by simpa using Bool.and_elim_right (Bool.and_elim_left he)
    exact State.backlog_implStep_lt (by simpa using hne)
  | dewhStart => exact State.backlog_dewhStartStep_lt he
  | dewhNib => exact State.backlog_dewhNibStep_lt he
  | crcvStart => exact State.backlog_crcvStartStep_lt he
  | crcvByte => exact State.backlog_crcvByteEffect_lt he

/-- The turn of an enabled stage lowers the backlog. -/
theorem agentRun_backlog_lt {a : Agent} {s t : State} (ha : a ≠ .host) (hen : s.stageEnabled a = true)
    (hc : ConfigInv s) (h : agentRun a s = .next t) : t.backlog < s.backlog := by
  obtain ⟨w, i, hw, hd, hi, hrun⟩ | ⟨w, -, hrun⟩ := stageEnabled_cases ha hen
  · rw [hrun, exec_of_enabled hi] at h
    cases h
    exact backlog_effect_lt (s.not_host_of_stageSelector hw hd) hi fun hr => State.wlen_pos (hc.checked hr)
  · rw [hrun] at h
    cases h

end Sys2Proof.Machine
end

section
/-! The schedules (00_scope.md R4, 20_memory.md R78, R79): the reference schedule is weakly fair, and every schedule that R79
allows is a run of the model. -/

namespace Sys2Proof.Safety

open Sys2Proof.Machine

theorem mem_downstreamFirst {a : Agent} : a ∈ downstreamFirst ↔ a ≠ .host := by
  cases a <;> decide

/-- No stage has a step to take in a quiescent state. -/
theorem Quiescent.not_ready {a : Agent} {s : State} (hq : Quiescent s) (ha : a ≠ .host) : ¬Ready a s := by
  rw [Ready, if_neg ha]
  exact List.find?_eq_none.mp hq a (mem_downstreamFirst.mpr ha)

theorem ready_of_find? {a : Agent} {s : State} (h : downstreamFirst.find? s.stageEnabled = some a) :
    a ≠ .host ∧ s.stageEnabled a = true ∧ Ready a s := by
  have ha : a ≠ .host := mem_downstreamFirst.mp (List.mem_of_find?_eq_some h)
  have hen := List.find?_some h
  exact ⟨ha, hen, by rwa [Ready, if_neg ha]⟩

/-- The agent whose turn the reference schedule makes it (20_memory.md R78). -/
def referenceAgent (s : State) : Agent := (downstreamFirst.find? s.stageEnabled).getD .host

theorem Quiescent.referenceAgent_eq {s : State} (hq : Quiescent s) : referenceAgent s = .host := by
  unfold referenceAgent
  rw [hq]
  rfl

/-- A step of the reference schedule: one turn of its agent, or waiting, and it gives no choice for later. -/
theorem step_reference {s t : State} (hs : s.env.sched = []) (h : step s = .next t) :
    t.env.sched = [] ∧
    ((Ready (referenceAgent s) s ∧ agentRun (referenceAgent s) s = .next t) ∨ ((∀ a, ¬Ready a s) ∧ t = s)) := by
  cases hf : downstreamFirst.find? s.stageEnabled with
  | some a =>
    have hr : referenceAgent s = a := by simp [referenceAgent, hf]
    rw [step_of_stage hs hf] at h
    exact ⟨(agentRun_sched h).trans hs, .inl (hr ▸ ⟨(ready_of_find? hf).2.2, h⟩)⟩
  | none =>
    have hr : referenceAgent s = .host := Quiescent.referenceAgent_eq hf
    by_cases hl : s.env.stim = []
    · rw [step_of_no_line hs hf hl] at h
      cases h
      refine ⟨hs, .inr ⟨fun a => ?_, rfl⟩⟩
      by_cases ha : a = .host
      · simp [Ready, ha, hl]
      · exact Quiescent.not_ready hf ha
    · rw [step_of_line hs hf hl] at h
      have hrun : agentRun .host s = .next t := h
      exact ⟨(agentRun_sched hrun).trans hs, .inl (hr ▸ ⟨by simpa [Ready] using hl, hrun⟩)⟩

section reference_run

variable {run : Nat → State} (h0 : (run 0).env.sched = []) (hinv : ∀ k, Inv (run k))
  (hstep : ∀ k, step (run k) = .next (run (k + 1)))

include h0 hstep

theorem reference_run_sched (k : Nat) : (run k).env.sched = [] := by
  induction k with
  | zero => exact h0
  | succ k ih => exact (step_reference ih (hstep k)).1

include hinv

/-- The stages alone cannot run for ever: from every step on, a quiescent state comes. -/
theorem reference_run_quiesces (k : Nat) : ∃ j, k ≤ j ∧ Quiescent (run j) := by
  induction hb : (run k).backlog using Nat.strong_induction_on generalizing k with
  | _ b ih =>
    cases hf : downstreamFirst.find? (run k).stageEnabled with
    | none => exact ⟨k, le_refl k, hf⟩
    | some a =>
      obtain ⟨ha, hen, -⟩ := ready_of_find? hf
      have hturn : agentRun a (run k) = .next (run (k + 1)) :=
        (step_of_stage (reference_run_sched h0 hstep k) hf).symm.trans (hstep k)
      have hlt := agentRun_backlog_lt ha hen (hinv k).config hturn
      obtain ⟨j, hj, hq⟩ := ih _ (hb ▸ hlt) (k + 1) rfl
      exact ⟨j, by omega, hq⟩

/-- The reference schedule is weakly fair: at the quiescent state that comes no stage is enabled any more, and the turn is the
host's. -/
theorem reference_run_schedule : Schedule (fun k => referenceAgent (run k)) run where
  atomic k := (step_reference (reference_run_sched h0 hstep k) (hstep k)).2
  fair a k hready := by
    obtain ⟨j, hj, hq⟩ := reference_run_quiesces h0 hinv hstep k
    have ha : a = .host := by
      by_contra ha
      exact hq.not_ready ha (hready j hj)
    exact ⟨j, hj, ha ▸ hq.referenceAgent_eq⟩

end reference_run

/-- One turn of an allowed schedule is the agent's turn; where the CORE waits, that turn does nothing. -/
theorem Schedule.agentRun_eq {who : Nat → Agent} {run : Nat → State} (h : Schedule who run) (k : Nat) :
    agentRun (who k) (run k) = .next (run (k + 1)) := by
  obtain ⟨-, hrun⟩ | ⟨hnone, hwait⟩ := h.atomic k
  · exact hrun
  · rw [hwait]
    exact agentRun_of_not_ready (hnone (who k))

theorem core_run_succ {s t : State} (h : step s = .next t) (n : Nat) :
    Host.Core.run Sys2Proof.core (n + 1) s = Host.Core.run Sys2Proof.core n t := by
  have hcore : Host.Core.step Sys2Proof.core s = .next t := h
  simp only [Host.Core.run, hcore]

/-- The model given the agents of `n` turns of an allowed schedule, from any of its states on, follows it. -/
theorem Schedule.core_run_eq {who : Nat → Agent} {run : Nat → State} (h : Schedule who run) (n k : Nat) :
    Host.Core.run Sys2Proof.core n ((run k).withSched ((List.range' k n).map who)) = .next ((run (k + n)).withSched []) := by
  induction n generalizing k with
  | zero => rfl
  | succ n ih =>
    have hstep : step ((run k).withSched ((List.range' k (n + 1)).map who)) =
        .next ((run (k + 1)).withSched ((List.range' (k + 1) n).map who)) :=
      (step_of_choice rfl).trans (agentRun_withSched (h.agentRun_eq k) _)
    rw [core_run_succ hstep n, ih (k + 1), Nat.add_right_comm, Nat.add_assoc]

/-- Settles O5: the reference schedule by the branches of `State.pick`; its fairness because each step of a stage lowers
`State.backlog`; the finite parts of a schedule by induction on their length, since no turn reads or writes the
choices to come. -/
theorem referenceSchedule : Obligations.ReferenceSchedule := by
  refine ⟨fun s hs => ⟨fun a ha => step_of_stage hs ha, step_of_line hs, step_of_no_line hs⟩,
    fun s a rest hs => step_of_choice hs, fun run h0 hinv hstep => ⟨_, reference_run_schedule h0 hinv hstep⟩, ?_⟩
  intro who run h n
  have hrun := h.core_run_eq n 0
  rwa [← List.range_eq_range', Nat.zero_add] at hrun

end Sys2Proof.Safety
end

section
/-! Reset (10_state.md R60, 40_host_ops.md R148, 70_reset_and_hazards.md R340): what `SRESET` leaves, from any state, and that
nothing is accepted while the reset input is asserted. Power-on is the case of `State.reset` itself. -/

namespace Sys2Proof.Safety

open Sys2Proof.Machine

theorem atReset_sresetCmd (s : State) : AtReset s.sresetCmd := by
  unfold AtReset
  exact ⟨rfl, rfl, rfl, rfl, rfl, rfl, rfl, rfl, rfl, rfl, rfl, rfl, rfl, rfl, rfl, rfl, rfl, rfl, rfl, rfl, rfl, rfl⟩

/-! ### The invariant -/

theorem configInv_sresetCmd (s : State) : ConfigInv s.sresetCmd where
  sf := BitVec.zero_and
  mode := BitVec.zero_and
  paylen := BitVec.zero_and
  sync := BitVec.zero_and
  det := BitVec.zero_and
  checked hrun := nomatch hrun

theorem idleInv_sresetCmd (s : State) : IdleInv s.sresetCmd where
  edges _ := ⟨rfl, rfl, rfl, rfl, rfl, rfl, rfl, rfl⟩
  boxes _ := ⟨rfl, rfl⟩
  search _ := rfl
  block _ := rfl

theorem syncInv_sresetCmd (s : State) : SyncInv s.sresetCmd where
  fpLive := ⟨nofun, nofun⟩
  fpCr hvalid := nomatch hvalid
  outside _ := ⟨rfl, rfl, rfl⟩
  saturated := Nat.zero_le 8
  hold hwait := nomatch hwait
  counted hframe := nomatch hframe
  unmatched _ := rfl
  matched hcheck := nomatch hcheck
  oneEvent := ⟨Nat.zero_le 1, fun _ => rfl⟩

theorem flightInv_sresetCmd (s : State) : FlightInv s.sresetCmd where
  e3Tags _ hx := nomatch hx
  e4Tags _ hx := nomatch hx
  e5Tags _ hx := nomatch hx
  e6Tags _ hx := nomatch hx
  message _ hm := nomatch hm
  blkLength := rfl
  blkTags hcnt := absurd rfl hcnt
  depths :=
    ⟨Nat.zero_le _, Nat.zero_le _, Nat.zero_le _, Nat.zero_le _, Nat.zero_le _, Nat.zero_le _, Nat.zero_le _, Nat.zero_le _⟩

theorem dewhInv_sresetCmd (s : State) : DewhInv s.sresetCmd where
  toCome hopen := nomatch hopen
  generator _ := rfl

theorem crcvInv_sresetCmd (s : State) : CrcvInv s.sresetCmd where
  payForm := State.reset_pay_wf
  toCome hopen := nomatch hopen
  running hopen := nomatch hopen

/-- `SRESET` establishes the invariant whatever the state before it. -/
theorem inv_sresetCmd (s : State) : Inv s.sresetCmd :=
  ⟨configInv_sresetCmd s, idleInv_sresetCmd s, syncInv_sresetCmd s, flightInv_sresetCmd s, dewhInv_sresetCmd s,
    crcvInv_sresetCmd s⟩

/-- Settles O56: power-on leaves a state that `SRESET` leaves as it is, and `SRESET` establishes each part of the invariant. -/
theorem resetHasTheInvariant : Obligations.ResetHasTheInvariant := inv_sresetCmd State.reset

/-! ### The power-on reset input -/

/-- Asserting the input is `SRESET`, with the line taken and the level held. -/
theorem hostRun_powerOn_true {s : State} {rest : List Stim} (h : s.env.stim = .powerOn true :: rest) :
    hostRun s = .next (State.sresetCmd { s with env := { s.env with stim := rest, por := true } }) := by
  simp only [hostRun, h]
  rfl

theorem stageEnabled_held {s : State} (h : s.env.por = true) (a : Agent) : s.stageEnabled a = false := by
  simp only [State.stageEnabled, State.stageSelector_held h a]

/-- While the input is asserted a host line does no more than stand at the ports; only `powerOn false` releases it. -/
theorem hostRun_held {s : State} {line : Stim} {rest : List Stim} (hpor : s.env.por = true)
    (hs : s.env.stim = line :: rest) (hline : line ≠ .powerOn true) :
    ∃ e, hostRun s = .next { s with env := e } ∧ e.stim = rest ∧ e.sched = s.env.sched ∧
      e.rdData = s.env.rdData ∧ e.recOut = s.env.recOut ∧ (e.por = false ↔ line = .powerOn false) := by
  have hheld (l : Stim) : (s.present line rest).hostSelector l = none :=
    State.hostSelector_held ((s.present_por line rest).trans hpor) l
  unfold hostRun
  rw [hs]
  cases line with
  | regW | regR | samp | pop =>
    simp only [hheld]
    exact ⟨_, rfl, rfl, rfl, rfl, rfl, by simp [hpor]⟩
  | sym k =>
    simp only [State.benchSym, State.present_por, hpor, if_true]
    exact ⟨_, rfl, rfl, rfl, rfl, rfl, by simp [hpor]⟩
  | powerOn b =>
    cases b with
    | true => exact absurd rfl hline
    | false => exact ⟨_, rfl, rfl, rfl, rfl, rfl, by simp⟩

/-- Settles O17: `SRESET` gives every reset value, power-on and the asserted input leave what it leaves, and the asserted input
forms no descriptor. -/
theorem resetValues : Obligations.ResetValues := by
  refine ⟨atReset_sresetCmd State.reset, fun s => ⟨_, rfl, atReset_sresetCmd s, rfl, rfl⟩,
    fun s rest hs => ⟨_, hostRun_powerOn_true hs, atReset_sresetCmd _, rfl, rfl⟩,
    fun s hpor => ⟨stageEnabled_held hpor, fun a ha => ?_, fun line rest => hostRun_held hpor⟩⟩
  exact agentRun_of_unselected ha (State.stageSelector_held hpor a)

end Sys2Proof.Safety
end

section
/-! What one operation leaves alone of the register space, the records and the CRC Verifier (10_state.md R59): everything, but for
the host, `SYNC.FB`, the Hamming Decoder and the CRC Verifier. -/

namespace Sys2Proof.Machine

/-- `t` has the register space, the CRC Verifier and the records of `s`. -/
structure SameBooks (s t : State) : Prop where
  regs : t.regs = s.regs
  crcv : t.crcv = s.crcv
  e9 : t.e9 = s.e9

theorem SameBooks.refl (s : State) : SameBooks s s := ⟨rfl, rfl, rfl⟩

theorem State.demodStep_sameBooks (s : State) (b : Bool) : SameBooks s (s.demodStep b) := by
  unfold State.demodStep
  split <;> exact ⟨rfl, rfl, rfl⟩

/-! ### The Frame Synchronizer -/

theorem State.symStep_sameBooks (s : State) {f : State → SymEvt → State} (hf : ∀ t e, SameBooks t (f t e)) :
    SameBooks s (s.symStep f) := by
  unfold State.symStep
  split
  · exact SameBooks.refl s
  · rename_i e rest _
    obtain ⟨hregs, hcrcv, he9⟩ := hf { s with e2 := rest } e
    exact ⟨hregs, hcrcv, he9⟩

theorem State.searchStep_sameBooks (s : State) (k : Bin) : SameBooks s (s.searchStep k) := by
  unfold State.searchStep
  dsimp only
  split <;> exact ⟨rfl, rfl, rfl⟩

theorem State.syncCheck_sameBooks (s : State) (k : Bin) : SameBooks s (s.syncCheck k) := by
  unfold State.syncCheck
  split
  · split <;> exact ⟨rfl, rfl, rfl⟩
  · exact ⟨rfl, rfl, rfl⟩

theorem State.lockedStep_sameBooks (s : State) (k : Bin) : SameBooks s (s.lockedStep k) := by
  unfold State.lockedStep
  split
  · exact ⟨rfl, rfl, rfl⟩
  · exact s.syncCheck_sameBooks k

theorem State.sfdStep_sameBooks (s : State) (k : Bin) : SameBooks s (s.sfdStep k) := by
  unfold State.sfdStep
  split
  · exact ⟨rfl, rfl, rfl⟩
  · split <;> exact ⟨rfl, rfl, rfl⟩

theorem State.frameStep_sameBooks (s : State) (e : SymEvt) : SameBooks s (s.frameStep e) := by
  unfold State.frameStep
  dsimp only
  split <;> exact ⟨rfl, rfl, rfl⟩

/-! ### The stages from the Gray Demapper to the Dewhitener -/

theorem State.grayStep_sameBooks (s : State) (f : SymItem → Group) : SameBooks s (s.grayStep f) := by
  unfold State.grayStep
  split <;> exact ⟨rfl, rfl, rfl⟩

theorem State.deintStep_sameBooks (s : State) (f : DeintRegs → CwBlock) : SameBooks s (s.deintStep f) := by
  unfold State.deintStep
  split
  · exact SameBooks.refl s
  · dsimp only
    split <;> exact ⟨rfl, rfl, rfl⟩

theorem State.parseStep_sameBooks (s : State) : SameBooks s s.parseStep := by
  unfold State.parseStep
  split
  · exact SameBooks.refl s
  · split <;> exact ⟨rfl, rfl, rfl⟩

theorem State.passStep_sameBooks (s : State) : SameBooks s s.passStep := by
  unfold State.passStep
  split <;> exact ⟨rfl, rfl, rfl⟩

theorem State.implStep_sameBooks (s : State) : SameBooks s s.implStep := by
  unfold State.implStep
  split <;> exact ⟨rfl, rfl, rfl⟩

theorem State.dewhStartStep_sameBooks (s : State) : SameBooks s s.dewhStartStep := by
  unfold State.dewhStartStep
  split <;> exact ⟨rfl, rfl, rfl⟩

theorem State.dewhNibStep_sameBooks (s : State) : SameBooks s s.dewhNibStep := by
  unfold State.dewhNibStep
  split
  · split
    · exact ⟨rfl, rfl, rfl⟩
    · split <;> exact ⟨rfl, rfl, rfl⟩
  · exact SameBooks.refl s

/-! ### Every operation that keeps no books -/

/-- The operations that may write the register space, the CRC Verifier or the records. -/
def keepsBooks (i : Instr) : Bool :=
  match agentOf i with
  | .host | .hamm | .crcv => true
  | .sync => decide (i = .syncFb)
  | .demod | .gray | .deint | .hdr | .dewh => false

theorem effect_sameBooks {i : Instr} (hi : keepsBooks i = false) (s : State) : SameBooks s (effect i s) := by
  cases i with
  | regWr | regRd | start | stop | sreset | sampPush | recPop | syncFb | hammCr1 | hammCr2 | hammCr3 | hammCr4 | hammS
  | crcvStart | crcvByte => exact nomatch hi
  | demodH | demodS => exact s.demodStep_sameBooks _
  | syncSearch => exact s.symStep_sameBooks fun t e => t.searchStep_sameBooks e.bin
  | syncLocked => exact s.symStep_sameBooks fun t e => t.lockedStep_sameBooks e.bin
  | syncSwchk => exact s.symStep_sameBooks fun t e => t.syncCheck_sameBooks e.bin
  | syncSfd => exact s.symStep_sameBooks fun t e => t.sfdStep_sameBooks e.bin
  | syncFrame => exact s.symStep_sameBooks fun t e => t.frameStep_sameBooks e
  | grayH | grayS => exact s.grayStep_sameBooks _
  | deintH => exact s.deintStep_sameBooks fun r => r.hardBlock s.sf
  | deintS => exact s.deintStep_sameBooks fun r => r.softBlock s.sf
  | hdrParse => exact s.parseStep_sameBooks
  | hdrPass => exact s.passStep_sameBooks
  | hdrImpl => exact s.implStep_sameBooks
  | dewhStart => exact s.dewhStartStep_sameBooks
  | dewhNib => exact s.dewhNibStep_sameBooks

/-! ### What the host's commands and writes can do -/

/-- `START` (40_host_ops.md R144): nothing in a session, a refusal, or a new session. -/
theorem State.startCmd_cases (s : State) :
    (s.regs.run = true ∧ s.startCmd = s) ∨
    (s.regs.run = false ∧ s.configCheck ≠ 0 ∧ s.startCmd = s.raise .cfgErr s.configCheck) ∨
    (s.regs.run = false ∧ s.configCheck = 0 ∧
      s.startCmd =
        { s.pipelineClear with
          regs := { s.regs with cfgErr := false, cfgCode := 0, dropCnt := 0, frameCnt := 0, run := true }
          dbox := some .default }) := by
  unfold State.startCmd
  split
  · exact .inl ⟨‹_›, rfl⟩
  · rename_i hrun
    split
    · exact .inr (.inl ⟨eq_false_of_ne_true hrun, ‹_›, rfl⟩)
    · exact .inr (.inr ⟨eq_false_of_ne_true hrun, not_not.mp ‹_›, rfl⟩)

/-- `STOP` (40_host_ops.md R147): nothing outside a session. -/
theorem State.stopCmd_cases (s : State) :
    (s.regs.run = false ∧ s.stopCmd = s) ∨
    (s.regs.run = true ∧ s.stopCmd = { s.pipelineClear with regs := { s.regs with run := false } }) := by
  unfold State.stopCmd
  split
  · exact .inl ⟨‹_›, rfl⟩
  · rename_i hrun
    exact .inr ⟨eq_true_of_ne_false hrun, rfl⟩

/-- A write of `CTRL` is at most one command (10_state.md R22). -/
theorem State.command_cases (s : State) (v : Word32) :
    (v.getLsbD 2 = true ∧ s.command v = s.sresetCmd) ∨
    (v.getLsbD 2 = false ∧ v.getLsbD 1 = true ∧ s.command v = s.stopCmd) ∨
    (v.getLsbD 2 = false ∧ v.getLsbD 1 = false ∧ v.getLsbD 0 = true ∧ s.command v = s.startCmd) ∨
    (v.getLsbD 2 = false ∧ v.getLsbD 1 = false ∧ v.getLsbD 0 = false ∧ s.command v = s) := by
  unfold State.command
  split_ifs with h2 h1 h0
  · exact .inl ⟨h2, rfl⟩
  · exact .inr (.inl ⟨eq_false_of_ne_true h2, h1, rfl⟩)
  · exact .inr (.inr (.inl ⟨eq_false_of_ne_true h2, eq_false_of_ne_true h1, h0, rfl⟩))
  · exact .inr (.inr (.inr ⟨eq_false_of_ne_true h2, eq_false_of_ne_true h1, eq_false_of_ne_true h0, rfl⟩))

/-- The register indices that are no `CTRL` are refused, read-only, configuration, `IRQ_EN` or `EVT` (40_host_ops.md R140). -/
theorem idx_eq_zero_of_unlisted : ∀ idx : BitVec 6, ¬0x0E < idx.toNat → isReadOnly idx = false → isConfig idx = false →
    idx ≠ 0x09 → idx ≠ 0x0A → idx = 0 := by
  decide

/-- `REG_WR` (40_host_ops.md R140, R142, R143): refused with `BUS_ERR`, a configuration register outside a session, `IRQ_EN`, `EVT`
or `CTRL`. -/
theorem State.regWrite_cases (s : State) (idx : BitVec 6) (v : Word32) :
    ((0x0E < idx.toNat ∨ isReadOnly idx = true ∨ (isConfig idx = true ∧ s.regs.run = true)) ∧
      s.regWrite idx v = s.raise .busErr) ∨
    (isConfig idx = true ∧ s.regs.run = false ∧ s.regWrite idx v = { s with regs := s.regs.writeConfig idx v }) ∨
    (idx = 0x09 ∧ s.regWrite idx v = { s with regs := { s.regs with irqEn := v.extractLsb' 0 9 } }) ∨
    (idx = 0x0A ∧ s.regWrite idx v = { s with regs := { s.regs with evt := clearEvt s.regs.evt (v.extractLsb' 0 9) } }) ∨
    (idx = 0 ∧ s.regWrite idx v = s.command v) := by
  unfold State.regWrite
  split_ifs with hpast hro hconfig hrun hirq hevt
  · exact .inl ⟨.inl hpast, rfl⟩
  · exact .inl ⟨.inr (.inl hro), rfl⟩
  · exact .inl ⟨.inr (.inr ⟨hconfig, hrun⟩), rfl⟩
  · exact .inr (.inl ⟨hconfig, eq_false_of_ne_true hrun, rfl⟩)
  · exact .inr (.inr (.inl ⟨hirq, rfl⟩))
  · exact .inr (.inr (.inr (.inl ⟨hevt, rfl⟩)))
  · have h0 := idx_eq_zero_of_unlisted idx hpast (eq_false_of_ne_true hro) (eq_false_of_ne_true hconfig) hirq hevt
    exact .inr (.inr (.inr (.inr ⟨h0, rfl⟩)))

/-- A write of a configuration register changes no flag and no counter (10_state.md R21). -/
theorem HostRegs.writeConfig_frame (r : HostRegs) (idx : BitVec 6) (v : Word32) :
    (r.writeConfig idx v).evt = r.evt ∧ (r.writeConfig idx v).dropCnt = r.dropCnt ∧
      (r.writeConfig idx v).frameCnt = r.frameCnt := by
  unfold HostRegs.writeConfig
  dsimp only
  split_ifs <;> exact ⟨rfl, rfl, rfl⟩

/-! ### The Hamming Decoder -/

/-- The block step sets at most the flag `PAY_FEC` (45_hamming.md R247). -/
theorem State.hammStep_cases (s : State) (f : CwBlock → List (Nibble × CwStatus)) :
    ∃ t, SameBooks s t ∧ (s.hammStep f = t ∨ s.hammStep f = t.raise .payFec) := by
  unfold State.hammStep
  split
  · exact ⟨s, SameBooks.refl s, .inl rfl⟩
  · rename_i b rest _
    refine ⟨{ s with e5 := rest, e6 := s.e6 ++ [⟨(f b).map Prod.fst, (f b).map Prod.snd, b.sof, b.hdr, b.cr⟩] },
      ⟨rfl, rfl, rfl⟩, ?_⟩
    dsimp only
    split
    · exact .inr rfl
    · exact .inl rfl

end Sys2Proof.Machine
end

section
/-! `PAY` (10_state.md R50, R59): only `CRCV.BYTE` stores into it, at `pay_cnt`; reset aside, where it is unspecified (R60). -/

namespace Sys2Proof.Machine

open Sys2Proof.Safety

/-! ### The host's operations and the Hamming Decoder -/

theorem State.pay_startCmd (s : State) : s.startCmd.crcv.pay = s.crcv.pay := by
  obtain ⟨-, h⟩ | ⟨-, -, h⟩ | ⟨-, -, h⟩ := s.startCmd_cases <;> exact congrArg (·.crcv.pay) h

theorem State.pay_stopCmd (s : State) : s.stopCmd.crcv.pay = s.crcv.pay := by
  obtain ⟨-, h⟩ | ⟨-, h⟩ := s.stopCmd_cases <;> exact congrArg (·.crcv.pay) h

theorem State.pay_command {s : State} {v : Word32} (hv : ¬v.getLsbD 2 = true) : (s.command v).crcv.pay = s.crcv.pay := by
  obtain ⟨hreset, -⟩ | ⟨-, -, h⟩ | ⟨-, -, -, h⟩ | ⟨-, -, -, h⟩ := s.command_cases v
  · exact absurd hreset hv
  · rw [h, s.pay_stopCmd]
  · rw [h, s.pay_startCmd]
  · rw [h]

theorem State.pay_regWrite {s : State} {idx : BitVec 6} {v : Word32} (hs : ¬(idx = 0 ∧ v.getLsbD 2 = true)) :
    (s.regWrite idx v).crcv.pay = s.crcv.pay := by
  obtain ⟨-, h⟩ | ⟨-, -, h⟩ | ⟨-, h⟩ | ⟨-, h⟩ | ⟨h0, h⟩ := s.regWrite_cases idx v
  case inr.inr.inr.inr => rw [h, State.pay_command fun hv => hs ⟨h0, hv⟩]
  all_goals exact congrArg (·.crcv.pay) h

theorem State.pay_hammStep (s : State) (f : CwBlock → List (Nibble × CwStatus)) :
    (s.hammStep f).crcv.pay = s.crcv.pay := by
  obtain ⟨t, hsame, h | h⟩ := s.hammStep_cases f
  · rw [h, hsame.crcv]
  · rw [h, State.raise_payFec, State.flag_crcv, hsame.crcv]

/-! ### The CRC Verifier -/

theorem State.pay_finish (s : State) : s.finish.crcv.pay = s.crcv.pay := by rw [State.finish_eq]

theorem State.pay_crcvStartStep (s : State) : s.crcvStartStep.crcv.pay = s.crcv.pay := by
  unfold State.crcvStartStep
  split
  · dsimp only
    split
    · exact State.pay_finish _
    · rfl
  · rfl

/-- A byte of an open frame is stored at `pay_cnt` where it is a payload byte, and nowhere where it is not (48_crc.md R294). -/
theorem CrcvRegs.read_pay_taken {r : CrcvRegs} {a : Nat} (b : Byte)
    (ha : r.payCnt.toNat < r.len.toNat → a ≠ r.payCnt.toNat) : (r.taken b).pay.read a = r.pay.read a := by
  unfold CrcvRegs.taken
  split
  · exact Memory.read_write_ne r.pay b (ha ‹_›)
  · split <;> rfl

theorem State.read_pay_crcvByteEffect {s : State} {a : Nat}
    (ha : s.crcv.isOpen = true → s.crcv.payCnt.toNat < s.crcv.len.toNat → a ≠ s.crcv.payCnt.toNat) :
    s.crcvByteEffect.crcv.pay.read a = s.crcv.pay.read a := by
  unfold State.crcvByteEffect
  split
  · rename_i b rest _
    unfold State.crcvByteNext
    dsimp only
    split
    · rfl
    · have hopen : s.crcv.isOpen = true := by simpa using ‹¬s.crcv.isOpen = false›
      have htaken := CrcvRegs.read_pay_taken b (ha hopen)
      split
      · rw [State.pay_finish]
        exact htaken
      · exact htaken
  · rfl

/-! ### Every operation -/

theorem pay_effect {i : Instr} {s : State} (hi : i ≠ .crcvByte) (hs : ¬IsSreset i s) :
    (effect i s).crcv.pay = s.crcv.pay := by
  cases i with
  | regWr => exact State.pay_regWrite fun hcmd => hs (.inr ⟨rfl, hcmd⟩)
  | regRd | sampPush => simp only [effect]; split_ifs <;> rfl
  | start => exact s.pay_startCmd
  | stop => exact s.pay_stopCmd
  | sreset => exact absurd (.inl rfl) hs
  | recPop => rfl
  | syncFb =>
    simp only [effect]
    rcases s.mbox with _ | (_ | _) <;> rfl
  | hammCr1 | hammCr2 | hammCr3 | hammCr4 | hammS => exact s.pay_hammStep _
  | crcvStart => exact s.pay_crcvStartStep
  | crcvByte => exact absurd rfl hi
  | demodH | demodS | syncSearch | syncLocked | syncSwchk | syncSfd | syncFrame | grayH | grayS | deintH | deintS | hdrParse
  | hdrPass | hdrImpl | dewhStart | dewhNib => exact congrArg CrcvRegs.pay (effect_sameBooks rfl s).crcv

/-- Settles O58: an operation that is not enabled changes nothing, no other than `CRCV.BYTE` changes `PAY` at all, and that one
stores a payload byte of an open frame at `pay_cnt`. -/
theorem onlyCrcvByteWritesPay : Obligations.OnlyCrcvByteWritesPay := by
  intro i s t h hs a ha
  rw [exec_eq_ifEnabled, ifEnabled_eq_next] at h
  obtain ⟨-, rfl⟩ | ⟨-, rfl⟩ := h
  · by_cases hi : i = .crcvByte
    · subst hi
      exact State.read_pay_crcvByteEffect (ha rfl)
    · rw [pay_effect hi hs]
  · rfl

end Sys2Proof.Machine
end

section
/-! The flags, the counters and the records (10_state.md R27, R29, R59; 60_exceptions.md R318): everything an operation can do to
them, said once. -/

namespace Sys2Proof.Safety

open Sys2Proof.Machine

/-- From the flags `x` to the flags `y` none is cleared, and only flags of the agent `a` are set. -/
def SetsOwn (a : Agent) (x y : BitVec 9) : Prop := x &&& ~~~y = 0 ∧ y &&& ~~~x &&& ~~~(evtOf a) = 0

theorem SetsOwn.refl (a : Agent) (x : BitVec 9) : SetsOwn a x x := by simp [SetsOwn]

theorem SetsOwn.of_eq {a : Agent} {x y : BitVec 9} (h : y = x) : SetsOwn a x y := h ▸ SetsOwn.refl a x

theorem setsOwn_or {a : Agent} {m : BitVec 9} (hm : m &&& ~~~(evtOf a) = 0) (x : BitVec 9) : SetsOwn a x (x ||| m) := by
  constructor
  · rw [BitVec.not_or, ← BitVec.and_assoc, BitVec.and_not_self]
    exact BitVec.zero_and
  · ext n hn
    have hbit : m[n] = true → (evtOf a)[n] = true := by simpa using congrArg (·[n]) hm
    simp only [BitVec.getElem_and, BitVec.getElem_or, BitVec.getElem_not]
    cases x[n] with
    | true => simp
    | false => simpa using hbit

/-- Taking a cause sets the bit of its code (60_exceptions.md R300). -/
theorem setsOwn_setEvt {a : Agent} {n : Nat} (hn : (1 <<< n : BitVec 9) &&& ~~~(evtOf a) = 0) (x : BitVec 9) :
    SetsOwn a x (setEvt x n) :=
  setsOwn_or hn x

/-- Clearing sets no flag (10_state.md R27). -/
theorem clearEvt_sets_none (x v e : BitVec 9) : clearEvt x v &&& ~~~x &&& ~~~e = 0 := by
  ext n hn
  simp only [clearEvt, BitVec.getElem_and, BitVec.getElem_not]
  cases x[n] <;> simp

/-- Everything that an operation other than SRESET, taking `s` to `t`, can do to the flags, the two counters and `E9`. -/
inductive Accounts (i : Instr) (s t : State) : Prop
  /-- It may set flags of its agent's own and take a record away. -/
  | flags (evt : SetsOwn (agentOf i) s.regs.evt t.regs.evt) (drop : t.regs.dropCnt = s.regs.dropCnt)
      (frame : t.regs.frameCnt = s.regs.frameCnt) (records : t.e9.length ≤ s.e9.length)
      (message : i = .syncFb → (∃ c, s.mbox = some (.abort c)) → t.mbox ≠ none)
  /-- The host's write of `EVT` clears flags (R27). -/
  | cleared (op : i = .regWr) (idx : s.env.idx = 0x0A) (v : BitVec 9) (evt : t.regs.evt = clearEvt s.regs.evt v)
      (drop : t.regs.dropCnt = s.regs.dropCnt) (frame : t.regs.frameCnt = s.regs.frameCnt) (records : t.e9 = s.e9)
  /-- The Frame Synchronizer consumes an abort (R318). -/
  | aborted (op : i = .syncFb) (message : ∃ c, s.mbox = some (.abort c)) (consumed : t.mbox = none)
      (evt : SetsOwn .sync s.regs.evt t.regs.evt) (drop : t.regs.dropCnt = s.regs.dropCnt + 1)
      (frame : t.regs.frameCnt = s.regs.frameCnt) (records : t.e9 = s.e9)
  /-- The CRC Verifier pushes a record. -/
  | recorded (agent : agentOf i = .crcv) (evt : SetsOwn .crcv s.regs.evt t.regs.evt) (drop : t.regs.dropCnt = s.regs.dropCnt)
      (frame : t.regs.frameCnt = s.regs.frameCnt + 1) (records : t.e9.length = s.e9.length + 1)
  /-- A performed START clears both counters (40_host_ops.md R144). -/
  | started (op : IsStart i s) (idle : s.regs.run = false) (running : t.regs.run = true) (evt : t.regs.evt = s.regs.evt)
      (drop : t.regs.dropCnt = 0) (frame : t.regs.frameCnt = 0)

/-! ### Stages -/

theorem Accounts.of_books {i : Instr} {s t : State} (hregs : t.regs = s.regs) (he9 : t.e9 = s.e9)
    (hi : i ≠ .syncFb := by nofun) : Accounts i s t :=
  .flags (.of_eq (by rw [hregs])) (by rw [hregs]) (by rw [hregs]) (by rw [he9]) fun hfb => absurd hfb hi

theorem accounts_of_keepsBooks_eq_false {i : Instr} (hi : keepsBooks i = false) (s : State) : Accounts i s (effect i s) :=
  have hsame := effect_sameBooks hi s
  .of_books hsame.regs hsame.e9 (by rintro rfl; cases hi)

/-- A cause that only sets a flag of the agent's own. -/
theorem Accounts.of_flag {i : Instr} {s u : State} {c : Cause} (hregs : u.regs = s.regs) (he9 : u.e9 = s.e9)
    (hc : (1 <<< c.code : BitVec 9) &&& ~~~(evtOf (agentOf i)) = 0) (hi : i ≠ .syncFb := by nofun) :
    Accounts i s (u.flag c) :=
  .flags (by rw [← hregs]; exact setsOwn_setEvt hc _) (by rw [← hregs]; rfl) (by rw [← hregs]; rfl) (by rw [← he9]; rfl)
    fun hfb => absurd hfb hi

theorem accounts_hammStep {i : Instr} (hi : agentOf i = .hamm) (s : State)
    (f : CwBlock → List (Nibble × CwStatus)) : Accounts i s (s.hammStep f) := by
  have hfb : i ≠ .syncFb := by rintro rfl; cases hi
  obtain ⟨t, hsame, h | h⟩ := s.hammStep_cases f
  · rw [h]
    exact .of_books hsame.regs hsame.e9 hfb
  · rw [h]
    exact .of_flag hsame.regs hsame.e9 (by rw [hi]; decide) hfb

/-- The consumption of a message: `PARAMS` writes no book, `ABORT` counts and sets the flag of one of the three header causes
(42_sync.md R203, R204). -/
theorem accounts_fbStep {s : State} {m : MboxMsg} (hm : s.mbox = some m) (hlegal : MessageLegal m) :
    Accounts .syncFb s (s.fbStep m) := by
  cases m with
  | params len cr crc =>
    refine .flags (.refl _ _) rfl rfl (Nat.le_refl _) fun _ ⟨c, hc⟩ => ?_
    rw [hm] at hc
    cases hc
  | abort cause =>
    obtain ⟨hlo, hhi⟩ := hlegal
    have hown : (1 <<< cause.toNat : BitVec 9) &&& ~~~(evtOf .sync) = 0 := by
      obtain h | h | h : cause.toNat = 1 ∨ cause.toNat = 2 ∨ cause.toNat = 3 := by omega
      all_goals rw [h]; rfl
    exact .aborted rfl ⟨cause, hm⟩ rfl (setsOwn_setEvt hown _) rfl rfl rfl

/-- A finished frame (48_crc.md R295). -/
theorem accounts_finish {i : Instr} (hi : agentOf i = .crcv) {s u : State} (hregs : u.regs = s.regs) (he9 : u.e9 = s.e9) :
    Accounts i s u.finish := by
  rw [State.finish_eq]
  refine .recorded hi ?_ (by rw [← hregs]) (by rw [← hregs]) (by simp [he9])
  rw [← hregs]
  dsimp only
  split
  · rw [setEvt, setEvt, BitVec.or_assoc]
    exact setsOwn_or (by decide) _
  · exact setsOwn_setEvt (by decide) _

theorem accounts_crcvStartStep (s : State) : Accounts .crcvStart s s.crcvStartStep := by
  unfold State.crcvStartStep
  split
  · dsimp only
    split
    · exact accounts_finish rfl rfl rfl
    · exact .of_books rfl rfl
  · exact .of_books rfl rfl

theorem accounts_crcvByteEffect (s : State) : Accounts .crcvByte s s.crcvByteEffect := by
  unfold State.crcvByteEffect
  split
  · unfold State.crcvByteNext
    dsimp only
    split
    · exact .of_books rfl rfl
    · split
      · exact accounts_finish rfl rfl rfl
      · exact .of_books rfl rfl
  · exact .of_books rfl rfl

/-! ### The host -/

theorem accounts_startCmd {i : Instr} {s : State} (hi : IsStart i s) (hhost : agentOf i = .host) :
    Accounts i s s.startCmd := by
  have hfb : i ≠ .syncFb := by rintro rfl; cases hhost
  obtain ⟨-, h⟩ | ⟨-, -, h⟩ | ⟨hrun, -, h⟩ := s.startCmd_cases
  · rw [h]
    exact .of_books rfl rfl hfb
  · rw [h]
    exact .flags (setsOwn_setEvt (by rw [hhost]; decide) _) rfl rfl (Nat.le_refl _) fun h => absurd h hfb
  · rw [h]
    exact .started hi hrun rfl rfl rfl rfl

/-- STOP keeps the records, the flags and the counters (40_host_ops.md R147). -/
theorem accounts_stopCmd {i : Instr} (s : State) (hfb : i ≠ .syncFb := by nofun) : Accounts i s s.stopCmd := by
  obtain ⟨-, h⟩ | ⟨-, h⟩ := s.stopCmd_cases
  · rw [h]
    exact .of_books rfl rfl hfb
  · rw [h]
    exact .flags (.refl _ _) rfl rfl (Nat.le_refl _) fun h => absurd h hfb

/-- A register write clears flags through `EVT` alone, and starts a session through `CTRL` alone. -/
theorem accounts_regWr {s : State} (hs : ¬IsSreset .regWr s) : Accounts .regWr s (s.regWrite s.env.idx s.env.v) := by
  obtain ⟨-, h⟩ | ⟨-, -, h⟩ | ⟨-, h⟩ | ⟨hidx, h⟩ | ⟨hidx, h⟩ := s.regWrite_cases s.env.idx s.env.v
  · rw [h]
    exact .of_flag rfl rfl (by decide)
  · rw [h]
    obtain ⟨hevt, hdrop, hframe⟩ := s.regs.writeConfig_frame s.env.idx s.env.v
    exact .flags (.of_eq hevt) hdrop hframe (Nat.le_refl _) nofun
  · rw [h]
    exact .flags (.refl _ _) rfl rfl (Nat.le_refl _) nofun
  · rw [h]
    exact .cleared rfl hidx _ rfl rfl rfl rfl
  · rw [h]
    obtain ⟨h2, -⟩ | ⟨-, -, hc⟩ | ⟨h2, h1, h0, hc⟩ | ⟨-, -, -, hc⟩ := s.command_cases s.env.v
    · exact absurd (.inr ⟨rfl, hidx, h2⟩) hs
    · rw [hc]
      exact accounts_stopCmd s
    · rw [hc]
      exact accounts_startCmd (.inr ⟨rfl, hidx, h2, h1, h0⟩) rfl
    · rw [hc]
      exact .of_books rfl rfl

/-! ### Every operation -/

theorem accounts_effect {i : Instr} {s : State} (hs : ¬IsSreset i s) (hm : ∀ m ∈ s.mbox, MessageLegal m)
    (he : enabled i s = true) : Accounts i s (effect i s) := by
  cases i with
  | regWr => exact accounts_regWr hs
  | regRd =>
    simp only [effect]
    split
    · exact .of_flag rfl rfl (by decide)
    · exact .of_books rfl rfl
  | start => exact accounts_startCmd (.inl rfl) rfl
  | stop => exact accounts_stopCmd s
  | sreset => exact absurd (.inl rfl) hs
  | sampPush =>
    simp only [effect]
    split
    · exact .of_books rfl rfl
    · split
      · exact .of_flag rfl rfl (by decide)
      · exact .of_books rfl rfl
  | recPop => exact .flags (.refl _ _) rfl rfl (by simp [effect]) nofun
  | syncFb =>
    obtain ⟨m, hmsg⟩ := Option.isSome_iff_exists.mp (Bool.and_elim_right he)
    simp only [effect, hmsg, Option.elim]
    exact accounts_fbStep hmsg (hm m hmsg)
  | hammCr1 | hammCr2 | hammCr3 | hammCr4 | hammS => exact accounts_hammStep rfl s _
  | crcvStart => exact accounts_crcvStartStep s
  | crcvByte => exact accounts_crcvByteEffect s
  | demodH | demodS | syncSearch | syncLocked | syncSwchk | syncSfd | syncFrame | grayH | grayS | deintH | deintS | hdrParse
  | hdrPass | hdrImpl | dewhStart | dewhNib => exact accounts_of_keepsBooks_eq_false rfl s

/-- The same of an operation performed whether enabled or not (20_memory.md R76). -/
theorem accounts_exec {i : Instr} {s t : State} (h : exec i s = .next t) (hs : ¬IsSreset i s)
    (hm : ∀ m ∈ s.mbox, MessageLegal m) : Accounts i s t := by
  rw [exec_eq_ifEnabled, ifEnabled_eq_next] at h
  obtain ⟨he, rfl⟩ | ⟨-, rfl⟩ := h
  · exact accounts_effect hs hm he
  · refine .flags (.refl _ _) rfl rfl (Nat.le_refl _) fun _ ⟨c, hc⟩ => ?_
    rw [hc]
    exact nofun

/-- Settles O60, by the five things `Accounts` says an operation can do to the flags, the counters and the records. -/
theorem flagsAndCountersHaveOneWriter : Obligations.FlagsAndCountersHaveOneWriter := by
  intro i s t h hs hm
  cases accounts_exec h hs hm with
  | flags evt drop frame records message =>
    obtain ⟨hkept, hown⟩ := evt
    exact ⟨fun _ => hkept, hown, .inl ⟨drop, fun ⟨hop, habort, hnone⟩ => message hop habort hnone⟩, .inl ⟨frame, records⟩⟩
  | cleared op idx v evt drop frame records =>
    refine ⟨fun hne => absurd ⟨op, idx⟩ hne, ?_, .inl ⟨drop, fun ⟨hop, _⟩ => ?_⟩, .inl ⟨frame, by rw [records]⟩⟩
    · rw [evt]
      exact clearEvt_sets_none _ _ _
    · rw [op] at hop
      cases hop
  | aborted op message consumed evt drop frame records =>
    obtain ⟨hkept, hown⟩ := evt
    subst op
    exact ⟨fun _ => hkept, hown, .inr (.inl ⟨rfl, message, consumed, drop⟩), .inl ⟨frame, by rw [records]⟩⟩
  | recorded agent evt drop frame records =>
    obtain ⟨hkept, hown⟩ := evt
    rw [agent]
    refine ⟨fun _ => hkept, hown, .inl ⟨drop, fun ⟨hop, _⟩ => ?_⟩, .inr (.inl ⟨rfl, records, frame⟩)⟩
    rw [hop] at agent
    cases agent
  | started op idle running evt drop frame =>
    obtain ⟨hkept, hown⟩ := SetsOwn.of_eq (a := agentOf i) evt
    exact ⟨fun _ => hkept, hown, .inr (.inr ⟨op, idle, running, drop⟩), .inr (.inr ⟨op, idle, running, frame⟩)⟩

end Sys2Proof.Safety
end

section
/-! Operations that are not enabled, and the lock of the configuration (20_memory.md R76, R88; 40_host_ops.md R142): what each
operation can do to the configuration registers. -/

namespace Sys2Proof.Machine

open Sys2Proof.Safety

/-- Settles O6: every operation is guarded by its enabling. -/
theorem notEnabledDoesNothing : Obligations.NotEnabledDoesNothing := fun _ _ => exec_of_not_enabled

/-- Settles O7: every operation answers its effect or the state as it is, `CRCV.BYTE` too, since its store is never past `PAY`. -/
theorem everyOperationAnswers : Obligations.EveryOperationAnswers := fun i s => ⟨_, exec_eq_ifEnabled i s⟩

/-! ### The configuration registers -/

/-- The configuration registers: the register space with everything else at 0. -/
def State.configRegs (s : State) : HostRegs :=
  { s.regs with
    irqEn := 0, evt := 0, dropCnt := 0, frameCnt := 0, run := false, cfgErr := false, cfgCode := 0 }

/-- Two states have the same configuration registers exactly when the seven registers agree (40_host_ops.md R140). -/
theorem State.configRegs_eq_iff {s t : State} :
    t.configRegs = s.configRegs ↔
      t.regs.sf = s.regs.sf ∧ t.regs.bw = s.regs.bw ∧ t.regs.fs = s.regs.fs ∧ t.regs.mode = s.regs.mode ∧
        t.regs.paylen = s.regs.paylen ∧ t.regs.sync = s.regs.sync ∧ t.regs.det = s.regs.det := by
  simp [State.configRegs]

theorem State.configRegs_finish (s : State) : s.finish.configRegs = s.configRegs := by rw [State.finish_eq]; rfl

theorem State.configRegs_startCmd (s : State) : s.startCmd.configRegs = s.configRegs := by
  obtain ⟨-, h⟩ | ⟨-, -, h⟩ | ⟨-, -, h⟩ := s.startCmd_cases
  · rw [h]
  · rw [h]; rfl
  · rw [h]; rfl

theorem State.configRegs_stopCmd (s : State) : s.stopCmd.configRegs = s.configRegs := by
  obtain ⟨-, h⟩ | ⟨-, h⟩ := s.stopCmd_cases
  · rw [h]
  · rw [h]; rfl

theorem State.configRegs_command {s : State} {v : Word32} (hv : ¬v.getLsbD 2 = true) :
    (s.command v).configRegs = s.configRegs := by
  obtain ⟨hreset, -⟩ | ⟨-, -, h⟩ | ⟨-, -, -, h⟩ | ⟨-, -, -, h⟩ := s.command_cases v
  · exact absurd hreset hv
  · rw [h, s.configRegs_stopCmd]
  · rw [h, s.configRegs_startCmd]
  · rw [h]

/-- In a session a write of a configuration register is refused (40_host_ops.md R142). -/
theorem State.configRegs_regWrite {s : State} {idx : BitVec 6} {v : Word32} (hrun : s.regs.run = true)
    (hs : ¬(idx = 0 ∧ v.getLsbD 2 = true)) : (s.regWrite idx v).configRegs = s.configRegs := by
  obtain ⟨-, h⟩ | ⟨-, hidle, -⟩ | ⟨-, h⟩ | ⟨-, h⟩ | ⟨h0, h⟩ := s.regWrite_cases idx v
  · rw [h]; rfl
  · rw [hrun] at hidle; cases hidle
  · rw [h]; rfl
  · rw [h]; rfl
  · rw [h, State.configRegs_command fun hv => hs ⟨h0, hv⟩]

theorem State.configRegs_hammStep (s : State) (f : CwBlock → List (Nibble × CwStatus)) :
    (s.hammStep f).configRegs = s.configRegs := by
  obtain ⟨t, hsame, h | h⟩ := s.hammStep_cases f <;> rw [h, State.configRegs, State.configRegs, ← hsame.regs]
  rfl

theorem State.configRegs_crcvStartStep (s : State) : s.crcvStartStep.configRegs = s.configRegs := by
  unfold State.crcvStartStep
  split
  · dsimp only
    split
    · exact State.configRegs_finish _
    · rfl
  · rfl

theorem State.configRegs_crcvByteEffect (s : State) : s.crcvByteEffect.configRegs = s.configRegs := by
  unfold State.crcvByteEffect
  split
  · unfold State.crcvByteNext
    dsimp only
    split
    · rfl
    · split
      · exact State.configRegs_finish _
      · rfl
  · rfl

theorem configRegs_effect {i : Instr} {s : State} (hrun : s.regs.run = true) (hs : ¬IsSreset i s) :
    (effect i s).configRegs = s.configRegs := by
  cases i with
  | regWr => exact State.configRegs_regWrite hrun fun hcmd => hs (.inr ⟨rfl, hcmd⟩)
  | regRd | sampPush => simp only [effect]; split_ifs <;> rfl
  | start => exact s.configRegs_startCmd
  | stop => exact s.configRegs_stopCmd
  | sreset => exact absurd (.inl rfl) hs
  | recPop => rfl
  | syncFb =>
    simp only [effect]
    rcases s.mbox with _ | (_ | _) <;> rfl
  | hammCr1 | hammCr2 | hammCr3 | hammCr4 | hammS => exact s.configRegs_hammStep _
  | crcvStart => exact s.configRegs_crcvStartStep
  | crcvByte => exact s.configRegs_crcvByteEffect
  | demodH | demodS | syncSearch | syncLocked | syncSwchk | syncSfd | syncFrame | grayH | grayS | deintH | deintS | hdrParse
  | hdrPass | hdrImpl | dewhStart | dewhNib => rw [State.configRegs, (effect_sameBooks rfl s).regs]; rfl

/-- Settles O59: in a session no effect but that of SRESET changes the configuration registers, and an operation that is not
enabled changes nothing. -/
theorem configurationIsLockedWhileRunning : Obligations.ConfigurationIsLockedWhileRunning := by
  intro i s t h hrun hs
  rw [← State.configRegs_eq_iff]
  rw [exec_eq_ifEnabled, ifEnabled_eq_next] at h
  obtain ⟨-, rfl⟩ | ⟨-, rfl⟩ := h
  · exact configRegs_effect hrun hs
  · rfl

end Sys2Proof.Machine
end

section
/-! The invariant: what each part of it reads, and the changes that keep it whatever the operation. -/

namespace Sys2Proof.Safety

open Sys2Proof.Machine

variable {s t : State}

/-! ### The configuration -/

/-- What START checks depends on the configuration registers and on the parameters alone (40_host_ops.md R146). -/
theorem configCheck_eq_of_configRegs (s : State) :
    s.configCheck = State.configCheck { State.reset with regs := s.configRegs, par := s.par } := rfl

theorem configCheck_congr (hc : t.configRegs = s.configRegs) (hp : t.par = s.par) : t.configCheck = s.configCheck := by
  rw [configCheck_eq_of_configRegs, hc, hp, ← configCheck_eq_of_configRegs]

/-- What the stages rely on of a configuration that START accepts (40_host_ops.md R146). -/
theorem legal_of_configCheck (h : s.configCheck = 0) :
    (7 ≤ s.sf ∧ s.sf ≤ 12) ∧ (s.syncN = 1 ∨ s.syncN = 2) ∧
      (s.impl = true → CrLegal s.modeCr.toNat ∧ s.paylen ≠ 0) := by
  unfold State.configCheck at h
  split_ifs at h with hsf hrate hcr hsync hdet hpaylen
  case neg =>
    refine ⟨by omega, by tauto, fun himpl => ⟨?_, fun h0 => hpaylen ⟨himpl, h0⟩⟩⟩
    have hrange := mt (And.intro himpl) hcr
    exact ⟨by omega, by omega⟩
  all_goals cases h

theorem ConfigInv.congr (h : ConfigInv s) (hc : t.configRegs = s.configRegs := by rfl)
    (hrun : t.regs.run = s.regs.run := by rfl) (hp : t.par = s.par := by rfl) : ConfigInv t := by
  obtain ⟨hsf, -, -, hmode, hpaylen, hsync, hdet⟩ := State.configRegs_eq_iff.mp hc
  exact
    { sf := hsf ▸ h.sf
      mode := hmode ▸ h.mode
      paylen := hpaylen ▸ h.paylen
      sync := hsync ▸ h.sync
      det := hdet ▸ h.det
      checked := fun ht => (configCheck_congr hc hp).trans (h.checked (hrun ▸ ht)) }

/-! ### A session -/

/-- `IdleInv` says nothing of a session. -/
theorem IdleInv.of_running (hrun : t.regs.run = true) : IdleInv t := by
  have hno : t.regs.run ≠ false := by simp [hrun]
  exact ⟨fun h => absurd h hno, fun h => absurd h hno, fun h => absurd h hno, fun h => absurd h hno⟩

/-- Outside a session no stage has a step to take: its input is empty (60_exceptions.md R317), or it waits for `RUN` = 1. -/
theorem running_of_enabled {i : Instr} (h : IdleInv s) (hi : agentOf i ≠ .host) (he : enabled i s = true) :
    s.regs.run = true := by
  by_contra hrun
  have hidle := eq_false_of_ne_true hrun
  obtain ⟨-, he2, he3, he4, he5, he6, he7, he8⟩ := h.edges hidle
  cases i with
  | regWr | regRd | start | stop | sreset | sampPush | recPop => exact hi rfl
  | demodH | demodS => simp [enabled, canDemodH, canDemodS, State.demodReady, hidle] at he
  | syncSearch | syncLocked | syncSwchk | syncSfd | syncFrame | syncFb =>
    simp [enabled, canSyncSearch, canSyncLocked, canSyncSwchk, canSyncSfd, canSyncFrame, canSyncFb, State.symReady,
      hidle] at he
  | grayH | grayS => simp [enabled, canGrayH, canGrayS, State.grayReady, he3] at he
  | deintH | deintS => simp [enabled, canDeintH, canDeintS, State.deintReady, he4] at he
  | hammCr1 | hammCr2 | hammCr3 | hammCr4 | hammS =>
    simp [enabled, State.canHammHard, State.canHammSoft, State.hammReady, he5] at he
  | hdrParse | hdrPass | hdrImpl => simp [enabled, canHdrParse, canHdrPass, canHdrImpl, State.hdrReady, he6] at he
  | dewhStart | dewhNib => simp [enabled, canDewhStart, canDewhNib, State.e7Start, State.e7Nib, he7] at he
  | crcvStart | crcvByte => simp [enabled, canCrcvStart, canCrcvByte, he8] at he

/-! ### What no part of the invariant reads -/

theorem inv_withEnv (h : Inv s) (e : Env) : Inv { s with env := e } where
  config := h.config.congr
  idle := { h.idle with }
  sync := { h.sync with }
  flight := { h.flight with }
  dewh := { h.dewh with }
  crcv := { h.crcv with }

/-- The interrupt mask, the flags, the counters and the code of a refused START steer nothing (10_state.md R27, R29). -/
theorem inv_withStatus (h : Inv s) (irq evt : BitVec 9) (drop frame : Word32) (err : Bool) (code : BitVec 4) :
    Inv { s with
      regs := { s.regs with
        irqEn := irq, evt := evt, dropCnt := drop, frameCnt := frame, cfgErr := err, cfgCode := code } } where
  config := h.config.congr
  idle := { h.idle with }
  sync := { h.sync with }
  flight := { h.flight with }
  dewh := { h.dewh with }
  crcv := { h.crcv with }

theorem inv_flag (h : Inv s) (c : Cause) : Inv (s.flag c) := inv_withStatus h _ _ _ _ _ _

/-! ### Changes of one part -/

/-- In a session, items that move and a message to or from `MBOX` concern `FlightInv` alone. -/
theorem inv_withFlight {d : DeintRegs} {st : HdrState} {m : Option MboxMsg} {q1 : List Sample} {q3 : List SymItem}
    {q4 : List GroupItem} {q5 : List CwBlock} {q6 : List NibBlock} {q7 : List E7Item} {q8 : List E8Item} {q9 : List Record}
    (h : Inv s) (hrun : s.regs.run = true)
    (hflight : FlightInv { s with
      deint := d, hdrState := st, mbox := m, e1 := q1, e3 := q3, e4 := q4, e5 := q5, e6 := q6, e7 := q7, e8 := q8, e9 := q9 }) :
    Inv { s with
      deint := d, hdrState := st, mbox := m, e1 := q1, e3 := q3, e4 := q4, e5 := q5, e6 := q6, e7 := q7, e8 := q8,
      e9 := q9 } where
  config := h.config.congr
  idle := .of_running hrun
  sync := { h.sync with }
  flight := hflight
  dewh := { h.dewh with }
  crcv := { h.crcv with }

end Sys2Proof.Safety
end

section
/-! The invariant through the Chirp Demodulator and the stages from the Gray Demapper to the Header Decoder: tags pass on
unchanged, and an edge takes an item only where it has room (20_memory.md R76, 30_encoding.md R123, R129). -/

namespace Sys2Proof.Safety

open Sys2Proof.Machine

variable {s : State}

/-! ### The Chirp Demodulator -/

/-- A symbol event comes to `E2` with the message in `DBOX` taken, and samples taken from `E1`. -/
theorem inv_pushE2 {l : List Sample} (e : SymEvt) (h : Inv s) (hrun : s.regs.run = true) (hl : l.length ≤ s.e1.length) :
    Inv { s with dbox := none, e1 := l, e2 := [e] } where
  config := h.config.congr
  idle := .of_running hrun
  sync := { h.sync with oneEvent := ⟨Nat.le_refl 1, fun _ => rfl⟩ }
  flight := { h.flight with depths := h.flight.depths.imp_left hl.trans }
  dewh := { h.dewh with }
  crcv := { h.crcv with }

theorem inv_demodStep (withLl : Bool) (h : Inv s) (hrun : s.regs.run = true) : Inv (s.demodStep withLl) := by
  unfold State.demodStep
  split
  · exact h
  · exact inv_pushE2 _ h hrun (by simp)

/-- The bench line `SYM` does to `E2` and `DBOX` what the demodulator does (30_encoding.md R125). -/
theorem inv_benchSym {t : State} {k : Bin} (h : Inv s) (hk : s.benchSym k = .next t) : Inv t := by
  unfold State.benchSym at hk
  split at hk
  · cases hk; exact h
  · split at hk
    · cases hk
    · cases hk
      split
      · rename_i hready
        exact inv_pushE2 _ h (Bool.and_elim_left (Bool.and_elim_left hready)) (Nat.le_refl _)
      · exact h

/-! ### The Gray Demapper -/

theorem inv_grayStep (f : SymItem → Group) (h : Inv s) (hrun : s.regs.run = true) (hr : s.grayReady = true) :
    Inv (s.grayStep f) := by
  simp only [State.grayReady, Bool.and_eq_true, Bool.not_eq_true', List.isEmpty_eq_false_iff, State.room_iff] at hr
  obtain ⟨hne, hroom⟩ := hr
  obtain ⟨it, rest, hq⟩ := List.exists_cons_of_ne_nil hne
  obtain ⟨htag, htags⟩ := List.forall_mem_cons.mp (hq ▸ h.flight.e3Tags)
  rw [State.grayStep_cons hq]
  exact inv_withFlight h hrun
    { h.flight with
      e3Tags := htags
      e4Tags := List.forall_mem_append.mpr ⟨h.flight.e4Tags, List.forall_mem_singleton.mpr htag⟩
      depths := by
        have := h.flight.depths
        simp only [hq, List.length_cons, List.length_append, List.length_nil] at this ⊢
        omega }

/-! ### The Deinterleaver -/

/-- The first group of a block gives it its tags (44_deinterleaver.md R231, R234). -/
theorem deintTake_of_first {r : DeintRegs} {it : GroupItem} (h : it.sof = true ∨ r.cnt = 0) :
    r.take it = ⟨r.blk.set 0 it.grp, 1, it.cr, it.hdr, it.sof⟩ := by
  have hcnt : (if it.sof = true then 0 else r.cnt) = 0 := ite_eq_left_iff.mpr h.resolve_left
  simp only [DeintRegs.take, hcnt, if_true]
  rfl

/-- Every other group adds to the block, whose tags stay. -/
theorem deintTake_of_later {r : DeintRegs} {it : GroupItem} (h : ¬(it.sof = true ∨ r.cnt = 0)) :
    r.take it = { r with blk := r.blk.set r.cnt.toNat it.grp, cnt := r.cnt + 1 } := by
  obtain ⟨hsof, hcnt⟩ := not_or.mp h
  simp only [DeintRegs.take, if_neg hsof, if_neg hcnt]

theorem length_blk_deintTake (r : DeintRegs) (it : GroupItem) : (r.take it).blk.length = r.blk.length := by
  by_cases h : it.sof = true ∨ r.cnt = 0
  · simp [deintTake_of_first h]
  · simp [deintTake_of_later h]

/-- A block has legal tags and is never larger than they say. -/
theorem deintTake_tags {r : DeintRegs} {it : GroupItem} (hit : TagLegal s it.hdr it.cr)
    (hblk : r.cnt ≠ 0 → TagLegal s r.hdr r.cr ∧ r.cnt.toNat < 4 + r.cr.toNat) :
    TagLegal s (r.take it).hdr (r.take it).cr ∧ (r.take it).cnt.toNat ≤ 4 + (r.take it).cr.toNat := by
  by_cases h : it.sof = true ∨ r.cnt = 0
  · rw [deintTake_of_first h]
    exact ⟨hit, Nat.le_add_right_of_le (by decide : (1 : BitVec 4).toNat ≤ 4)⟩
  · obtain ⟨htag, hlt⟩ := hblk fun h0 => h (.inr h0)
    rw [deintTake_of_later h]
    refine ⟨htag, ?_⟩
    obtain ⟨⟨-, hcr⟩, -⟩ := htag
    dsimp only
    bv_omega

theorem inv_deintStep (f : DeintRegs → CwBlock) (hf : ∀ r, (f r).hdr = r.hdr ∧ (f r).cr = r.cr) (h : Inv s)
    (hrun : s.regs.run = true) (hr : s.deintReady = true) : Inv (s.deintStep f) := by
  cases hq : s.e4 with
  | nil => simp [State.deintReady, hq] at hr
  | cons it rest =>
    simp only [State.deintReady, hq, Bool.or_eq_true, Bool.not_eq_true', State.room_iff] at hr
    obtain ⟨hit, htags⟩ := List.forall_mem_cons.mp (hq ▸ h.flight.e4Tags)
    obtain ⟨htag, hle⟩ := deintTake_tags hit h.flight.blkTags
    have hlength := (length_blk_deintTake s.deint it).trans h.flight.blkLength
    rw [State.deintStep_cons hq]
    split
    · rename_i hfull
      have hroom := hr.resolve_left (by simp [hfull])
      obtain ⟨hhdr, hcr⟩ := hf (s.deint.take it)
      exact inv_withFlight h hrun
        { h.flight with
          e4Tags := htags
          e5Tags := List.forall_mem_append.mpr
            ⟨h.flight.e5Tags, List.forall_mem_singleton.mpr (by rw [hhdr, hcr]; exact htag)⟩
          blkLength := hlength
          blkTags := fun hcnt => absurd rfl hcnt
          depths := by
            have := h.flight.depths
            simp only [hq, List.length_cons, List.length_append, List.length_nil] at this ⊢
            omega }
    · rename_i hpart
      have hne : (s.deint.take it).cnt.toNat ≠ 4 + (s.deint.take it).cr.toNat := by
        simpa [DeintRegs.complete] using hpart
      exact inv_withFlight h hrun
        { h.flight with
          e4Tags := htags
          blkLength := hlength
          blkTags := fun _ => ⟨htag, lt_of_le_of_ne hle hne⟩
          depths := by
            have := h.flight.depths
            simp only [hq, List.length_cons] at this ⊢
            omega }

/-! ### The Hamming Decoder -/

theorem inv_hammStep {p : CwBlock → Bool} (f : CwBlock → List (Nibble × CwStatus)) (h : Inv s) (hrun : s.regs.run = true)
    (hr : s.hammReady p = true) : Inv (s.hammStep f) := by
  cases hq : s.e5 with
  | nil => simp [State.hammReady, hq] at hr
  | cons b rest =>
    simp only [State.hammReady, hq, Bool.and_eq_true, State.room_iff] at hr
    obtain ⟨-, hroom⟩ := hr
    obtain ⟨htag, htags⟩ := List.forall_mem_cons.mp (hq ▸ h.flight.e5Tags)
    have hdecoded :
        Inv { s with e5 := rest, e6 := s.e6 ++ [⟨(f b).map Prod.fst, (f b).map Prod.snd, b.sof, b.hdr, b.cr⟩] } :=
      inv_withFlight h hrun
        { h.flight with
          e5Tags := htags
          e6Tags := List.forall_mem_append.mpr ⟨h.flight.e6Tags, List.forall_mem_singleton.mpr htag⟩
          depths := by
            have := h.flight.depths
            simp only [hq, List.length_cons, List.length_append, List.length_nil] at this ⊢
            omega }
    simp only [State.hammStep, hq]
    split
    · exact inv_flag hdecoded .payFec
    · exact hdecoded

/-! ### The Header Decoder -/

/-- A step that takes a block from `E6`, pushes at most what `E7` has room for and leaves a legal message in `MBOX`. -/
theorem inv_takeE6 {b : NibBlock} {rest : List NibBlock} {items : List E7Item} {m : Option MboxMsg} (st : HdrState)
    (h : Inv s) (hrun : s.regs.run = true) (hq : s.e6 = b :: rest) (hroom : items.length ≤ s.par.qDepth)
    (hm : ∀ x ∈ m, MessageLegal x) : Inv { s with e6 := rest, hdrState := st, e7 := items, mbox := m } :=
  inv_withFlight h hrun
    { h.flight with
      e6Tags := (List.forall_mem_cons.mp (hq ▸ h.flight.e6Tags)).2
      message := hm
      depths := by
        have := h.flight.depths
        simp only [hq, List.length_cons] at this ⊢
        omega }

/-- The message of `HDR.PARSE` is legal: the code of a header cause, or the coding rate of an accepted header (46_header.md
R263 to R266). -/
theorem hdrAbort_cases (b : NibBlock) :
    (∃ code, b.hdrAbort = some code ∧ 1 ≤ code.toNat ∧ code.toNat ≤ 3) ∨ (b.hdrAbort = none ∧ CrLegal b.hdrCr.toNat) := by
  unfold NibBlock.hdrAbort
  split_ifs with hfec hchk hrate
  · exact .inl ⟨2, rfl, by decide, by decide⟩
  · exact .inl ⟨1, rfl, by decide, by decide⟩
  · exact .inl ⟨3, rfl, by decide, by decide⟩
  · exact .inr ⟨rfl, by omega, by omega⟩

theorem hdrReady_cases {hdr : Bool} {k : Nat} (hr : s.hdrReady hdr k = true) :
    ∃ b rest, s.e6 = b :: rest ∧ s.e7.length + k ≤ s.par.qDepth := by
  cases hq : s.e6 with
  | nil => simp [State.hdrReady, hq] at hr
  | cons b rest =>
    simp only [State.hdrReady, hq, Bool.and_eq_true, State.room_iff] at hr
    exact ⟨b, rest, rfl, hr.2⟩

theorem inv_parseStep (h : Inv s) (hrun : s.regs.run = true) (hr : s.hdrReady true (1 + (s.sf - 5)) = true) :
    Inv s.parseStep := by
  obtain ⟨b, rest, hq, hroom⟩ := hdrReady_cases hr
  obtain ⟨code, habort, hlegal⟩ | ⟨habort, hlegal⟩ := hdrAbort_cases b <;> simp only [State.parseStep, hq, habort]
  · obtain ⟨-, -, -, -, -, he7, -⟩ := h.flight.depths
    exact inv_takeE6 _ h hrun hq he7 (by rintro _ ⟨⟩; exact hlegal)
  · refine inv_takeE6 _ h hrun hq ?_ (by rintro _ ⟨⟩; exact hlegal)
    simp only [List.length_append, List.length_cons, NibBlock.length_nibItems]
    omega

theorem inv_passStep (h : Inv s) (hrun : s.regs.run = true) (hr : s.hdrReady false s.sf = true) : Inv s.passStep := by
  obtain ⟨b, rest, hq, hroom⟩ := hdrReady_cases hr
  simp only [State.passStep, hq]
  refine inv_takeE6 _ h hrun hq ?_ h.flight.message
  split
  · simp only [List.length_append, NibBlock.length_nibItems]
    omega
  · omega

theorem inv_implStep (h : Inv s) (hrun : s.regs.run = true) (hr : canHdrImpl s = true) : Inv s.implStep := by
  simp only [canHdrImpl, Bool.and_eq_true, Bool.not_eq_true', List.isEmpty_eq_false_iff, State.room_iff] at hr
  obtain ⟨⟨-, hne⟩, hroom⟩ := hr
  obtain ⟨b, rest, hq⟩ := List.exists_cons_of_ne_nil hne
  simp only [State.implStep, hq]
  refine inv_takeE6 _ h hrun hq ?_ h.flight.message
  split_ifs <;> simp only [List.length_append, List.length_cons, List.length_nil, NibBlock.length_nibItems] <;> omega

end Sys2Proof.Safety
end

section
/-! The invariant through the Dewhitener and the CRC Verifier: the generator stays in step with the byte index (47_dewhitener.md
R281), the accumulator with the bytes stored (48_crc.md R294). -/

namespace Sys2Proof.Safety

open Sys2Proof.Machine

variable {s : State}

/-! ### The Dewhitener -/

/-- A step that takes an item from `E7` and pushes at most one on `E8`. -/
theorem inv_takeE7 {x : E7Item} {rest : List E7Item} {items : List E8Item} {r : DewhRegs} (h : Inv s)
    (hrun : s.regs.run = true) (hq : s.e7 = x :: rest) (hroom : items.length ≤ s.par.qDepth)
    (hr : DewhInv { s with e7 := rest, dewh := r, e8 := items }) : Inv { s with e7 := rest, dewh := r, e8 := items } where
  config := h.config.congr
  idle := .of_running hrun
  sync := { h.sync with }
  flight :=
    { h.flight with
      depths := by
        have := h.flight.depths
        simp only [hq, List.length_cons] at this ⊢
        omega }
  dewh := hr
  crcv := { h.crcv with }

theorem inv_dewhStartStep (h : Inv s) (hrun : s.regs.run = true) (hr : canDewhStart s = true) : Inv s.dewhStartStep := by
  have hroom : s.e8.length + 1 ≤ s.par.qDepth := (s.room_iff _ _).mp (Bool.and_elim_right hr)
  rcases hq : s.e7 with _ | ⟨_ | _, rest⟩
  case cons.fstart =>
    simp only [State.dewhStartStep, hq]
    exact inv_takeE7 h hrun hq (by simpa using hroom) ⟨fun hopen => by simpa using hopen, fun _ => rfl⟩
  all_goals simp [canDewhStart, State.e7Start, hq] at hr

theorem frameBytes_le (len : Byte) (crc : Bool) : frameBytes len crc ≤ 257 := by
  have := len.isLt
  cases crc <;> simp [frameBytes, bitNat] <;> omega

/-- A byte that goes out takes the generator one step with the byte index, and closes the frame when it is the last. -/
theorem dewhInv_afterByte (h : DewhInv s) (hopen : s.dewh.isOpen = true) {rest : List E7Item} {items : List E8Item} :
    DewhInv { s with e7 := rest, dewh := s.dewh.afterByte, e8 := items } := by
  have hlt := h.toCome hopen
  have hle := frameBytes_le s.dewh.len s.dewh.crc
  have hnext : (s.dewh.byteIdx + 1).toNat = s.dewh.byteIdx.toNat + 1 := by bv_omega
  constructor
  · intro hstill
    simp only [DewhRegs.afterByte, Bool.and_eq_true, decide_eq_true_eq, hnext] at hstill ⊢
    omega
  · intro hidx
    simp only [DewhRegs.afterByte, hnext] at hidx ⊢
    rw [if_pos (by omega), h.generator (by omega)]
    rfl

theorem inv_dewhNibStep (h : Inv s) (hrun : s.regs.run = true) (hr : canDewhNib s = true) : Inv s.dewhNibStep := by
  have hroom : s.e8.length + 1 ≤ s.par.qDepth := (s.room_iff _ _).mp (Bool.and_elim_right hr)
  rcases hq : s.e7 with _ | ⟨_ | n, rest⟩
  case cons.nib =>
    simp only [State.dewhNibStep, hq]
    split
    · exact inv_takeE7 h hrun hq (by omega) { h.dewh with }
    · rename_i hopen
      split
      · exact inv_takeE7 h hrun hq (by omega) { h.dewh with }
      · exact inv_takeE7 h hrun hq (by simpa using hroom) (dewhInv_afterByte h.dewh (eq_true_of_ne_false hopen))
  all_goals simp [canDewhNib, State.e7Nib, hq] at hr

/-! ### The CRC Verifier -/

/-- A step that takes an item from `E8`. -/
theorem inv_takeE8 {x : E8Item} {rest : List E8Item} {r : CrcvRegs} (h : Inv s) (hrun : s.regs.run = true)
    (hq : s.e8 = x :: rest) (hr : CrcvInv { s with e8 := rest, crcv := r }) : Inv { s with e8 := rest, crcv := r } where
  config := h.config.congr
  idle := .of_running hrun
  sync := { h.sync with }
  flight :=
    { h.flight with
      depths := by
        have := h.flight.depths
        simp only [hq, List.length_cons] at this ⊢
        omega }
  dewh := { h.dewh with }
  crcv := hr

/-- A frame is finished where `E9` has room for its record (48_crc.md R295). -/
theorem inv_finish {x : E8Item} {rest : List E8Item} {r : CrcvRegs} (h : Inv s) (hrun : s.regs.run = true)
    (hq : s.e8 = x :: rest) (hpay : r.pay.wf = true) (hroom : s.recRoom = true) :
    Inv (State.finish { s with e8 := rest, crcv := r }) := by
  have hclosed : Inv { s with e8 := rest, crcv := { r with isOpen := false } } :=
    inv_takeE8 h hrun hq ⟨hpay, nofun, nofun⟩
  have hrec := s.recRoom_iff.mp hroom
  have hrecorded : Inv { s with e8 := rest, crcv := { r with isOpen := false }, e9 := s.e9 ++ [r.record] } :=
    inv_withFlight hclosed hrun
      { hclosed.flight with
        depths := by
          have := hclosed.flight.depths
          simp only [List.length_append, List.length_cons, List.length_nil] at this ⊢
          omega }
  rw [State.finish_eq]
  exact inv_withStatus hrecorded _ _ _ _ _ _

theorem inv_crcvStartStep (h : Inv s) (hrun : s.regs.run = true) (hr : canCrcvStart s = true) : Inv s.crcvStartStep := by
  rcases hq : s.e8 with _ | ⟨_ | _, rest⟩
  case cons.fstart =>
    simp only [canCrcvStart, hq, Bool.or_eq_true, decide_eq_true_eq] at hr
    simp only [State.crcvStartStep, hq]
    split
    · rename_i hnone
      exact inv_finish h hrun hq h.crcv.payForm (hr.resolve_left (absurd hnone))
    · rename_i hsome
      exact inv_takeE8 h hrun hq ⟨h.crcv.payForm, fun _ => Nat.pos_of_ne_zero hsome, fun _ => rfl⟩
  all_goals simp [canCrcvStart, hq] at hr

theorem wf_pay_taken {r : CrcvRegs} (b : Byte) (h : r.pay.wf = true) : (r.taken b).pay.wf = true := by
  unfold CrcvRegs.taken
  split
  · have := r.len.isLt
    exact Memory.wfFrom_write b h (Nat.zero_le _) (by simp only [paySize]; omega)
  · split <;> exact h

/-- One more byte of the frame is taken, whose length and CRC flag stay. -/
theorem taken_count (r : CrcvRegs) (b : Byte) :
    (r.taken b).payCnt = r.payCnt + 1 ∧ (r.taken b).len = r.len ∧ (r.taken b).crc = r.crc := by
  unfold CrcvRegs.taken
  split
  · exact ⟨rfl, rfl, rfl⟩
  · split <;> exact ⟨rfl, rfl, rfl⟩

theorem crc16_append_singleton (bytes : List Byte) (b : Byte) : crc16 (bytes ++ [b]) = crc16Update (crc16 bytes) b := by
  simp [crc16]

/-- The accumulator stays the CRC of the payload bytes stored (48_crc.md R292, R294). -/
theorem acc_taken {r : CrcvRegs} (b : Byte) (hw : r.pay.wf = true) (hcnt : (r.payCnt + 1).toNat = r.payCnt.toNat + 1)
    (h : r.acc = crc16 (r.pay.firstBytes (min r.payCnt.toNat r.len.toNat))) :
    (r.taken b).acc = crc16 ((r.taken b).pay.firstBytes (min (r.payCnt + 1).toNat r.len.toNat)) := by
  unfold CrcvRegs.taken
  split
  · rename_i hlt
    rw [hcnt, Nat.min_eq_left (Nat.succ_le_of_lt hlt), Memory.firstBytes_succ, Memory.firstBytes_write,
      Memory.read_write_eq b hw, crc16_append_singleton]
    rw [Nat.min_eq_left hlt.le] at h
    rw [← h]
  · rename_i hge
    have hmin : min (r.payCnt + 1).toNat r.len.toNat = min r.payCnt.toNat r.len.toNat := by omega
    rw [hmin]
    split <;> exact h

theorem payCnt_succ (h : CrcvInv s) (hopen : s.crcv.isOpen = true) :
    (s.crcv.payCnt + 1).toNat = s.crcv.payCnt.toNat + 1 := by
  have hlt := h.toCome hopen
  have hle := frameBytes_le s.crcv.len s.crcv.crc
  bv_omega

/-- A byte of an open frame that is not its last leaves the frame open, with bytes to come. -/
theorem crcvInv_taken {b : Byte} {rest : List E8Item} (h : CrcvInv s) (hopen : s.crcv.isOpen = true)
    (hmore : (s.crcv.taken b).payCnt.toNat ≠ frameBytes (s.crcv.taken b).len (s.crcv.taken b).crc) :
    CrcvInv { s with e8 := rest, crcv := s.crcv.taken b } := by
  obtain ⟨hcnt, hlen, hcrc⟩ := taken_count s.crcv b
  have hlt := h.toCome hopen
  have hnext := payCnt_succ h hopen
  rw [hcnt, hlen, hcrc, hnext] at hmore
  constructor
  · exact wf_pay_taken b h.payForm
  · intro _
    dsimp only
    rw [hcnt, hlen, hcrc, hnext]
    omega
  · intro _
    dsimp only
    rw [hcnt, hlen]
    exact acc_taken b h.payForm hnext (h.running hopen)

theorem inv_crcvByteEffect (h : Inv s) (hrun : s.regs.run = true) (hr : canCrcvByte s = true) : Inv s.crcvByteEffect := by
  rcases hq : s.e8 with _ | ⟨_ | b, rest⟩
  case cons.byte =>
    simp only [canCrcvByte, hq] at hr
    simp only [State.crcvByteEffect_cons hq, State.crcvByteNext]
    split
    · exact inv_takeE8 h hrun hq { h.crcv with }
    · rename_i hclosed
      have hopen := eq_true_of_ne_false hclosed
      split
      · rename_i hlast
        refine inv_finish h hrun hq (wf_pay_taken b h.crcv.payForm) ?_
        obtain ⟨hcnt, hlen, hcrc⟩ := taken_count s.crcv b
        rw [hcnt, hlen, hcrc, payCnt_succ h.crcv hopen] at hlast
        simpa [hopen, hlast] using hr
      · exact inv_takeE8 h hrun hq (crcvInv_taken h.crcv hopen ‹_›)
  all_goals simp [canCrcvByte, hq] at hr

end Sys2Proof.Safety
end

section
/-! The invariant through the Frame Synchronizer (42_sync.md R207). Outside a frame its frame registers are idle; in a frame the
frame parameters are valid and symbols are still to come. -/

namespace Sys2Proof.Safety

open Sys2Proof.Machine

variable {s t : State}

/-! ### Outside a frame, and in one -/

/-- No frame is being received, and the registers of a frame are clear (10_state.md R31, R35). -/
structure OutsideFrame (r : SyncRegs) : Prop where
  state : r.state ≠ .inFrame
  valid : r.fp.valid = false
  symIdx : r.symIdx = 0
  symRem : r.symRem = 0
  hdrWait : r.hdrWait = false

theorem outsideFrame_of_syncInv (h : SyncInv s) (hst : s.sync.state ≠ .inFrame) : OutsideFrame s.sync := by
  obtain ⟨hidx, hrem, hwait⟩ := h.outside hst
  exact ⟨hst, eq_false_of_ne_true fun hv => hst (h.fpLive.mp hv), hidx, hrem, hwait⟩

theorem outsideFrame_resetSearch (r : SyncRegs) : OutsideFrame r.resetSearch := ⟨nofun, rfl, rfl, rfl, rfl⟩

theorem syncInv_of_outsideFrame (h : OutsideFrame t.sync)
    (hun : t.sync.state = .searching ∨ t.sync.state = .preambleLocked → t.sync.syncIdx = 0)
    (hma : t.sync.state = .syncWordCheck → t.sync.syncIdx = 1 ∧ t.syncN = 2)
    (he2 : t.e2.length ≤ 1 ∧ (t.e2 ≠ [] → t.dbox = none)) : SyncInv t where
  fpLive := iff_of_false (by simp [h.valid]) h.state
  fpCr hv := by simp [h.valid] at hv
  outside _ := ⟨h.symIdx, h.symRem, h.hdrWait⟩
  saturated := by simp [h.symIdx]
  hold hw := by simp [h.hdrWait] at hw
  counted hst := absurd hst h.state
  unmatched := hun
  matched := hma
  oneEvent := he2

/-- After `reset_search()` (42_sync.md R183). -/
theorem syncInv_of_resetSearch {r : SyncRegs} (h : t.sync = r.resetSearch)
    (he2 : t.e2.length ≤ 1 ∧ (t.e2 ≠ [] → t.dbox = none)) : SyncInv t :=
  syncInv_of_outsideFrame (h ▸ outsideFrame_resetSearch r) (fun _ => by rw [h]; rfl) (fun hst => by simp [h] at hst) he2

/-- In a frame (42_sync.md R197, R203): the header block holds for `MBOX` at its end, every other part counts `sym_rem`. -/
theorem syncInv_of_inFrame (hst : t.sync.state = .inFrame) (hvalid : t.sync.fp.valid = true)
    (hcr : CrLegal t.sync.fp.cr.toNat) (hsat : t.sync.symIdx.toNat ≤ 8)
    (hold : t.sync.hdrWait = true → t.impl = false ∧ t.sync.symIdx = 8)
    (hcount : t.sync.hdrWait = false → (t.impl = true ∨ t.sync.symIdx = 8) → t.sync.symRem ≠ 0)
    (he2 : t.e2.length ≤ 1 ∧ (t.e2 ≠ [] → t.dbox = none)) : SyncInv t where
  fpLive := iff_of_true hvalid hst
  fpCr _ := hcr
  outside h := absurd hst h
  saturated := hsat
  hold hw := ⟨hst, hold hw⟩
  counted _ := hcount
  unmatched h := by simp [hst] at h
  matched h := by simp [hst] at h
  oneEvent := he2

/-- A step that writes the synchronizer's registers and posts a message in `DBOX`. -/
theorem inv_setSync {r : SyncRegs} {d : Option Dctl} (h : Inv s) (hrun : s.regs.run = true)
    (hr : SyncInv { s with sync := r, dbox := d }) : Inv { s with sync := r, dbox := d } where
  config := h.config.congr
  idle := .of_running hrun
  sync := hr
  flight := { h.flight with }
  dewh := { h.dewh with }
  crcv := { h.crcv with }

/-- A symbol step starts with the event taken from `E2`, which holds no other. -/
theorem inv_symStep {st : SyncState} {f : State → SymEvt → State} (h : Inv s) (hr : s.symReady st = true)
    (hf : s.sync.state = st → s.sync.hdrWait = false → ∀ e, Inv { s with e2 := [] } → Inv (f { s with e2 := [] } e)) :
    Inv (s.symStep f) := by
  obtain ⟨hrun, hst, hwait, -, hne⟩ := (s.symReady_iff st).mp hr
  obtain ⟨e, rest, hq⟩ := List.exists_cons_of_ne_nil hne
  have hrest : rest = [] := by
    have := h.sync.oneEvent.1
    rw [hq, List.length_cons] at this
    exact List.length_eq_zero_iff.mp (by omega)
  subst hrest
  rw [State.symStep_cons hq]
  exact hf hst hwait e
    { config := h.config.congr
      idle := .of_running hrun
      sync := { h.sync with oneEvent := ⟨Nat.zero_le 1, fun h => absurd rfl h⟩ }
      flight := { h.flight with }
      dewh := { h.dewh with }
      crcv := { h.crcv with } }

/-! ### The search for a frame -/

theorem oneEvent_of_nil (h : t.e2 = []) : t.e2.length ≤ 1 ∧ (t.e2 ≠ [] → t.dbox = none) :=
  ⟨by simp [h], fun hne => absurd h hne⟩

/-- The search registers are none of a frame and leave the state alone (42_sync.md R184, R185). -/
theorem searchRun_outsideFrame (k : Bin) (h : OutsideFrame s.sync) :
    OutsideFrame (s.searchRun k) ∧ (s.searchRun k).state = s.sync.state ∧ (s.searchRun k).syncIdx = s.sync.syncIdx := by
  unfold State.searchRun
  split <;> exact ⟨{ h with }, rfl, rfl⟩

theorem inv_searchStep (k : Bin) (h : Inv s) (hrun : s.regs.run = true) (hst : s.sync.state = .searching) (he2 : s.e2 = []) :
    Inv (s.searchStep k) := by
  have hout := outsideFrame_of_syncInv h.sync (by rw [hst]; nofun)
  obtain ⟨hsearch, hstate, hidx⟩ := searchRun_outsideFrame k hout
  have hidx0 : (s.searchRun k).syncIdx = 0 := hidx.trans (h.sync.unmatched (.inl hst))
  unfold State.searchStep
  dsimp only
  split
  · exact inv_setSync h hrun
      (syncInv_of_outsideFrame { hsearch with state := nofun } (fun _ => hidx0) nofun (oneEvent_of_nil he2))
  · refine inv_setSync h hrun (syncInv_of_outsideFrame hsearch (fun _ => hidx0) (fun hma => ?_) (oneEvent_of_nil he2))
    rw [hstate, hst] at hma
    cases hma

theorem inv_syncMiss (h : Inv s) (hrun : s.regs.run = true) (he2 : s.e2 = []) : Inv (s.raise .syncMiss) :=
  inv_setSync h hrun (syncInv_of_resetSearch (r := s.sync) rfl (oneEvent_of_nil he2))

/-- A symbol of the sync word is matched as the first of two, or as the last (42_sync.md R190, R191). -/
theorem inv_syncCheck (k : Bin) (h : Inv s) (hrun : s.regs.run = true)
    (hst : s.sync.state = .preambleLocked ∨ s.sync.state = .syncWordCheck) (he2 : s.e2 = []) : Inv (s.syncCheck k) := by
  have hout := outsideFrame_of_syncInv h.sync (by rcases hst with hst | hst <;> rw [hst] <;> nofun)
  unfold State.syncCheck
  split
  · split
    · exact inv_setSync h hrun
        (syncInv_of_outsideFrame { hout with state := nofun } (by rintro (h | h) <;> cases h) nofun (oneEvent_of_nil he2))
    · rename_i hmore
      have hfirst : s.sync.syncIdx + 1 = 1 ∧ s.syncN = 2 := by
        obtain ⟨-, hn, -⟩ := legal_of_configCheck (h.config.checked hrun)
        rcases hst with hst | hst
        · rw [h.sync.unmatched (.inr hst)] at hmore ⊢
          exact ⟨rfl, hn.resolve_left fun h1 => hmore h1.symm⟩
        · obtain ⟨hidx, hn2⟩ := h.sync.matched hst
          rw [hidx, hn2] at hmore
          exact absurd rfl hmore
      exact inv_setSync h hrun
        (syncInv_of_outsideFrame { hout with state := nofun } (by rintro (h | h) <;> cases h) (fun _ => hfirst)
          (oneEvent_of_nil he2))
  · exact inv_syncMiss h hrun he2

theorem inv_lockedStep (k : Bin) (h : Inv s) (hrun : s.regs.run = true) (hst : s.sync.state = .preambleLocked)
    (he2 : s.e2 = []) : Inv (s.lockedStep k) := by
  unfold State.lockedStep
  split
  · exact inv_setSync h hrun { h.sync with oneEvent := oneEvent_of_nil he2 }
  · exact inv_syncCheck k h hrun (.inl hst) he2

/-! ### A frame -/

theorem crLegal_four : CrLegal (4 : BitVec 3).toNat := ⟨by decide, by decide⟩

/-- A frame in implicit mode has symbols to come, and they fit `sym_rem` (42_sync.md R201, R202). -/
theorem implicitSymbols_ne_zero {sf len cr : Nat} (crc : Bool) (hsf : 7 ≤ sf ∧ sf ≤ 12) (hlen : 1 ≤ len ∧ len ≤ 255)
    (hcr : CrLegal cr) : BitVec.ofNat 10 (implicitSymbols sf len cr crc) ≠ 0 := by
  obtain ⟨hcr1, hcr4⟩ := hcr
  have hblocks : 1 ≤ ceilDiv (2 * (len + 2 * bitNat crc)) sf ∧ ceilDiv (2 * (len + 2 * bitNat crc)) sf ≤ 75 := by
    unfold ceilDiv
    have hbit : bitNat crc ≤ 1 := by cases crc <;> decide
    refine ⟨(Nat.one_le_div_iff (by omega)).mpr (by omega), ?_⟩
    refine Nat.div_le_of_le_mul ?_
    omega
  have hlow : 0 < implicitSymbols sf len cr crc := Nat.mul_pos (by omega) (by omega)
  have hhigh : implicitSymbols sf len cr crc ≤ 75 * 8 := Nat.mul_le_mul hblocks.2 (by omega)
  intro h0
  have hmod : implicitSymbols sf len cr crc % 2 ^ 10 = 0 := congrArg BitVec.toNat h0
  omega

theorem inv_sfdStep (k : Bin) (h : Inv s) (hrun : s.regs.run = true) (hst : s.sync.state = .sfdAlign) (he2 : s.e2 = []) :
    Inv (s.sfdStep k) := by
  have hout := outsideFrame_of_syncInv h.sync (by rw [hst]; nofun)
  unfold State.sfdStep
  split
  · refine inv_setSync h hrun (syncInv_of_outsideFrame { hout with } ?_ ?_ (oneEvent_of_nil he2)) <;> simp [hst]
  · split
    · refine inv_setSync h hrun ?_
      obtain ⟨hsf, -, himplicit⟩ := legal_of_configCheck (h.config.checked hrun)
      unfold State.enterFrame
      split
      · rename_i himpl
        obtain ⟨hcr, hlen⟩ := himplicit himpl
        have hlen' : s.paylen.toNat ≠ 0 := fun h0 => hlen (BitVec.eq_of_toNat_eq h0)
        exact syncInv_of_inFrame rfl rfl hcr (Nat.zero_le 8) nofun
          (fun _ _ => implicitSymbols_ne_zero _ hsf ⟨by omega, by have := s.paylen.isLt; omega⟩ hcr) (oneEvent_of_nil he2)
      · rename_i hexpl
        exact syncInv_of_inFrame rfl rfl crLegal_four (Nat.zero_le 8) nofun
          (fun _ hor => hor.elim (absurd · hexpl) nofun) (oneEvent_of_nil he2)
    · exact inv_syncMiss h hrun he2

/-- A symbol of a frame is tagged as header block or payload (42_sync.md R197, R198). -/
theorem tagLegal_frameItem (e : SymEvt) (hcr : CrLegal s.sync.fp.cr.toNat) :
    TagLegal s (s.frameItem e).hdr (s.frameItem e).cr := by
  simp only [TagLegal, State.frameItem]
  split
  · rename_i hblk
    exact ⟨crLegal_four, fun _ => ⟨rfl, by simpa using Bool.and_elim_left hblk⟩⟩
  · rename_i hblk
    exact ⟨hcr, fun h => absurd h hblk⟩

/-- The item is on `E3`, where it has room. -/
theorem inv_pushE3 (e : SymEvt) (h : Inv s) (hrun : s.regs.run = true) (hst : s.sync.state = .inFrame)
    (hroom : s.room s.e3 1 = true) : Inv { s with e3 := s.e3 ++ [s.frameItem e] } :=
  inv_withFlight h hrun
    { h.flight with
      e3Tags := List.forall_mem_append.mpr
        ⟨h.flight.e3Tags, List.forall_mem_singleton.mpr (tagLegal_frameItem e (h.sync.fpCr (h.sync.fpLive.mpr hst)))⟩
      depths := by
        have := h.flight.depths
        have := (s.room_iff _ _).mp hroom
        simp only [List.length_append, List.length_cons, List.length_nil]
        omega }

/-- A symbol that leaves the frame open leaves the synchronizer waiting for `MBOX`, or symbols to come (42_sync.md R197, R205). -/
theorem syncInv_frameRegs (h : SyncInv s) (hst : s.sync.state = .inFrame) (hwait : s.sync.hdrWait = false)
    (hmore : (!s.hdrBlk && decide (s.frameRegs.symRem = 0)) = false) {d : Option Dctl} (he2 : s.e2 = []) :
    SyncInv { s with sync := s.frameRegs, dbox := d } := by
  have hvalid := h.fpLive.mpr hst
  have hsat := h.saturated
  have hblk_iff : s.hdrBlk = true ↔ s.impl = false ∧ s.sync.symIdx.toNat < 8 := by simp [State.hdrBlk]
  cases hblk : s.hdrBlk with
  | true =>
    obtain ⟨himpl, hidx⟩ := hblk_iff.mp hblk
    have hregs : s.frameRegs = { s.sync with symIdx := s.sync.symIdx + 1, hdrWait := decide (s.sync.symIdx + 1 = 8) } := by
      simp [State.frameRegs, hblk, hidx, hwait]
    rw [hregs]
    refine syncInv_of_inFrame hst hvalid (h.fpCr hvalid) ?_ (fun hw => ⟨himpl, of_decide_eq_true hw⟩) (fun hw hor => ?_)
      (oneEvent_of_nil he2)
    · dsimp only
      bv_omega
    · obtain hi | hi := hor
      · exact absurd himpl (ne_false_of_eq_true hi)
      · exact absurd hi (of_decide_eq_false hw)
  | false =>
    have hregs : s.frameRegs =
        { s.sync with
          symIdx := if s.sync.symIdx.toNat < 8 then s.sync.symIdx + 1 else s.sync.symIdx
          symRem := s.sync.symRem - 1 } := by
      simp [State.frameRegs, hblk]
    rw [hregs] at hmore ⊢
    have hrem : s.sync.symRem - 1 ≠ 0 := by simpa [hblk] using hmore
    refine syncInv_of_inFrame hst hvalid (h.fpCr hvalid) ?_ (fun hw => absurd hw (ne_true_of_eq_false hwait))
      (fun _ _ => hrem) (oneEvent_of_nil he2)
    dsimp only
    split
    · bv_omega
    · exact hsat

theorem inv_frameStep (e : SymEvt) (h : Inv s) (hrun : s.regs.run = true) (hst : s.sync.state = .inFrame)
    (hwait : s.sync.hdrWait = false) (hroom : s.room s.e3 1 = true) (he2 : s.e2 = []) : Inv (s.frameStep e) := by
  have hpush := inv_pushE3 e h hrun hst hroom
  unfold State.frameStep
  dsimp only
  split
  · exact inv_setSync hpush hrun (syncInv_of_resetSearch (r := s.frameRegs) rfl (oneEvent_of_nil he2))
  · rename_i hmore
    have hopen := syncInv_frameRegs h.sync hst hwait (eq_false_of_ne_true hmore) (d := some s.frameRegs.dctlFrame) he2
    exact inv_setSync hpush hrun { hopen with }

theorem inv_fbStep {m : MboxMsg} (h : Inv s) (hr : canSyncFb s = true) (hm : s.mbox = some m) : Inv (s.fbStep m) := by
  simp only [canSyncFb, Bool.and_eq_true, decide_eq_true_eq] at hr
  obtain ⟨⟨⟨hrun, hst⟩, hwait⟩, -⟩ := hr
  have htaken : Inv { s with mbox := none } := inv_withFlight h hrun { h.flight with message := nofun }
  cases m with
  | params len cr crc =>
    refine inv_setSync htaken hrun ?_
    obtain ⟨-, himpl, hidx⟩ := h.sync.hold hwait
    have hcr : CrLegal cr.toNat := h.flight.message _ hm
    split
    · exact syncInv_of_resetSearch rfl h.sync.oneEvent
    · rename_i hrem
      exact syncInv_of_inFrame hst rfl hcr h.sync.saturated nofun (fun _ _ => hrem) h.sync.oneEvent
  | abort cause =>
    exact inv_withStatus (inv_setSync htaken hrun (syncInv_of_resetSearch (r := s.sync) rfl h.sync.oneEvent)) _ _ _ _ _ _

end Sys2Proof.Safety
end

section
/-! The invariant through the host's operations (40_host_ops.md) and through every step. -/

namespace Sys2Proof.Safety

open Sys2Proof.Machine

variable {s t : State}

/-! ### Commands -/

/-- `pipeline_clear()` establishes every part of the invariant but the configuration (40_host_ops.md R145). -/
theorem inv_pipelineClear {r : HostRegs} {d : Option Dctl} (h : Inv s)
    (hc : ConfigInv { s.pipelineClear with regs := r, dbox := d }) (hd : r.run = false → d = none) :
    Inv { s.pipelineClear with regs := r, dbox := d } where
  config := hc
  idle :=
    { edges := fun _ => ⟨rfl, rfl, rfl, rfl, rfl, rfl, rfl, rfl⟩
      boxes := fun hrun => ⟨hd hrun, rfl⟩
      search := fun _ => rfl
      block := fun _ => rfl }
  sync := syncInv_of_outsideFrame ⟨nofun, rfl, rfl, rfl, rfl⟩ (fun _ => rfl) nofun (oneEvent_of_nil rfl)
  flight :=
    { e3Tags := nofun
      e4Tags := nofun
      e5Tags := nofun
      e6Tags := nofun
      message := nofun
      blkLength := h.flight.blkLength
      blkTags := fun hcnt => absurd rfl hcnt
      depths := by
        obtain ⟨-, -, -, -, -, -, -, he9⟩ := h.flight.depths
        simpa using he9 }
  dewh := ⟨nofun, fun _ => rfl⟩
  crcv := ⟨h.crcv.payForm, nofun, nofun⟩

theorem inv_startCmd (h : Inv s) : Inv s.startCmd := by
  obtain ⟨-, hs⟩ | ⟨-, -, hs⟩ | ⟨-, hcheck, hs⟩ := s.startCmd_cases <;> rw [hs]
  · exact h
  · exact inv_withStatus h _ _ _ _ _ _
  · exact inv_pipelineClear h { h.config with checked := fun _ => hcheck } nofun

theorem inv_stopCmd (h : Inv s) : Inv s.stopCmd := by
  obtain ⟨-, hs⟩ | ⟨-, hs⟩ := s.stopCmd_cases <;> rw [hs]
  · exact h
  · exact inv_pipelineClear (d := none) h { h.config with checked := nofun } fun _ => rfl

theorem inv_command (v : Word32) (h : Inv s) : Inv (s.command v) := by
  obtain ⟨-, hs⟩ | ⟨-, -, hs⟩ | ⟨-, -, -, hs⟩ | ⟨-, -, -, hs⟩ := s.command_cases v <;> rw [hs]
  · exact inv_sresetCmd s
  · exact inv_stopCmd h
  · exact inv_startCmd h
  · exact h

/-! ### Register writes -/

theorem and_mask_and_not (v m : Word32) : v &&& m &&& ~~~m = 0 := by
  rw [BitVec.and_assoc, BitVec.and_not_self]
  exact BitVec.and_zero

theorem writeConfig_run (r : HostRegs) (idx : BitVec 6) (v : Word32) : (r.writeConfig idx v).run = r.run := by
  unfold HostRegs.writeConfig
  dsimp only
  split_ifs <;> rfl

/-- Outside a session a configuration register takes the defined bits of any value (10_state.md R21, 40_host_ops.md R140). -/
theorem configInv_writeConfig (idx : BitVec 6) (v : Word32) (h : ConfigInv s) (hidle : s.regs.run = false) :
    ConfigInv { s with regs := s.regs.writeConfig idx v } := by
  have hchecked (r : HostRegs) (hr : r.run = s.regs.run) (hrun : r.run = true) : State.configCheck { s with regs := r } = 0 := by
    rw [hr, hidle] at hrun
    cases hrun
  unfold HostRegs.writeConfig
  dsimp only
  split_ifs with hsf hbw hfs hmode hpaylen hsync hdet
  · subst hsf
    exact { h with sf := and_mask_and_not v _, checked := hchecked _ rfl }
  · exact { h with checked := hchecked _ rfl }
  · exact { h with checked := hchecked _ rfl }
  · subst hmode
    exact { h with mode := and_mask_and_not v _, checked := hchecked _ rfl }
  · subst hpaylen
    exact { h with paylen := and_mask_and_not v _, checked := hchecked _ rfl }
  · subst hsync
    exact { h with sync := and_mask_and_not v _, checked := hchecked _ rfl }
  · subst hdet
    exact { h with det := and_mask_and_not v _, checked := hchecked _ rfl }
  · exact h

/-- Outside a session nothing is in flight that a new configuration could make illegal. -/
theorem inv_writeConfig (idx : BitVec 6) (v : Word32) (h : Inv s) (hidle : s.regs.run = false) :
    Inv { s with regs := s.regs.writeConfig idx v } := by
  have hkeep := writeConfig_run s.regs idx v
  have hst := h.idle.search hidle
  have hout := outsideFrame_of_syncInv h.sync (by rw [hst]; nofun)
  obtain ⟨-, he2, he3, he4, he5, he6, -⟩ := h.idle.edges hidle
  exact
    { config := configInv_writeConfig idx v h.config hidle
      idle :=
        { edges := fun hrun => h.idle.edges (hkeep ▸ hrun)
          boxes := fun hrun => h.idle.boxes (hkeep ▸ hrun)
          search := fun hrun => h.idle.search (hkeep ▸ hrun)
          block := fun hrun => h.idle.block (hkeep ▸ hrun) }
      sync := syncInv_of_outsideFrame { hout with } h.sync.unmatched (fun hma => by rw [hst] at hma; cases hma)
        (oneEvent_of_nil he2)
      flight :=
        { e3Tags := by rw [he3]; nofun
          e4Tags := by rw [he4]; nofun
          e5Tags := by rw [he5]; nofun
          e6Tags := by rw [he6]; nofun
          message := h.flight.message
          blkLength := h.flight.blkLength
          blkTags := fun hcnt => absurd (h.idle.block hidle) hcnt
          depths := h.flight.depths }
      dewh := { h.dewh with }
      crcv := { h.crcv with } }

theorem inv_regWrite (idx : BitVec 6) (v : Word32) (h : Inv s) : Inv (s.regWrite idx v) := by
  obtain ⟨-, hs⟩ | ⟨-, hidle, hs⟩ | ⟨-, hs⟩ | ⟨-, hs⟩ | ⟨-, hs⟩ := s.regWrite_cases idx v <;> rw [hs]
  · exact inv_flag h .busErr
  · exact inv_writeConfig idx v h hidle
  · exact inv_withStatus h _ _ _ _ _ _
  · exact inv_withStatus h _ _ _ _ _ _
  · exact inv_command v h

/-! ### Samples and records -/

theorem inv_sampPush (h : Inv s) : Inv (effect .sampPush s) := by
  simp only [effect]
  split_ifs with hidle hfull
  · exact h
  · exact inv_flag h .ovf
  · exact inv_withFlight h (eq_true_of_ne_false hidle)
      { h.flight with
        depths := by
          have := h.flight.depths
          simp only [List.length_append, List.length_cons, List.length_nil]
          omega }

theorem inv_recPop (h : Inv s) : Inv (effect .recPop s) where
  config := h.config.congr
  idle := { h.idle with }
  sync := { h.sync with }
  flight :=
    { h.flight with
      depths := by
        have := h.flight.depths
        simp only [effect, List.length_tail]
        omega }
  dewh := { h.dewh with }
  crcv := { h.crcv with }

/-! ### Every operation -/

theorem inv_effect_of_stage {i : Instr} (h : Inv s) (hi : agentOf i ≠ .host) (he : enabled i s = true) :
    Inv (effect i s) := by
  have hrun := running_of_enabled h.idle hi he
  cases i with
  | regWr | regRd | start | stop | sreset | sampPush | recPop => exact absurd rfl hi
  | demodH | demodS => exact inv_demodStep _ h hrun
  | syncSearch =>
    exact inv_symStep (f := fun t e => t.searchStep e.bin) h he fun hst _ e hpop => inv_searchStep e.bin hpop hrun hst rfl
  | syncLocked =>
    exact inv_symStep (f := fun t e => t.lockedStep e.bin) h he fun hst _ e hpop => inv_lockedStep e.bin hpop hrun hst rfl
  | syncSwchk =>
    exact inv_symStep (f := fun t e => t.syncCheck e.bin) h he fun hst _ e hpop => inv_syncCheck e.bin hpop hrun (.inr hst) rfl
  | syncSfd =>
    exact inv_symStep (f := fun t e => t.sfdStep e.bin) h he fun hst _ e hpop => inv_sfdStep e.bin hpop hrun hst rfl
  | syncFrame =>
    exact inv_symStep (f := fun t e => t.frameStep e) h (Bool.and_elim_left he) fun hst hwait e hpop =>
      inv_frameStep e hpop hrun hst hwait (Bool.and_elim_right he) rfl
  | syncFb =>
    obtain ⟨m, hm⟩ := Option.isSome_iff_exists.mp (Bool.and_elim_right he)
    simp only [effect, hm, Option.elim]
    exact inv_fbStep h he hm
  | grayH | grayS => exact inv_grayStep _ h hrun (Bool.and_elim_left he)
  | deintH => exact inv_deintStep (fun r => r.hardBlock s.sf) (fun _ => ⟨rfl, rfl⟩) h hrun (Bool.and_elim_left he)
  | deintS => exact inv_deintStep (fun r => r.softBlock s.sf) (fun _ => ⟨rfl, rfl⟩) h hrun (Bool.and_elim_left he)
  | hammCr1 | hammCr2 | hammCr3 | hammCr4 | hammS => exact inv_hammStep _ h hrun (Bool.and_elim_left he)
  | hdrParse => exact inv_parseStep h hrun (Bool.and_elim_right (Bool.and_elim_left he))
  | hdrPass => exact inv_passStep h hrun (Bool.and_elim_right he)
  | hdrImpl => exact inv_implStep h hrun he
  | dewhStart => exact inv_dewhStartStep h hrun he
  | dewhNib => exact inv_dewhNibStep h hrun he
  | crcvStart => exact inv_crcvStartStep h hrun he
  | crcvByte => exact inv_crcvByteEffect h hrun he

theorem inv_effect_of_host {i : Instr} (h : Inv s) (hi : agentOf i = .host) : Inv (effect i s) := by
  cases i with
  | regWr => exact inv_regWrite _ _ h
  | regRd =>
    have hread := inv_withEnv h { s.env with rdData := s.regRead s.env.idx }
    simp only [effect]
    split
    · exact inv_flag hread .busErr
    · exact hread
  | start => exact inv_startCmd h
  | stop => exact inv_stopCmd h
  | sreset => exact inv_sresetCmd s
  | sampPush => exact inv_sampPush h
  | recPop => exact inv_recPop h
  | _ => cases hi

theorem inv_exec {i : Instr} (h : Inv s) (hx : exec i s = .next t) : Inv t := by
  rw [exec_eq_ifEnabled, ifEnabled_eq_next] at hx
  obtain ⟨he, rfl⟩ | ⟨-, rfl⟩ := hx
  · by_cases hi : agentOf i = .host
    · exact inv_effect_of_host h hi
    · exact inv_effect_of_stage h hi he
  · exact h

/-- Settles O57: beside the environment, which the invariant does not read, a step is one operation, the bench line `SYM`, or the
reset, and each keeps the invariant. -/
theorem stepKeepsTheInvariant : Obligations.StepKeepsTheInvariant := by
  intro s t h hstep
  obtain ⟨e, ht⟩ := step_cases hstep
  have henv := inv_withEnv h e
  obtain rfl | ⟨i, hi⟩ | ⟨k, hk⟩ | rfl := ht
  · exact henv
  · exact inv_exec henv hi
  · exact inv_benchSym henv hk
  · exact inv_sresetCmd _

end Sys2Proof.Safety
end

section
/-! The decoder against the table of 30_encoding.md R121: every row is the row of its operation, no two rows share a word, and so a
word names an operation exactly when it matches the operation's row. -/

namespace Sys2Proof

/-! ### The rows -/

/-- A row of the table is the mask and the word of the operation it names. -/
theorem rows_are_of_ops : ∀ r ∈ rows, r.mask = r.op.mask ∧ r.val = encode r.op := by decide

/-- Every operation but `HAMM.S`, whose `SUB` is an operand, has a row of its own. -/
theorem mem_rows_or_hammS (i : Instr) : (∃ r ∈ rows, r.op = i) ∨ ∃ sub, i = .hammS sub := by
  cases i with
  | hammS sub => exact .inr ⟨sub, rfl⟩
  | _ => exact .inl (by decide)

/-- Two rows that agree where both masks look are one. -/
theorem rows_disjoint : ∀ r ∈ rows, ∀ r' ∈ rows, r.val &&& r'.mask = r'.val &&& r.mask → r = r' := by decide

/-- No row shares a word with `HAMM.S` (log entry 14). -/
theorem rows_disjoint_hammS : ∀ r ∈ rows, r.val &&& 0xF0FF ≠ 0x5008 &&& r.mask := by decide

/-- A word that matches under two masks makes the two match values agree where both masks look. -/
theorem and_mask_swap {w m v m' v' : Opsel} (h : w &&& m = v) (h' : w &&& m' = v') : v &&& m' = v' &&& m := by
  rw [← h, ← h', BitVec.and_assoc, BitVec.and_assoc, BitVec.and_comm m]

/-! ### `decode`, branch by branch -/

theorem decode_of_row {w : Opsel} {r : Row} (hr : r ∈ rows) (hw : w &&& r.mask = r.val) : decode w = .ok r.op := by
  unfold decode
  cases hf : rows.find? fun r => w &&& r.mask = r.val with
  | none => exact absurd (by simpa using hw) (List.find?_eq_none.mp hf r hr)
  | some r' =>
    have hw' : w &&& r'.mask = r'.val := by simpa using List.find?_some hf
    rw [rows_disjoint r hr r' (List.mem_of_find?_eq_some hf) (and_mask_swap hw hw')]

theorem decode_of_hammS {w : Opsel} (hw : w &&& 0xF0FF = 0x5008) : decode w = .ok (.hammS (opselSub w)) := by
  have hf : (rows.find? fun r => w &&& r.mask = r.val) = none :=
    List.find?_eq_none.mpr fun r hr hm => rows_disjoint_hammS r hr (and_mask_swap (by simpa using hm) hw)
  unfold decode
  rw [hf, if_pos hw]

/-- What a named word matches: a row of the table, or `HAMM.S` with its own `SUB`. -/
theorem decode_cases {w : Opsel} {i : Instr} (h : decode w = .ok i) :
    (∃ r ∈ rows, w &&& r.mask = r.val ∧ r.op = i) ∨ (w &&& 0xF0FF = 0x5008 ∧ i = .hammS (opselSub w)) := by
  unfold decode at h
  split at h
  · rename_i r hr
    cases h
    exact .inl ⟨r, List.mem_of_find?_eq_some hr, by simpa using List.find?_some hr, rfl⟩
  · split at h
    · cases h
      exact .inr ⟨‹_›, rfl⟩
    · cases h

/-! ### The operand of `HAMM.S` -/

theorem opselSub_encode_hammS (sub : BitVec 4) : opselSub (encode (.hammS sub)) = sub := by
  revert sub; decide

/-- Under the mask 0xF0FF a word is `HAMM.S` with its own field `SUB` (45_hamming.md R248). -/
theorem matches_hammS_iff (w : Opsel) : w &&& 0xF0FF = 0x5008 ↔ w = encode (.hammS (opselSub w)) := by
  constructor
  · intro h
    -- bit by bit: bits [11:8] come from the field `SUB`, every other bit from the masked word
    have hsplit : w = (w &&& 0xF0FF#16) ||| (opselSub w).setWidth 16 <<< 8 := by
      ext i hi
      interval_cases i <;> simp [opselSub]
    exact hsplit.trans (congrArg (· ||| _) h)
  · intro h
    rw [h]
    generalize opselSub w = sub
    revert sub; decide

/-! ### The table -/

/-- Settles O2: a named word matches a row, and a word that matches the row of `i` matches no other. -/
theorem decodeIsTheTable : Obligations.DecodeIsTheTable := by
  intro w i
  constructor
  · intro h
    obtain ⟨r, hr, hw, rfl⟩ | ⟨hw, rfl⟩ := decode_cases h
    · obtain ⟨hmask, hval⟩ := rows_are_of_ops r hr
      rw [← hmask, ← hval, hw]
    · exact BitVec.and_allOnes.trans ((matches_hammS_iff w).mp hw)
  · intro h
    obtain ⟨r, hr, rfl⟩ | ⟨sub, rfl⟩ := mem_rows_or_hammS i
    · obtain ⟨hmask, hval⟩ := rows_are_of_ops r hr
      exact decode_of_row hr (by rw [hmask, hval, h])
    · have hw : w = encode (.hammS sub) := BitVec.and_allOnes.symm.trans h
      have hsub : opselSub w = sub := hw ▸ opselSub_encode_hammS sub
      rw [decode_of_hammS ((matches_hammS_iff w).mpr (hsub.symm ▸ hw)), hsub]

theorem encode_and_mask (i : Instr) : encode i &&& i.mask = encode i := by
  cases i with
  | hammS sub => exact BitVec.and_allOnes
  | _ => rfl

/-- A row looks at the whole word or ignores the bit `SOFT` alone (30_encoding.md R120, R121). -/
theorem mask_cases (i : Instr) : i.mask = 0xFFF7 ∨ i.mask = 0xFFFF := by
  cases i with
  | hammS => exact .inr rfl
  | _ => decide

/-- Settles O1: the word of an operation, its ignored bit 0 or 1, matches the operation's own row. That `SUB` is 1 to 4 is not
needed: the decoder takes any (log entry 14). -/
theorem decodeOfEncode : Obligations.DecodeOfEncode := by
  intro i _
  refine ⟨(decodeIsTheTable _ i).mpr (encode_and_mask i), fun hsoft => (decodeIsTheTable _ i).mpr ?_⟩
  have hignored : 8 &&& i.mask = 0#16 := by
    obtain hmask | hmask := mask_cases i
    · rw [hmask]; rfl
    · rw [hmask] at hsoft; cases hsoft
  rw [BitVec.and_or_distrib_right, encode_and_mask, hignored, BitVec.or_zero]

/-- Settles O3: each word is decoded. -/
theorem decodeOfWrittenWords : Obligations.DecodeOfWrittenWords := by
  unfold Obligations.DecodeOfWrittenWords
  decide

end Sys2Proof
end

section
/-! The descriptor a turn forms (30_encoding.md R120, R121): it is the operation's own word with the bit `SOFT` of `MODE`, so it
decodes to the operation wherever the operation belongs to that mode. -/

namespace Sys2Proof.Machine

/-! ### The descriptor of an operation -/

/-- The operation's descriptor as the state `s` forms it: the operation's `STAGE` and `SUB`, the bit `SOFT` of `MODE`. -/
def State.descriptorOf (s : State) (i : Instr) : Opsel := s.descriptor (opselStage (encode i)) (opselSub (encode i))

/-- The operation belongs to the mode `SOFT` = `soft`; those of which it is ignored belong to both (30_encoding.md R121). -/
def inMode : Instr → Bool → Bool
  | .demodH | .grayH | .deintH | .hammCr1 | .hammCr2 | .hammCr3 | .hammCr4 => fun soft => !soft
  | .demodS | .grayS | .deintS | .hammS _ => fun soft => soft
  | _ => fun _ => true

theorem inMode_of_host {i : Instr} (hi : agentOf i = .host) (soft : Bool) : inMode i soft = true := by
  cases i with
  | regWr | regRd | start | stop | sreset | sampPush | recPop => rfl
  | _ => cases hi

/-- The descriptor of an operation in a mode it belongs to matches the operation's row. -/
theorem descriptor_matches {i : Instr} {soft : Bool} (h : inMode i soft = true) :
    (opselStage (encode i) ++ opselSub (encode i) ++ (0 : BitVec 4) ++ BitVec.ofBool soft ++ (0 : BitVec 3) : Opsel) &&& i.mask =
      encode i := by
  cases i with
  | hammS sub => revert sub soft; decide
  | _ => revert soft; decide

theorem decode_descriptorOf {s : State} {i : Instr} (h : inMode i s.soft = true) : decode (s.descriptorOf i) = .ok i :=
  (decodeIsTheTable _ i).mpr (descriptor_matches h)

theorem perform_of_decode {w : Opsel} {i : Instr} (h : decode w = .ok i) (s : State) : perform w s = exec i s := by
  simp only [perform, h]

/-! ### The operation of a host line (30_encoding.md R124) -/

/-- The operation that a host line names; a `CTRL` write that performs a command names the command (log entry 8). -/
def lineOp : Stim → Option Instr
  | .regW idx v =>
    if idx = 0 then
      if v.getLsbD 2 then some .sreset
      else if v.getLsbD 1 then some .stop
      else if v.getLsbD 0 then some .start
      else some .regWr
    else some .regWr
  | .regR _ => some .regRd
  | .samp _ _ => some .sampPush
  | .pop => some .recPop
  | .sym _ => none
  | .powerOn _ => none

theorem agentOf_lineOp {line : Stim} {i : Instr} (h : lineOp line = some i) : agentOf i = .host := by
  cases line with
  | regW =>
    simp only [lineOp] at h
    split_ifs at h <;> cases h <;> rfl
  | _ => cases h <;> rfl

theorem State.lineSelector_eq (s : State) (line : Stim) : s.lineSelector line = (lineOp line).map s.descriptorOf := by
  cases line with
  | regW =>
    simp only [State.lineSelector, lineOp]
    split_ifs <;> rfl
  | _ => rfl

theorem State.hostSelector_names {s : State} (hpor : s.env.por = false) {line : Stim} {i : Instr} (h : lineOp line = some i) :
    ∃ w, s.hostSelector line = some w ∧ decode w = .ok i := by
  refine ⟨s.descriptorOf i, ?_, decode_descriptorOf (inMode_of_host (agentOf_lineOp h) s.soft)⟩
  rw [State.hostSelector_released hpor, s.lineSelector_eq, h]
  rfl

/-- A descriptor formed for a host line is that of the line's operation. -/
theorem State.lineOp_of_hostSelector {s : State} {line : Stim} {w : Opsel} (h : s.hostSelector line = some w) :
    ∃ i, lineOp line = some i ∧ w = s.descriptorOf i := by
  unfold State.hostSelector at h
  split at h
  · cases h
  · rw [s.lineSelector_eq] at h
    obtain ⟨i, hi, rfl⟩ := Option.map_eq_some_iff.mp h
    exact ⟨i, hi, rfl⟩

/-! ### The enabled operation of a stage (30_encoding.md R121) -/

theorem State.e5_of_hammReady {s : State} {p : CwBlock → Bool} (h : s.hammReady p = true) :
    ∃ b rest, s.e5 = b :: rest ∧ p b = true := by
  cases hq : s.e5 with
  | nil => simp [State.hammReady, hq] at h
  | cons b rest =>
    simp only [State.hammReady, hq, Bool.and_eq_true] at h
    exact ⟨b, rest, rfl, h.1⟩

theorem State.e6_of_hdrReady {s : State} {hdr : Bool} {k : Nat} (h : s.hdrReady hdr k = true) :
    ∃ b rest, s.e6 = b :: rest ∧ b.hdr = hdr := by
  cases hq : s.e6 with
  | nil => simp [State.hdrReady, hq] at h
  | cons b rest =>
    simp only [State.hdrReady, hq, Bool.and_eq_true, decide_eq_true_eq] at h
    exact ⟨b, rest, rfl, h.1⟩

theorem State.inputSelector_hamm {s : State} {b : CwBlock} {rest : List CwBlock} (h : s.e5 = b :: rest) :
    s.inputSelector .hamm = some (s.descriptor 5 (b.cr.setWidth 4)) := by
  simp only [State.inputSelector, h]

theorem State.inputSelector_hdr {s : State} {b : NibBlock} {rest : List NibBlock} (h : s.e6 = b :: rest) :
    s.inputSelector .hdr = some (s.descriptor 6 (if s.impl then 2 else if b.hdr then 0 else 1)) := by
  simp only [State.inputSelector, h]

/-- A symbol step is selected by the synchronizer's state. -/
theorem State.inputSelector_of_symReady {s : State} {st : SyncState} (h : s.symReady st = true) :
    s.inputSelector .sync = some (s.descriptor 2 (st.code.setWidth 4)) := by
  obtain ⟨-, rfl, hwait, -, hne⟩ := (s.symReady_iff st).mp h
  have hne' : s.e2.isEmpty = false := by simpa using hne
  simp [State.inputSelector, hwait, hne']

theorem State.inputSelector_of_demodReady {s : State} (h : s.demodReady = true) :
    s.inputSelector .demod = some (s.descriptor 1 0) := by
  cases hd : s.dbox with
  | none => simp [State.demodReady, hd] at h
  | some d => simp [State.inputSelector, hd]

theorem State.inputSelector_of_canHammHard {s : State} {cr : BitVec 3} (h : s.canHammHard cr = true) :
    s.inputSelector .hamm = some (s.descriptor 5 (cr.setWidth 4)) := by
  obtain ⟨b, rest, hq, hcr⟩ := State.e5_of_hammReady (Bool.and_elim_left h)
  rw [State.inputSelector_hamm hq, of_decide_eq_true hcr]

theorem State.inputSelector_of_canHammSoft {s : State} {sub : BitVec 4} (h : s.canHammSoft sub = true) :
    s.inputSelector .hamm = some (s.descriptor 5 sub) := by
  obtain ⟨b, rest, hq, hcr⟩ := State.e5_of_hammReady (Bool.and_elim_left h)
  have hsub : b.cr.setWidth 4 = sub := by
    simp only [Bool.and_eq_true, decide_eq_true_eq] at hcr
    bv_omega
  rw [State.inputSelector_hamm hq, hsub]

theorem State.inputSelector_of_canSyncFb {s : State} (h : canSyncFb s = true) :
    s.inputSelector .sync = some (s.descriptor 2 8) := by
  simp only [canSyncFb, Bool.and_eq_true, decide_eq_true_eq] at h
  obtain ⟨⟨⟨-, hst⟩, hwait⟩, hm⟩ := h
  simp [State.inputSelector, hst, hwait, hm]

theorem State.inputSelector_of_grayReady {s : State} (h : s.grayReady = true) :
    s.inputSelector .gray = some (s.descriptor 3 0) := by
  have hne : s.e3.isEmpty = false := by simpa using Bool.and_elim_left h
  simp [State.inputSelector, hne]

theorem State.inputSelector_of_deintReady {s : State} (h : s.deintReady = true) :
    s.inputSelector .deint = some (s.descriptor 4 0) := by
  cases hq : s.e4 with
  | nil => simp [State.deintReady, hq] at h
  | cons it rest => simp [State.inputSelector, hq]

theorem State.inputSelector_of_canHdrParse {s : State} (h : canHdrParse s = true) :
    s.inputSelector .hdr = some (s.descriptor 6 0) := by
  simp only [canHdrParse, Bool.and_eq_true, Bool.not_eq_true'] at h
  obtain ⟨⟨himpl, hready⟩, -⟩ := h
  obtain ⟨b, rest, hq, hhdr⟩ := State.e6_of_hdrReady hready
  simp [State.inputSelector_hdr hq, himpl, hhdr]

theorem State.inputSelector_of_canHdrPass {s : State} (h : canHdrPass s = true) :
    s.inputSelector .hdr = some (s.descriptor 6 1) := by
  simp only [canHdrPass, Bool.and_eq_true, Bool.not_eq_true'] at h
  obtain ⟨himpl, hready⟩ := h
  obtain ⟨b, rest, hq, hhdr⟩ := State.e6_of_hdrReady hready
  simp [State.inputSelector_hdr hq, himpl, hhdr]

theorem State.inputSelector_of_canHdrImpl {s : State} (h : canHdrImpl s = true) :
    s.inputSelector .hdr = some (s.descriptor 6 2) := by
  simp only [canHdrImpl, Bool.and_eq_true, Bool.not_eq_true', List.isEmpty_eq_false_iff] at h
  obtain ⟨⟨himpl, hne⟩, -⟩ := h
  obtain ⟨b, rest, hq⟩ := List.exists_cons_of_ne_nil hne
  simp [State.inputSelector_hdr hq, himpl]

theorem State.inputSelector_of_e7Start {s : State} (h : s.e7Start = true) :
    s.inputSelector .dewh = some (s.descriptor 7 0) := by
  rcases hq : s.e7 with _ | ⟨_ | _, rest⟩
  case cons.fstart => simp only [State.inputSelector, hq]
  all_goals simp [State.e7Start, hq] at h

theorem State.inputSelector_of_e7Nib {s : State} (h : s.e7Nib = true) :
    s.inputSelector .dewh = some (s.descriptor 7 1) := by
  rcases hq : s.e7 with _ | ⟨_ | _, rest⟩
  case cons.nib => simp only [State.inputSelector, hq]
  all_goals simp [State.e7Nib, hq] at h

theorem State.inputSelector_of_canCrcvStart {s : State} (h : canCrcvStart s = true) :
    s.inputSelector .crcv = some (s.descriptor 8 0) := by
  rcases hq : s.e8 with _ | ⟨_ | _, rest⟩
  case cons.fstart => simp only [State.inputSelector, hq]
  all_goals simp [canCrcvStart, hq] at h

theorem State.inputSelector_of_canCrcvByte {s : State} (h : canCrcvByte s = true) :
    s.inputSelector .crcv = some (s.descriptor 8 1) := by
  rcases hq : s.e8 with _ | ⟨_ | _, rest⟩
  case cons.byte => simp only [State.inputSelector, hq]
  all_goals simp [canCrcvByte, hq] at h

/-- The enabling of an operation with a hard and a soft form asks for its mode (20_memory.md R76). -/
theorem inMode_of_enabled {i : Instr} {s : State} (he : enabled i s = true) : inMode i s.soft = true := by
  cases i with
  | demodH | demodS | grayH | grayS | deintH | deintS | hammCr1 | hammCr2 | hammCr3 | hammCr4 | hammS =>
    exact Bool.and_elim_right he
  | _ => rfl

theorem opselStage_encode_hammS (sub : BitVec 4) : opselStage (encode (.hammS sub)) = 5 := by
  revert sub; decide

/-- A descriptor with the fields of an operation's word is that operation's. -/
theorem State.selects {s : State} {a : Agent} {i : Instr} {stage sub : BitVec 4}
    (h : s.inputSelector a = some (s.descriptor stage sub)) (hstage : opselStage (encode i) = stage := by decide)
    (hsub : opselSub (encode i) = sub := by decide) : s.inputSelector a = some (s.descriptorOf i) := by
  rw [h, State.descriptorOf, hstage, hsub]

/-- The descriptor a stage forms where one of its operations is enabled is that operation's. -/
theorem State.inputSelector_of_enabled {i : Instr} {s : State} (hi : agentOf i ≠ .host) (he : enabled i s = true) :
    s.inputSelector (agentOf i) = some (s.descriptorOf i) := by
  cases i with
  | regWr | regRd | start | stop | sreset | sampPush | recPop => exact absurd rfl hi
  | demodH | demodS => exact State.selects (State.inputSelector_of_demodReady (Bool.and_elim_left he))
  | syncSearch | syncLocked | syncSwchk | syncSfd => exact State.selects (State.inputSelector_of_symReady he)
  | syncFrame => exact State.selects (State.inputSelector_of_symReady (Bool.and_elim_left he))
  | syncFb => exact State.selects (State.inputSelector_of_canSyncFb he)
  | grayH | grayS => exact State.selects (State.inputSelector_of_grayReady (Bool.and_elim_left he))
  | deintH | deintS => exact State.selects (State.inputSelector_of_deintReady (Bool.and_elim_left he))
  | hammCr1 | hammCr2 | hammCr3 | hammCr4 => exact State.selects (State.inputSelector_of_canHammHard he)
  | hammS sub =>
    exact State.selects (State.inputSelector_of_canHammSoft he) (opselStage_encode_hammS sub) (opselSub_encode_hammS sub)
  | hdrParse => exact State.selects (State.inputSelector_of_canHdrParse he)
  | hdrPass => exact State.selects (State.inputSelector_of_canHdrPass he)
  | hdrImpl => exact State.selects (State.inputSelector_of_canHdrImpl he)
  | dewhStart => exact State.selects (State.inputSelector_of_e7Start (Bool.and_elim_left he))
  | dewhNib => exact State.selects (State.inputSelector_of_e7Nib (Bool.and_elim_left he))
  | crcvStart => exact State.selects (State.inputSelector_of_canCrcvStart he)
  | crcvByte => exact State.selects (State.inputSelector_of_canCrcvByte he)

/-- The descriptor formed for a stage names the stage's enabled operation. -/
theorem State.stageSelector_names {i : Instr} {s : State} (hpor : s.env.por = false) (hi : agentOf i ≠ .host)
    (he : enabled i s = true) : ∃ w, s.stageSelector (agentOf i) = some w ∧ decode w = .ok i :=
  ⟨s.descriptorOf i, (State.stageSelector_released hpor _).trans (State.inputSelector_of_enabled hi he),
    decode_descriptorOf (inMode_of_enabled he)⟩

/-! ### The step performs the operation named -/

theorem step_of_pick {s t : State} {a : Agent} (h : s.pick = some (a, t)) : step s = agentRun a t := by
  simp only [step, turn, h]

/-- The host's turn on a line that names an operation: that operation, with the line at the ports. -/
theorem hostRun_of_selected {s : State} {line : Stim} {rest : List Stim} {w : Opsel} (hs : s.env.stim = line :: rest)
    (hw : (s.present line rest).hostSelector line = some w) : hostRun s = perform w (s.present line rest) := by
  obtain ⟨i, hi, -⟩ := State.lineOp_of_hostSelector hw
  unfold hostRun
  rw [hs]
  cases line with
  | sym | powerOn => cases hi
  | _ => simp only [hw]

/-- Settles O4: a turn performs what its descriptor names; the descriptor of an enabled stage operation, or of a host line, is
`State.descriptorOf` the operation, which decodes to it. -/
theorem stepPerformsTheDecodedOperation : Obligations.StepPerformsTheDecodedOperation := by
  refine ⟨fun s t a w i hp _ hw hd => ?_, fun s t line rest w i hp hs hw hd => ?_, fun i s => State.stageSelector_names,
    fun s hpor => ⟨State.stageSelector_held hpor, State.hostSelector_held hpor⟩, fun s hpor => ?_⟩
  · rw [step_of_pick hp, agentRun_of_selected hw, perform_of_decode hd]
  · rw [step_of_pick hp, agentRun, hostRun_of_selected hs hw, perform_of_decode hd]
  · have hnone (line : Stim) (h : lineOp line = none) : s.hostSelector line = none := by
      rw [State.hostSelector_released hpor, s.lineSelector_eq, h]
      rfl
    refine ⟨fun idx v h => ?_, fun v h2 => ?_, fun v h2 h1 => ?_, fun v h2 h1 h0 => ?_, fun v h2 h1 h0 => ?_,
      fun idx => State.hostSelector_names hpor rfl, fun i q => State.hostSelector_names hpor rfl,
      State.hostSelector_names hpor rfl, fun k => hnone _ rfl, fun b => hnone _ rfl⟩
    · exact State.hostSelector_names hpor (if_neg h)
    · exact State.hostSelector_names hpor (by simp only [lineOp, h2, if_true])
    · exact State.hostSelector_names hpor (by simp only [lineOp, h2, h1, if_true, if_false, Bool.false_eq_true])
    · exact State.hostSelector_names hpor (by simp only [lineOp, h2, h1, h0, if_true, if_false, Bool.false_eq_true])
    · exact State.hostSelector_names hpor (by simp only [lineOp, h2, h1, h0, if_true, if_false, Bool.false_eq_true])

end Sys2Proof.Machine
end

section
/-! In a state with the invariant every descriptor formed names an operation (30_encoding.md R123), so no step stops but on the
bench line `SYM` in soft mode (R125). -/

namespace Sys2Proof.Safety

open Sys2Proof.Machine

variable {s : State}

/-! ### The fields a descriptor is formed with -/

/-- In either mode some operation has this `STAGE` and `SUB` (30_encoding.md R121). -/
def NamesInBothModes (stage sub : BitVec 4) : Prop :=
  ∀ soft : Bool, ∃ i, opselStage (encode i) = stage ∧ opselSub (encode i) = sub ∧ inMode i soft = true

theorem decode_descriptor_of_names {stage sub : BitVec 4} (h : NamesInBothModes stage sub) :
    ∃ i, decode (s.descriptor stage sub) = .ok i := by
  obtain ⟨i, rfl, rfl, hmode⟩ := h s.soft
  exact ⟨i, decode_descriptorOf hmode⟩

theorem names_of_ignored {i : Instr} (h : ∀ soft, inMode i soft = true) :
    NamesInBothModes (opselStage (encode i)) (opselSub (encode i)) := fun soft => ⟨i, rfl, rfl, h soft⟩

theorem names_of_two_forms {stage sub : BitVec 4} (hard soft : Instr)
    (hhard : opselStage (encode hard) = stage ∧ opselSub (encode hard) = sub ∧ inMode hard false = true)
    (hsoft : opselStage (encode soft) = stage ∧ opselSub (encode soft) = sub ∧ inMode soft true = true) :
    NamesInBothModes stage sub
  | false => ⟨hard, hhard⟩
  | true => ⟨soft, hsoft⟩

theorem names_of_syncState : ∀ st : SyncState, NamesInBothModes 2 (st.code.setWidth 4)
  | .searching => names_of_ignored (i := .syncSearch) fun _ => rfl
  | .preambleLocked => names_of_ignored (i := .syncLocked) fun _ => rfl
  | .syncWordCheck => names_of_ignored (i := .syncSwchk) fun _ => rfl
  | .sfdAlign => names_of_ignored (i := .syncSfd) fun _ => rfl
  | .inFrame => names_of_ignored (i := .syncFrame) fun _ => rfl

/-- A block's tag selects the decoder of its coding rate, or `HAMM.S` with the tag as `SUB` (30_encoding.md R121). -/
theorem names_of_crLegal {cr : BitVec 3} (h : CrLegal cr.toNat) : NamesInBothModes 5 (cr.setWidth 4) := by
  have hcr : cr = 1 ∨ cr = 2 ∨ cr = 3 ∨ cr = 4 := by
    obtain ⟨hlo, hhi⟩ := h
    bv_omega
  obtain rfl | rfl | rfl | rfl := hcr
  · exact names_of_two_forms .hammCr1 (.hammS 1) (by decide) (by decide)
  · exact names_of_two_forms .hammCr2 (.hammS 2) (by decide) (by decide)
  · exact names_of_two_forms .hammCr3 (.hammS 3) (by decide) (by decide)
  · exact names_of_two_forms .hammCr4 (.hammS 4) (by decide) (by decide)

/-- The reserved descriptors are never formed for a stage: the tags on `E5` are legal (30_encoding.md R123). -/
theorem inputSelector_names (hinv : Inv s) {a : Agent} {w : Opsel} (h : s.inputSelector a = some w) :
    ∃ stage sub, NamesInBothModes stage sub ∧ w = s.descriptor stage sub := by
  cases a with
  | host => cases h
  | demod =>
    simp only [State.inputSelector] at h
    split at h <;> cases h
    exact ⟨_, _, names_of_two_forms .demodH .demodS (by decide) (by decide), rfl⟩
  | sync =>
    simp only [State.inputSelector] at h
    split at h <;> split at h <;> cases h
    · exact ⟨_, _, names_of_ignored (i := .syncFb) fun _ => rfl, rfl⟩
    · exact ⟨_, _, names_of_syncState _, rfl⟩
  | gray =>
    simp only [State.inputSelector] at h
    split at h <;> cases h
    exact ⟨_, _, names_of_two_forms .grayH .grayS (by decide) (by decide), rfl⟩
  | deint =>
    simp only [State.inputSelector] at h
    split at h <;> cases h
    exact ⟨_, _, names_of_two_forms .deintH .deintS (by decide) (by decide), rfl⟩
  | hamm =>
    cases hq : s.e5 with
    | nil => simp [State.inputSelector, hq] at h
    | cons b rest =>
      rw [State.inputSelector_hamm hq] at h
      cases h
      obtain ⟨hlegal, -⟩ := hinv.flight.e5Tags b (hq ▸ List.mem_cons_self)
      exact ⟨_, _, names_of_crLegal hlegal, rfl⟩
  | hdr =>
    cases hq : s.e6 with
    | nil => simp [State.inputSelector, hq] at h
    | cons b rest =>
      rw [State.inputSelector_hdr hq] at h
      cases h
      refine ⟨_, _, ?_, rfl⟩
      split_ifs
      · exact names_of_ignored (i := .hdrImpl) fun _ => rfl
      · exact names_of_ignored (i := .hdrParse) fun _ => rfl
      · exact names_of_ignored (i := .hdrPass) fun _ => rfl
  | dewh =>
    simp only [State.inputSelector] at h
    split at h <;> cases h
    · exact ⟨_, _, names_of_ignored (i := .dewhStart) fun _ => rfl, rfl⟩
    · exact ⟨_, _, names_of_ignored (i := .dewhNib) fun _ => rfl, rfl⟩
  | crcv =>
    simp only [State.inputSelector] at h
    split at h <;> cases h
    · exact ⟨_, _, names_of_ignored (i := .crcvStart) fun _ => rfl, rfl⟩
    · exact ⟨_, _, names_of_ignored (i := .crcvByte) fun _ => rfl, rfl⟩

theorem decode_of_stageSelector (hinv : Inv s) {a : Agent} {w : Opsel} (h : s.stageSelector a = some w) :
    ∃ i, decode w = .ok i := by
  unfold State.stageSelector at h
  split at h
  · cases h
  · obtain ⟨stage, sub, hnames, rfl⟩ := inputSelector_names hinv h
    exact decode_descriptor_of_names hnames

theorem decode_of_hostSelector {line : Stim} {w : Opsel} (h : s.hostSelector line = some w) : ∃ i, decode w = .ok i := by
  obtain ⟨i, hi, rfl⟩ := State.lineOp_of_hostSelector h
  exact ⟨i, decode_descriptorOf (inMode_of_host (agentOf_lineOp hi) s.soft)⟩

/-! ### Turns that answer -/

theorem perform_answers {w : Opsel} (h : ∃ i, decode w = .ok i) (t : State) : ∃ u, perform w t = .next u := by
  obtain ⟨i, hi⟩ := h
  rw [perform_of_decode hi]
  exact everyOperationAnswers i t

theorem stageRun_answers (hinv : Inv s) {a : Agent} (ha : a ≠ .host) : ∃ u, agentRun a s = .next u := by
  cases hw : s.stageSelector a with
  | none => exact ⟨s, agentRun_of_unselected ha hw⟩
  | some w =>
    rw [agentRun_of_selected hw]
    exact perform_answers (decode_of_stageSelector hinv hw) s

/-- In hard mode the bench line `SYM` is an event, or is used up (30_encoding.md R125; log entry 10). -/
theorem benchSym_answers (hsoft : s.soft = false) (k : Bin) : ∃ u, s.benchSym k = .next u := by
  unfold State.benchSym
  rw [hsoft]
  split <;> exact ⟨_, rfl⟩

/-- The host's turn answers, but for the bench line `SYM` in soft mode. -/
theorem hostRun_answers (hsym : s.soft = true → ∀ k, s.env.stim.head? ≠ some (.sym k)) : ∃ u, hostRun s = .next u := by
  cases hs : s.env.stim with
  | nil => simp only [hostRun, hs]; exact ⟨s, rfl⟩
  | cons line rest =>
    simp only [hostRun, hs]
    cases line with
    | sym k =>
      have hhard : s.soft = false := eq_false_of_ne_true fun h => hsym h k (by rw [hs]; rfl)
      exact benchSym_answers (s := s.present (.sym k) rest) hhard k
    | powerOn b => exact ⟨_, rfl⟩
    | _ =>
      dsimp only
      split
      · exact perform_answers (decode_of_hostSelector ‹_›) _
      · exact ⟨_, rfl⟩

/-- Settles O8: whoever's turn it is, its descriptor, if one is formed, names an operation, and every operation answers. -/
theorem noStepStops : Obligations.NoStepStops := by
  intro s hinv hsym
  unfold Steps
  cases hp : s.pick with
  | none => exact ⟨s, by simp only [step, turn, hp]⟩
  | some choice =>
    obtain ⟨a, t⟩ := choice
    obtain ⟨l, rfl⟩ : ∃ l, t = s.withSched l := by
      obtain ⟨rest, -, rfl⟩ | ⟨-, rfl, -⟩ | ⟨-, rfl, -⟩ := State.pick_cases hp
      · exact ⟨rest, rfl⟩
      · exact ⟨_, rfl⟩
      · exact ⟨_, rfl⟩
    rw [step_of_pick hp]
    by_cases ha : a = .host
    · subst ha
      exact hostRun_answers hsym
    · exact stageRun_answers (inv_withEnv hinv _) ha

end Sys2Proof.Safety
end

section
/-! The header's bit layout comes back (30_encoding.md R110 to R112): each field of a block that starts with the transmitter's five
nibbles is the value they were made of, whatever the ignored bits of the fourth. -/

namespace Sys2Proof.Machine

/-! ### The fields -/

/-- The five nibbles of a header as received: the ignored bits `h3[3:1]` may hold anything (30_encoding.md R111). -/
def receivedHeader (len : Byte) (cr : BitVec 3) (crc : Bool) (ignored : BitVec 3) : List Nibble :=
  (headerNibbles len cr crc).set 3 ((headerNibbles len cr crc).getD 3 0 ||| (ignored ++ (0 : BitVec 1)))

/-- The ignored bits do not reach the checksum bit of the fourth nibble. -/
theorem extractLsb'_checksum_nibble (c : BitVec 1) (ignored : BitVec 3) :
    (c.setWidth 4 ||| (ignored ++ 0#1)).extractLsb' 0 1 = c := by
  rw [BitVec.extractLsb'_or, BitVec.extractLsb'_append_eq_right, BitVec.extractLsb'_setWidth_of_le (by decide),
    BitVec.extractLsb'_eq_self, BitVec.or_zero]

section fields

variable {b : NibBlock} {len : Byte} {cr : BitVec 3} {crc : Bool} {ignored : BitVec 3} {more : List Nibble}
  (h : b.nib = receivedHeader len cr crc ignored ++ more)

include h

theorem at_0_of_header : b.at 0 = len.extractLsb' 4 4 := by rw [NibBlock.at, h]; rfl
theorem at_1_of_header : b.at 1 = len.extractLsb' 0 4 := by rw [NibBlock.at, h]; rfl
theorem at_2_of_header : b.at 2 = cr ++ BitVec.ofBool crc := by rw [NibBlock.at, h]; rfl

theorem hdrLen_of_header : b.hdrLen = len := by
  rw [NibBlock.hdrLen, at_0_of_header h, at_1_of_header h]
  exact BitVec.extractLsb'_append_extractLsb'

theorem hdrCr_of_header : b.hdrCr = cr := by
  rw [NibBlock.hdrCr, at_2_of_header h]
  exact BitVec.extractLsb'_append_eq_left

theorem hdrCrc_of_header : b.hdrCrc = crc := by
  rw [NibBlock.hdrCrc, at_2_of_header h, BitVec.getLsbD_append]
  simp

/-- The checksum received is the checksum of the three nibbles received (46_header.md R262, R265). -/
theorem hdrChk_of_header : b.hdrChk = headerChk (b.at 0) (b.at 1) (b.at 2) := by
  have h3 : b.at 3 = ((headerChk (b.at 0) (b.at 1) (b.at 2)).extractLsb' 4 1).setWidth 4 ||| (ignored ++ 0#1) := by
    rw [at_0_of_header h, at_1_of_header h, at_2_of_header h, NibBlock.at, h]; rfl
  have h4 : b.at 4 = (headerChk (b.at 0) (b.at 1) (b.at 2)).extractLsb' 0 4 := by
    rw [at_0_of_header h, at_1_of_header h, at_2_of_header h, NibBlock.at, h]; rfl
  rw [NibBlock.hdrChk, h3, h4, extractLsb'_checksum_nibble]
  exact BitVec.extractLsb'_append_extractLsb'

/-- No cause of 46_header.md R263 arises. -/
theorem hdrAbort_of_header (hcr : CrLegal cr.toNat) (hst : CwStatus.uncorr ∉ b.st) : b.hdrAbort = none := by
  obtain ⟨hlo, hhi⟩ := hcr
  have hfec : anyUncorr b.st = false := by simpa [anyUncorr] using hst
  have hrate : ¬(cr.toNat < 1 ∨ 4 < cr.toNat) := by omega
  rw [NibBlock.hdrAbort, hfec, hdrCr_of_header h, if_neg Bool.false_ne_true, if_neg (not_not.mpr (hdrChk_of_header h)),
    if_neg hrate]

end fields

/-! ### `HDR.PARSE` on the block -/

theorem canHdrParse_of_head {s : State} {b : NibBlock} {rest : List NibBlock} (himpl : s.impl = false) (hq : s.e6 = b :: rest)
    (hhdr : b.hdr = true) (hm : s.mbox = none) (hroom : s.e7.length + (1 + (s.sf - 5)) ≤ s.par.qDepth) :
    canHdrParse s = true := by
  simp [canHdrParse, State.hdrReady, himpl, hq, hhdr, hm, State.room_iff, hroom]

theorem parseStep_mbox_of_accepted {s : State} {b : NibBlock} {rest : List NibBlock} (hq : s.e6 = b :: rest)
    (h : b.hdrAbort = none) : s.parseStep.mbox = some (.params b.hdrLen b.hdrCr b.hdrCrc) := by
  simp only [State.parseStep, hq, h]

/-- Settles O47: each field of the laid out header comes back, so the block is accepted, and the message of `HDR.PARSE` is made
of the same fields. -/
theorem headerFieldsComeBack : Obligations.HeaderFieldsComeBack := by
  intro len cr crc ignored more st sof hdr tag hcr hst
  dsimp only
  generalize hb : (⟨_, st, sof, hdr, tag⟩ : NibBlock) = b
  have hnib : b.nib = receivedHeader len cr crc ignored ++ more := by rw [← hb]; rfl
  have hlen := hdrLen_of_header hnib
  have hrate := hdrCr_of_header hnib
  have hcrc := hdrCrc_of_header hnib
  have haccepted := hdrAbort_of_header hnib hcr (by rwa [← hb])
  refine ⟨haccepted, hlen, hrate, hcrc, fun s rest himpl hq hhdr hm hroom => ?_⟩
  have henabled : enabled .hdrParse s = true := canHdrParse_of_head himpl hq (by rw [← hb]; exact hhdr) hm hroom
  have hmbox := parseStep_mbox_of_accepted hq haccepted
  rw [hlen, hrate, hcrc] at hmbox
  exact ⟨_, exec_of_enabled henabled, hmbox⟩

end Sys2Proof.Machine
end

section
/-! The register port (40_host_ops.md R140 to R143): what a write does at each index, what a read returns at each. -/

namespace Sys2Proof.Machine

/-! ### Refused writes (R142, R143) -/

theorem State.flag_busErr (s : State) : s.flag .busErr = { s with regs := { s.regs with evt := s.regs.evt ||| 0x100 } } := rfl

/-- A write past the last register, of a read-only register, or of a locked one does nothing but raise `BUS_ERR`. -/
theorem State.regWrite_of_refused {s : State} {idx : BitVec 6} {v : Word32}
    (h : 0x0E < idx.toNat ∨ isReadOnly idx = true ∨ (isConfig idx = true ∧ s.regs.run = true)) :
    s.regWrite idx v = s.flag .busErr := by
  rw [State.regWrite, State.raise_busErr]
  obtain hpast | hro | ⟨hconfig, hrun⟩ := h
  · rw [if_pos hpast]
  · rw [if_pos hro, ite_self]
  · rw [if_pos hconfig, if_pos hrun, ite_self, ite_self]

theorem isReadOnly_iff (idx : BitVec 6) :
    isReadOnly idx = true ↔ idx = 0x01 ∨ idx = 0x0B ∨ idx = 0x0C ∨ idx = 0x0D ∨ idx = 0x0E := by
  simp [isReadOnly, or_assoc]

theorem isConfig_iff (idx : BitVec 6) : isConfig idx = true ↔ 0x02 ≤ idx.toNat ∧ idx.toNat ≤ 0x08 := by
  simp [isConfig]

theorem exec_regWr_of_refused {s : State}
    (h : 0x0E < s.env.idx.toNat ∨ isReadOnly s.env.idx = true ∨ (isConfig s.env.idx = true ∧ s.regs.run = true)) :
    exec .regWr s = .next { s with regs := { s.regs with evt := s.regs.evt ||| 0x100 } } := by
  rw [exec_of_enabled rfl, effect, State.regWrite_of_refused h, State.flag_busErr]

/-- Settles O10: the listed indices are the read-only registers and the locked ones. -/
theorem refusedWriteSetsBusErr : Obligations.RefusedWriteSetsBusErr := by
  intro s h
  refine exec_regWr_of_refused (.inr ?_)
  rw [isReadOnly_iff, isConfig_iff]
  tauto

/-! ### Reads (R141, R143) -/

theorem exec_regRd_of_defined {s : State} (h : s.env.idx.toNat ≤ 0x0E) :
    exec .regRd s = .next { s with env := { s.env with rdData := s.regRead s.env.idx } } := by
  rw [exec_of_enabled rfl, effect, if_neg (Nat.not_lt.mpr h)]

/-- An index past the last register reads 0 (R143). -/
theorem State.regRead_undefined (s : State) {idx : BitVec 6} (h : 0x0E < idx.toNat) : s.regRead idx = 0 := by
  have hne (k : BitVec 6) (hk : k.toNat ≤ 0x0E) : idx ≠ k := by
    rintro rfl
    omega
  simp [State.regRead, hne]

theorem exec_regRd_of_undefined {s : State} (h : 0x0E < s.env.idx.toNat) :
    exec .regRd s =
      .next { s with regs := { s.regs with evt := s.regs.evt ||| 0x100 }, env := { s.env with rdData := 0 } } := by
  rw [exec_of_enabled rfl, effect, if_pos h, s.regRead_undefined h, State.raise_busErr, State.flag_busErr]

/-- Settles O11: the write is a refused one, the read finds no register. -/
theorem undefinedIndexSetsBusErr : Obligations.UndefinedIndexSetsBusErr := fun _ hidx =>
  ⟨exec_regWr_of_refused (.inl hidx), exec_regRd_of_undefined hidx⟩

/-! ### Writes of configuration registers (R140) -/

theorem defined_of_isConfig : ∀ idx : BitVec 6, isConfig idx = true → ¬0x0E < idx.toNat ∧ isReadOnly idx = false := by decide

theorem State.regWrite_of_config {s : State} {idx : BitVec 6} {v : Word32} (h : isConfig idx = true)
    (hidle : s.regs.run = false) : s.regWrite idx v = { s with regs := s.regs.writeConfig idx v } := by
  obtain ⟨hdefined, hro⟩ := defined_of_isConfig idx h
  rw [State.regWrite, if_neg hdefined, if_neg (ne_true_of_eq_false hro), if_pos h, if_neg (ne_true_of_eq_false hidle)]

/-- A register with no reserved bit takes and shows every bit. -/
theorem and_full_mask (v : Word32) : v &&& 0xFFFFFFFF = v := BitVec.and_allOnes

section config_register

variable (r : HostRegs) (v : Word32)

theorem HostRegs.writeConfig_sf : r.writeConfig 0x02 v = { r with sf := v &&& 0x0000000F } := rfl
theorem HostRegs.writeConfig_bw : r.writeConfig 0x03 v = { r with bw := v } :=
  congrArg (fun w => { r with bw := w }) (and_full_mask v)
theorem HostRegs.writeConfig_fs : r.writeConfig 0x04 v = { r with fs := v } :=
  congrArg (fun w => { r with fs := w }) (and_full_mask v)
theorem HostRegs.writeConfig_mode : r.writeConfig 0x05 v = { r with mode := v &&& 0x00000077 } := rfl
theorem HostRegs.writeConfig_paylen : r.writeConfig 0x06 v = { r with paylen := v &&& 0x000000FF } := rfl
theorem HostRegs.writeConfig_sync : r.writeConfig 0x07 v = { r with sync := v &&& 0x3FFF0FFF } := rfl
theorem HostRegs.writeConfig_det : r.writeConfig 0x08 v = { r with det := v &&& 0x0007FFFF } := rfl

end config_register

theorem exec_regWr_of_config {s : State} {idx : BitVec 6} {r : HostRegs} (hidle : s.regs.run = false)
    (hidx : s.env.idx = idx) (hconfig : isConfig idx = true) (hr : s.regs.writeConfig idx s.env.v = r) :
    exec .regWr s = .next { s with regs := r } := by
  rw [exec_of_enabled rfl, effect, hidx, State.regWrite_of_config hconfig hidle, hr]

/-- Settles O9: each configuration register takes the bits of its mask. -/
theorem regWrStoresConfiguration : Obligations.RegWrStoresConfiguration := fun s hidle =>
  ⟨fun h => exec_regWr_of_config hidle h rfl (s.regs.writeConfig_sf s.env.v),
    fun h => exec_regWr_of_config hidle h rfl (s.regs.writeConfig_bw s.env.v),
    fun h => exec_regWr_of_config hidle h rfl (s.regs.writeConfig_fs s.env.v),
    fun h => exec_regWr_of_config hidle h rfl (s.regs.writeConfig_mode s.env.v),
    fun h => exec_regWr_of_config hidle h rfl (s.regs.writeConfig_paylen s.env.v),
    fun h => exec_regWr_of_config hidle h rfl (s.regs.writeConfig_sync s.env.v),
    fun h => exec_regWr_of_config hidle h rfl (s.regs.writeConfig_det s.env.v)⟩

/-! ### Writes performed in any mode (R140) -/

theorem State.regWrite_irqEn (s : State) (v : Word32) :
    s.regWrite 0x09 v = { s with regs := { s.regs with irqEn := v.extractLsb' 0 9 } } := rfl
theorem State.regWrite_evt (s : State) (v : Word32) :
    s.regWrite 0x0A v = { s with regs := { s.regs with evt := s.regs.evt &&& ~~~(v.extractLsb' 0 9) } } := rfl
theorem State.regWrite_ctrl (s : State) (v : Word32) : s.regWrite 0x00 v = s.command v := rfl

/-- A write of `CTRL` is the operation of the command it performs (log entry 8). -/
theorem next_command (s : State) (v : Word32) :
    .next (s.command v) =
      if v.getLsbD 2 then exec .sreset s
      else if v.getLsbD 1 then exec .stop s
      else if v.getLsbD 0 then exec .start s
      else .next s := by
  obtain ⟨h2, h⟩ | ⟨h2, h1, h⟩ | ⟨h2, h1, h0, h⟩ | ⟨h2, h1, h0, h⟩ := s.command_cases v
  · rw [h, if_pos h2, exec_of_enabled rfl, effect]
  · rw [h, h2, if_neg Bool.false_ne_true, if_pos h1, exec_of_enabled rfl, effect]
  · rw [h, h2, h1, if_neg Bool.false_ne_true, if_neg Bool.false_ne_true, if_pos h0, exec_of_enabled rfl, effect]
  · rw [h, h2, h1, h0, if_neg Bool.false_ne_true, if_neg Bool.false_ne_true, if_neg Bool.false_ne_true]

/-- Settles O12: `IRQ_EN`, `EVT` and `CTRL` are no configuration registers, so no mode refuses their writes. -/
theorem regWrInAnyMode : Obligations.RegWrInAnyMode := by
  refine fun s => ⟨fun h => ?_, fun h => ?_, fun h => ?_⟩ <;> rw [exec_of_enabled rfl, effect, h]
  · rw [State.regWrite_irqEn]
  · rw [State.regWrite_evt]
  · rw [State.regWrite_ctrl, next_command]

/-! ### The registers composed on a read (10_state.md R23, R29) -/

theorem State.statusWord_bits (s : State) :
    s.statusWord.getLsbD 0 = s.regs.run ∧ s.statusWord.getLsbD 1 = s.regs.cfgErr ∧
      s.statusWord.getLsbD 5 = s.sync.hdrWait ∧ s.statusWord.getLsbD 6 = !s.e9.isEmpty := by
  simp only [State.statusWord, BitVec.getLsbD_append]
  simp

theorem State.statusWord_syncState (s : State) : s.statusWord.extractLsb' 2 3 = s.sync.state.code := by
  rw [State.statusWord, BitVec.extractLsb'_append_eq_of_le (by decide), BitVec.extractLsb'_append_eq_of_le (by decide)]
  exact BitVec.extractLsb'_append_eq_right

theorem State.statusWord_cfgCode (s : State) : s.statusWord.extractLsb' 8 4 = s.regs.cfgCode := by
  rw [State.statusWord]
  iterate 6 rw [BitVec.extractLsb'_append_eq_of_le (by decide)]
  exact BitVec.extractLsb'_append_eq_right

theorem State.statusWord_reserved (s : State) : s.statusWord &&& 0xFFFFF080 = 0 := by
  have hmask : (0xFFFFF080 : Word32) = 0xFFFFF#20 ++ 0#4 ++ 1#1 ++ 0#1 ++ 0#1 ++ 0#3 ++ 0#1 ++ 0#1 := by decide
  rw [State.statusWord, hmask]
  iterate 7 rw [BitVec.and_append]
  simp only [BitVec.and_zero]
  decide

theorem State.estWord_fields (s : State) :
    s.estWord.extractLsb' 0 12 = s.sync.cfo2 ∧ s.estWord.extractLsb' 16 12 = s.sync.kLock := by
  refine ⟨BitVec.extractLsb'_append_eq_right, ?_⟩
  rw [State.estWord, BitVec.extractLsb'_append_eq_of_le (by decide), BitVec.extractLsb'_append_eq_of_le (by decide)]
  exact BitVec.extractLsb'_append_eq_right

theorem State.estWord_reserved (s : State) : s.estWord &&& 0xF000F000 = 0 := by
  have hmask : (0xF000F000 : Word32) = 0xF#4 ++ 0#12 ++ 0xF#4 ++ 0#12 := by decide
  rw [State.estWord, hmask, BitVec.and_append, BitVec.and_append, BitVec.and_append]
  simp only [BitVec.and_zero]
  decide

theorem State.driftWord_fields (s : State) :
    s.driftWord.extractLsb' 0 20 = s.sync.driftSum ∧ s.driftWord.extractLsb' 24 8 = s.sync.runLen := by
  refine ⟨BitVec.extractLsb'_append_eq_right, ?_⟩
  rw [State.driftWord, BitVec.extractLsb'_append_eq_of_le (by decide)]
  exact BitVec.extractLsb'_append_eq_left

theorem State.driftWord_reserved (s : State) : s.driftWord &&& 0x00F00000 = 0 := by
  have hmask : (0x00F00000 : Word32) = 0#8 ++ 0xF#4 ++ 0#20 := by decide
  rw [State.driftWord, hmask, BitVec.and_append, BitVec.and_append]
  simp only [BitVec.and_zero]
  decide

/-! ### Reads, register by register (R141) -/

theorem State.statusWord_layout (s : State) :
    s.statusWord.getLsbD 0 = s.regs.run ∧ s.statusWord.getLsbD 1 = s.regs.cfgErr ∧
      s.statusWord.extractLsb' 2 3 = s.sync.state.code ∧ s.statusWord.getLsbD 5 = s.sync.hdrWait ∧
      (s.statusWord.getLsbD 6 = !s.e9.isEmpty) ∧ s.statusWord.extractLsb' 8 4 = s.regs.cfgCode ∧
      s.statusWord &&& 0xFFFFF080 = 0 := by
  obtain ⟨hrun, herr, hwait, havail⟩ := s.statusWord_bits
  exact ⟨hrun, herr, s.statusWord_syncState, hwait, havail, s.statusWord_cfgCode, s.statusWord_reserved⟩

theorem State.estWord_layout (s : State) :
    s.estWord.extractLsb' 0 12 = s.sync.cfo2 ∧ s.estWord.extractLsb' 16 12 = s.sync.kLock ∧
      s.estWord &&& 0xF000F000 = 0 :=
  and_assoc.mp ⟨s.estWord_fields, s.estWord_reserved⟩

theorem State.driftWord_layout (s : State) :
    s.driftWord.extractLsb' 0 20 = s.sync.driftSum ∧ s.driftWord.extractLsb' 24 8 = s.sync.runLen ∧
      s.driftWord &&& 0x00F00000 = 0 :=
  and_assoc.mp ⟨s.driftWord_fields, s.driftWord_reserved⟩

section register_read

variable (s : State)

theorem State.regRead_ctrl : s.regRead 0x00 = 0 := rfl
theorem State.regRead_status : s.regRead 0x01 = s.statusWord := rfl
theorem State.regRead_sf : s.regRead 0x02 = s.regs.sf &&& 0x0000000F := rfl
theorem State.regRead_bw : s.regRead 0x03 = s.regs.bw := and_full_mask s.regs.bw
theorem State.regRead_fs : s.regRead 0x04 = s.regs.fs := and_full_mask s.regs.fs
theorem State.regRead_mode : s.regRead 0x05 = s.regs.mode &&& 0x00000077 := rfl
theorem State.regRead_paylen : s.regRead 0x06 = s.regs.paylen &&& 0x000000FF := rfl
theorem State.regRead_sync : s.regRead 0x07 = s.regs.sync &&& 0x3FFF0FFF := rfl
theorem State.regRead_det : s.regRead 0x08 = s.regs.det &&& 0x0007FFFF := rfl
theorem State.regRead_irqEn : s.regRead 0x09 = s.regs.irqEn.setWidth 32 := rfl
theorem State.regRead_evt : s.regRead 0x0A = s.regs.evt.setWidth 32 := rfl
theorem State.regRead_dropCnt : s.regRead 0x0B = s.regs.dropCnt := rfl
theorem State.regRead_frameCnt : s.regRead 0x0C = s.regs.frameCnt := rfl
theorem State.regRead_est : s.regRead 0x0D = s.estWord := rfl
theorem State.regRead_drift : s.regRead 0x0E = s.driftWord := rfl

end register_read

/-- Settles O13: the read answers `State.regRead`, whose value is known at each index; the three composed words are laid out as
10_state.md R23 and R29 say. -/
theorem regRdReturnsTheRegister : Obligations.RegRdReturnsTheRegister := by
  refine fun s hidx => ⟨s.regRead s.env.idx, exec_regRd_of_defined hidx, ?_⟩
  have reads {idx : BitVec 6} {w : Word32} (hw : s.regRead idx = w) (h : s.env.idx = idx) : s.regRead s.env.idx = w := h ▸ hw
  refine ⟨reads s.regRead_ctrl, fun h => ?status, reads s.regRead_sf, reads s.regRead_bw, reads s.regRead_fs,
    reads s.regRead_mode, reads s.regRead_paylen, reads s.regRead_sync, reads s.regRead_det, reads s.regRead_irqEn,
    reads s.regRead_evt, reads s.regRead_dropCnt, reads s.regRead_frameCnt, fun h => ?est, fun h => ?drift⟩
  case status => rw [reads s.regRead_status h]; exact s.statusWord_layout
  case est => rw [reads s.regRead_est h]; exact s.estWord_layout
  case drift => rw [reads s.regRead_drift h]; exact s.driftWord_layout

end Sys2Proof.Machine
end

section
/-! The commands of `CTRL`, the sample port and the record port (40_host_ops.md R144 to R150). -/

namespace Sys2Proof.Machine

/-! ### `START` (R144, R145) -/

/-- Settles O14: the three branches of `State.startCmd_cases` are the three cases. -/
theorem startBeginsASession : Obligations.StartBeginsASession := by
  intro s
  rw [exec_of_enabled rfl, effect]
  obtain ⟨hrun, h⟩ | ⟨hidle, hcheck, h⟩ | ⟨hidle, hcheck, h⟩ := s.startCmd_cases <;> rw [h]
  · simp [hrun]
  · exact ⟨by simp [hidle], fun _ _ => rfl, fun _ hzero => absurd hzero hcheck⟩
  · exact ⟨by simp [hidle], fun _ hne => absurd hcheck hne, fun _ _ => rfl⟩

/-! ### The configuration check (R146) -/

/-- The check with its conditions as R146 words them: `SYNC_N` is neither 1 nor 2. -/
theorem State.configCheck_eq (s : State) :
    s.configCheck =
      if s.sf < 7 ∨ 12 < s.sf then 1
      else if s.regs.bw = 0 ∨ s.regs.fs = 0 ∨ s.regs.fs.toNat % s.regs.bw.toNat ≠ 0 ∨
        s.par.sampDepth < 2 * 2 ^ s.sf * (s.regs.fs.toNat / s.regs.bw.toNat) then 2
      else if s.impl = true ∧ (s.modeCr.toNat < 1 ∨ 4 < s.modeCr.toNat) then 3
      else if (s.syncN ≠ 1 ∧ s.syncN ≠ 2) ∨ 2 ^ s.sf ≤ s.syncBin0.toNat ∨ (s.syncN = 2 ∧ 2 ^ s.sf ≤ s.syncBin1.toNat) then 4
      else if s.minRun.toNat < 2 ∨ 2 ^ s.sf / 4 ≤ s.binTol then 5
      else if s.impl = true ∧ s.paylen = 0 then 6
      else 0 := by
  simp only [State.configCheck, not_or]
  rfl

/-- Settles O15: each code is the branch reached when no earlier condition holds. -/
theorem configCheckAnswersTheLowestCode : Obligations.ConfigCheckAnswersTheLowestCode := by
  intro s
  dsimp only
  rw [s.configCheck_eq]
  refine ⟨fun h1 => ?_, fun n1 h2 => ?_, fun n1 n2 h3 => ?_, fun n1 n2 n3 h4 => ?_, fun n1 n2 n3 n4 h5 => ?_,
    fun n1 n2 n3 n4 n5 h6 => ?_, fun n1 n2 n3 n4 n5 n6 => ?_⟩
  · rw [if_pos h1]
  · rw [if_neg n1, if_pos h2]
  · rw [if_neg n1, if_neg n2, if_pos h3]
  · rw [if_neg n1, if_neg n2, if_neg n3, if_pos h4]
  · rw [if_neg n1, if_neg n2, if_neg n3, if_neg n4, if_pos h5]
  · rw [if_neg n1, if_neg n2, if_neg n3, if_neg n4, if_neg n5, if_pos h6]
  · rw [if_neg n1, if_neg n2, if_neg n3, if_neg n4, if_neg n5, if_neg n6]

/-! ### `STOP` (R147) -/

/-- Settles O16: outside a session nothing, in one `pipeline_clear()` and `RUN` lowered. -/
theorem stopEndsTheSession : Obligations.StopEndsTheSession := by
  intro s
  rw [exec_of_enabled rfl, effect]
  obtain ⟨hidle, h⟩ | ⟨hrun, h⟩ := s.stopCmd_cases <;> rw [h]
  · simp [hidle]
  · exact ⟨by simp [hrun], fun _ => rfl⟩

/-! ### The sample port and the record port (R149, R150) -/

/-- Settles O18: idle, full and with room are the three branches of the push. -/
theorem sampPushAppendsOneSample : Obligations.SampPushAppendsOneSample := by
  refine fun s => ⟨fun hidle => ?_, fun hrun hfull => ?_, fun hrun hroom => ?_⟩ <;> rw [exec_of_enabled rfl, effect]
  · rw [if_pos hidle]
  · rw [if_neg (ne_false_of_eq_true hrun), if_pos hfull]
    rfl
  · rw [if_neg (ne_false_of_eq_true hrun), if_neg hroom]

/-- Settles O19: the head of `E9` goes to the port, the tail stays. -/
theorem recPopTakesTheOldestRecord : Obligations.RecPopTakesTheOldestRecord := by
  refine fun s => ⟨fun hnone => ?_, fun r rest hq => ?_⟩ <;> rw [exec_of_enabled rfl, effect]
  · rw [hnone]
    rfl
  · rw [hq]
    rfl

end Sys2Proof.Machine
end

section
/-! The roots of unity the exact numbers are written with (Value.lean): angles add, and `z (L + 1)` lies outside the field of
`z L`, so that a number `a + b * z (L + 1)` has one `a` and one `b` in that field. -/

namespace Sys2Proof

/-! ### Angles in turns -/

namespace Value

theorem turn_add (x y : ℝ) : turn (x + y) = turn x * turn y := by
  rw [turn, turn, turn, ← Complex.exp_add]
  push_cast
  ring_nf

theorem turn_intCast (m : ℤ) : turn m = 1 := by
  rw [turn, ← Complex.exp_int_mul_two_pi_mul_I m]
  push_cast
  ring_nf

@[simp] theorem turn_zero : turn 0 = 1 := by simpa using turn_intCast 0

theorem turn_add_intCast (x : ℝ) (m : ℤ) : turn (x + m) = turn x := by rw [turn_add, turn_intCast, mul_one]

theorem turn_natCast_mul (n : ℕ) (x : ℝ) : turn (n * x) = turn x ^ n := by
  rw [turn, turn, ← Complex.exp_nat_mul]
  push_cast
  ring_nf

theorem conj_turn (x : ℝ) : (starRingEnd ℂ) (turn x) = turn (-x) := by
  rw [turn, turn, ← Complex.exp_conj]
  simp [-Complex.ofReal_mul]

end Value

/-! ### The roots `z k` -/

theorem unitRoot_eq_turn (k : ℕ) : unitRoot k = Value.turn (1 / 2 ^ (k + 1)) := by
  rw [unitRoot, Value.turn, pow_succ]
  congr 1
  push_cast
  field

theorem isPrimitiveRoot_unitRoot (k : ℕ) : IsPrimitiveRoot (unitRoot k) (2 ^ (k + 1)) := by
  convert Complex.isPrimitiveRoot_exp (2 ^ (k + 1)) (by positivity) using 1
  rw [unitRoot, pow_succ]
  congr 1
  push_cast
  field

theorem unitRoot_ne_zero (k : ℕ) : unitRoot k ≠ 0 := Complex.exp_ne_zero _

@[simp] theorem unitRoot_zero : unitRoot 0 = -1 := by
  rw [unitRoot, ← Complex.exp_pi_mul_I]
  ring_nf

theorem unitRoot_succ_mul_self (k : ℕ) : unitRoot (k + 1) * unitRoot (k + 1) = unitRoot k := by
  rw [unitRoot_eq_turn, unitRoot_eq_turn, ← Value.turn_add]
  congr 1
  ring

theorem conj_unitRoot (k : ℕ) : (starRingEnd ℂ) (unitRoot k) = (unitRoot k)⁻¹ := by
  refine eq_inv_of_mul_eq_one_left ?_
  rw [unitRoot_eq_turn, Value.conj_turn, ← Value.turn_add]
  simp

/-- The conjugate of `z (k + 1)` is `z (k + 1)` times the power of `z k` that `Num.conj` multiplies by. -/
theorem conj_unitRoot_succ (k : ℕ) :
    (starRingEnd ℂ) (unitRoot (k + 1)) = unitRoot k ^ (2 ^ (k + 1) - 1) * unitRoot (k + 1) := by
  have hone : unitRoot k ^ (2 ^ (k + 1) - 1) * unitRoot k = 1 := by
    rw [pow_sub_one_mul (by positivity), (isPrimitiveRoot_unitRoot k).pow_eq_one]
  rw [conj_unitRoot]
  refine inv_eq_of_mul_eq_one_left ?_
  rw [mul_assoc, unitRoot_succ_mul_self, hone]

/-! ### The fields they span -/

/-- The numbers of level at most `L`: the field of `z L` over the rationals. -/
noncomputable def levelField (L : ℕ) : IntermediateField ℚ ℂ := IntermediateField.adjoin ℚ {unitRoot L}

theorem unitRoot_mem_levelField (L : ℕ) : unitRoot L ∈ levelField L := IntermediateField.mem_adjoin_simple_self ℚ _

theorem ratCast_mem_levelField (L : ℕ) (q : ℚ) : (q : ℂ) ∈ levelField L := (levelField L).algebraMap_mem q

theorem levelField_le_succ (L : ℕ) : levelField L ≤ levelField (L + 1) := by
  rw [levelField, IntermediateField.adjoin_simple_le_iff, ← unitRoot_succ_mul_self]
  exact mul_mem (unitRoot_mem_levelField _) (unitRoot_mem_levelField _)

theorem isIntegral_unitRoot (L : ℕ) : IsIntegral ℚ (unitRoot L) :=
  ((isPrimitiveRoot_unitRoot L).isIntegral (by positivity)).tower_top

theorem finrank_levelField (L : ℕ) : Module.finrank ℚ (levelField L) = 2 ^ L := by
  rw [levelField, IntermediateField.adjoin.finrank (isIntegral_unitRoot L),
    ← Polynomial.cyclotomic_eq_minpoly_rat (isPrimitiveRoot_unitRoot L) (by positivity), Polynomial.natDegree_cyclotomic,
    Nat.totient_prime_pow_succ Nat.prime_two]
  simp

/-- By degrees: the field of `z (L + 1)` is twice as large. -/
theorem unitRoot_succ_notMem_levelField (L : ℕ) : unitRoot (L + 1) ∉ levelField L := by
  intro hmem
  have hle : levelField (L + 1) ≤ levelField L := IntermediateField.adjoin_simple_le_iff.mpr hmem
  have hdvd : 2 ^ (L + 1) ∣ 2 ^ L := by
    rw [← finrank_levelField, ← finrank_levelField]
    exact IntermediateField.finrank_dvd_of_le_right hle
  exact (Nat.le_of_dvd (by positivity) hdvd).not_gt (Nat.pow_lt_pow_succ one_lt_two)

/-- A number has one part without `z (L + 1)` and one factor of it. -/
theorem eq_and_eq_of_add_mul_unitRoot_eq {L : ℕ} {a b a' b' : ℂ} (ha : a ∈ levelField L) (hb : b ∈ levelField L)
    (ha' : a' ∈ levelField L) (hb' : b' ∈ levelField L)
    (h : a + b * unitRoot (L + 1) = a' + b' * unitRoot (L + 1)) : a = a' ∧ b = b' := by
  have hbb : b = b' := by
    by_contra hne
    have hz : unitRoot (L + 1) = (a' - a) / (b - b') := by
      rw [eq_div_iff (sub_ne_zero.mpr hne)]
      linear_combination h
    exact unitRoot_succ_notMem_levelField L (hz ▸ div_mem (sub_mem ha' ha) (sub_mem hb hb'))
  subst hbb
  exact ⟨add_right_cancel h, rfl⟩

end Sys2Proof
end

section
/-! Exact arithmetic is arithmetic on complex numbers (log entry 3). `Represents L x c` says that `x` is the canonical form, of
level at most `L`, of the complex number `c`; each operation of Machine/Exact.lean takes numbers that represent its operands to
one that represents its result. -/

namespace Sys2Proof.Num

variable {L : ℕ} {x y : Num} {c d : ℂ}

/-! ### Canonical forms of bounded level -/

/-- A canonical form of level at most `L` over rational leaves. -/
def AtMost (L : ℕ) (x : Num) : Prop := wfBelow (fun _ => false) (L + 1) x = true

@[simp] theorem atMost_rat (L : ℕ) (q : ℚ) : AtMost L (.rat q) := rfl

@[simp] theorem not_atMost_odd (L : ℕ) (t : List (ℚ × ℚ)) : ¬ AtMost L (.odd t) := Bool.false_ne_true

theorem atMost_ext {k : ℕ} {a b : Num} :
    AtMost L (.ext (k + 1) a b) ↔ k < L ∧ b ≠ .rat 0 ∧ AtMost k a ∧ AtMost k b := by
  simp [AtMost, wfBelow, and_assoc]

theorem not_atMost_ext_zero {a b : Num} : ¬ AtMost L (.ext 0 a b) := by simp [AtMost, wfBelow]

theorem AtMost.mono {L' : ℕ} (h : AtMost L x) (hle : L ≤ L') : AtMost L' x := by
  match x with
  | .rat _ => exact atMost_rat _ _
  | .odd _ => exact absurd h (not_atMost_odd _ _)
  | .ext 0 _ _ => exact absurd h not_atMost_ext_zero
  | .ext (k + 1) _ _ =>
    obtain ⟨hk, hb⟩ := atMost_ext.mp h
    exact atMost_ext.mpr ⟨hk.trans_le hle, hb⟩

theorem AtMost.wf (h : AtMost L x) : x.wf = true := by
  match x with
  | .rat _ => rfl
  | .odd _ => exact absurd h (not_atMost_odd _ _)
  | .ext 0 _ _ => exact absurd h not_atMost_ext_zero
  | .ext (k + 1) _ _ => exact atMost_ext.mpr ⟨k.lt_succ_self, (atMost_ext.mp h).2⟩

theorem atMost_zero_iff : AtMost 0 x ↔ ∃ q, x = .rat q := by
  constructor
  · intro h
    match x with
    | .rat q => exact ⟨q, rfl⟩
    | .odd _ => exact absurd h (not_atMost_odd _ _)
    | .ext 0 _ _ => exact absurd h not_atMost_ext_zero
    | .ext (k + 1) _ _ => exact absurd (atMost_ext.mp h).1 k.not_lt_zero
  · rintro ⟨q, rfl⟩
    exact atMost_rat 0 q

/-- The two parts of a number of level at most `L + 1`. -/
theorem AtMost.parts (h : AtMost (L + 1) x) :
    AtMost L (lo (L + 1) x) ∧ AtMost L (hi (L + 1) x) ∧ join (L + 1) (lo (L + 1) x) (hi (L + 1) x) = x := by
  match x with
  | .rat q => simp [lo, hi, join]
  | .odd _ => exact absurd h (not_atMost_odd _ _)
  | .ext 0 _ _ => exact absurd h not_atMost_ext_zero
  | .ext (k + 1) a b =>
    obtain ⟨hk, hb, ha', hb'⟩ := atMost_ext.mp h
    by_cases htop : k = L
    · subst htop
      simp [lo, hi, join, hb, ha', hb']
    · simp [lo, hi, join, htop, atMost_ext, hb, ha', hb']
      omega

theorem AtMost.join (hx : AtMost L x) (hy : AtMost L y) : AtMost (L + 1) (join (L + 1) x y) := by
  unfold Num.join
  split
  · exact hx.mono L.le_succ
  · exact atMost_ext.mpr ⟨L.lt_succ_self, ‹_›, hx, hy⟩

@[simp] theorem val_rat (q : ℚ) : (Num.rat q).val = q := rfl

theorem val_ext (k : ℕ) (x y : Num) : (Num.ext k x y).val = x.val + y.val * unitRoot k := rfl

theorem val_join (k : ℕ) (x y : Num) : (join k x y).val = x.val + y.val * unitRoot k := by
  unfold join
  split
  · simp [*]
  · rfl

/-! ### Representation, level by level -/

/-- `x` is the canonical form, of level at most `L`, of the complex number `c`. -/
structure Represents (L : ℕ) (x : Num) (c : ℂ) : Prop where
  atMost : AtMost L x
  val_eq : x.val = c

namespace Represents

theorem rat (L : ℕ) (q : ℚ) : Represents L (.rat q) q := ⟨atMost_rat L q, rfl⟩

theorem zero (L : ℕ) : Represents L (.rat 0) 0 := ⟨atMost_rat L 0, by simp⟩

theorem mono {L' : ℕ} (h : Represents L x c) (hle : L ≤ L') : Represents L' x c := ⟨h.atMost.mono hle, h.val_eq⟩

theorem exists_rat (h : Represents 0 x c) : ∃ q : ℚ, x = .rat q ∧ c = q := by
  obtain ⟨q, rfl⟩ := atMost_zero_iff.mp h.atMost
  exact ⟨q, rfl, h.val_eq.symm⟩

theorem join (hx : Represents L x c) (hy : Represents L y d) :
    Represents (L + 1) (join (L + 1) x y) (c + d * unitRoot (L + 1)) :=
  ⟨hx.atMost.join hy.atMost, by rw [val_join, hx.val_eq, hy.val_eq]⟩

theorem exists_parts (h : Represents (L + 1) x c) :
    ∃ a b : ℂ, Represents L (lo (L + 1) x) a ∧ Represents L (hi (L + 1) x) b ∧ c = a + b * unitRoot (L + 1) := by
  obtain ⟨hlo, hhi, hjoin⟩ := h.atMost.parts
  exact ⟨_, _, ⟨hlo, rfl⟩, ⟨hhi, rfl⟩, by rw [← h.val_eq, ← val_join, hjoin]⟩

/-- The number is written in the roots `z 0` to `z L`. -/
theorem mem_levelField (h : Represents L x c) : c ∈ levelField L := by
  induction L generalizing x c with
  | zero =>
    obtain ⟨q, -, rfl⟩ := h.exists_rat
    exact ratCast_mem_levelField 0 q
  | succ L ih =>
    obtain ⟨a, b, ha, hb, rfl⟩ := h.exists_parts
    exact add_mem (levelField_le_succ L (ih ha)) (mul_mem (levelField_le_succ L (ih hb)) (unitRoot_mem_levelField _))

/-- Each complex number has at most one canonical form. -/
theorem unique (hx : Represents L x c) (hy : Represents L y c) : x = y := by
  induction L generalizing x y c with
  | zero =>
    obtain ⟨q, rfl, hq⟩ := hx.exists_rat
    obtain ⟨r, rfl, hr⟩ := hy.exists_rat
    rw [Rat.cast_injective (α := ℂ) (hq.symm.trans hr)]
  | succ L ih =>
    obtain ⟨a, b, ha, hb, rfl⟩ := hx.exists_parts
    obtain ⟨a', b', ha', hb', heq⟩ := hy.exists_parts
    obtain ⟨rfl, rfl⟩ := eq_and_eq_of_add_mul_unitRoot_eq ha.mem_levelField hb.mem_levelField ha'.mem_levelField
      hb'.mem_levelField heq
    rw [← hx.atMost.parts.2.2, ← hy.atMost.parts.2.2, ih ha ha', ih hb hb']

theorem eq_zero_iff (h : Represents L x c) : x = .rat 0 ↔ c = 0 := by
  constructor
  · rintro rfl
    simpa using h.val_eq.symm
  · rintro rfl
    exact h.unique (zero L)

/-! ### The field operations -/

theorem add (hx : Represents L x c) (hy : Represents L y d) : Represents L (addL L x y) (c + d) := by
  induction L generalizing x y c d with
  | zero =>
    obtain ⟨q, rfl, rfl⟩ := hx.exists_rat
    obtain ⟨r, rfl, rfl⟩ := hy.exists_rat
    simpa [addL, leafAdd] using rat 0 (q + r)
  | succ L ih =>
    unfold addL
    split_ifs with hx0 hy0
    · simpa [hx.eq_zero_iff.mp hx0] using hy
    · simpa [hy.eq_zero_iff.mp hy0] using hx
    · obtain ⟨a, b, ha, hb, rfl⟩ := hx.exists_parts
      obtain ⟨a', b', ha', hb', rfl⟩ := hy.exists_parts
      convert (ih ha ha').join (ih hb hb') using 1
      ring

theorem neg (hx : Represents L x c) : Represents L (neg x) (-c) := by
  obtain ⟨hbelow, rfl⟩ := hx
  induction x generalizing L with
  | rat q => simpa [Num.neg] using rat L (-q)
  | odd t => exact absurd hbelow (not_atMost_odd _ _)
  | ext k a b iha ihb =>
    match k with
    | 0 => exact absurd hbelow not_atMost_ext_zero
    | k + 1 =>
      obtain ⟨hk, hb0, ha, hb⟩ := atMost_ext.mp hbelow
      have hnb := ihb hb
      have hne : b.val ≠ 0 := mt (eq_zero_iff ⟨hb, rfl⟩).mpr hb0
      refine ⟨atMost_ext.mpr ⟨hk, mt hnb.eq_zero_iff.mp (neg_ne_zero.mpr hne), (iha ha).atMost, hnb.atMost⟩, ?_⟩
      rw [Num.neg, val_ext, val_ext, (iha ha).val_eq, hnb.val_eq]
      ring

theorem mulZ (hx : Represents L x c) : Represents L (mulZ L x) (c * unitRoot L) := by
  induction L generalizing x c with
  | zero => simpa [Num.mulZ] using hx.neg
  | succ L ih =>
    unfold Num.mulZ
    split_ifs with hx0
    · simpa [hx.eq_zero_iff.mp hx0] using hx
    · obtain ⟨a, b, ha, hb, rfl⟩ := hx.exists_parts
      convert (ih hb).join ha using 1
      linear_combination b * unitRoot_succ_mul_self L

theorem mul (hx : Represents L x c) (hy : Represents L y d) : Represents L (mulL L x y) (c * d) := by
  induction L generalizing x y c d with
  | zero =>
    obtain ⟨q, rfl, rfl⟩ := hx.exists_rat
    obtain ⟨r, rfl, rfl⟩ := hy.exists_rat
    simpa [mulL, leafMul] using rat 0 (q * r)
  | succ L ih =>
    unfold mulL
    split_ifs with hx0 hy0
    · simpa [hx.eq_zero_iff.mp hx0] using zero (L + 1)
    · simpa [hy.eq_zero_iff.mp hy0] using zero (L + 1)
    · obtain ⟨a, b, ha, hb, rfl⟩ := hx.exists_parts
      obtain ⟨a', b', ha', hb', rfl⟩ := hy.exists_parts
      convert ((ih ha ha').add (ih hb hb').mulZ).join ((ih ha hb').add (ih hb ha')) using 1
      linear_combination b * b' * unitRoot_succ_mul_self L

/-- `a^2 - b^2 z^2`, with which the inverse and the sign of `a + b z` are found. -/
theorem normDiff (hx : Represents L x c) (hy : Represents L y d) :
    Represents L (addL L (mulL L x x) (Num.neg (Num.mulZ L (mulL L y y))))
      ((c - d * unitRoot (L + 1)) * (c + d * unitRoot (L + 1))) := by
  convert (hx.mul hx).add (hy.mul hy).mulZ.neg using 1
  linear_combination -d ^ 2 * unitRoot_succ_mul_self L

theorem inv (hx : Represents L x c) : Represents L (invL L x) c⁻¹ := by
  induction L generalizing x c with
  | zero =>
    obtain ⟨q, rfl, rfl⟩ := hx.exists_rat
    simpa [invL, leafInv] using rat 0 q⁻¹
  | succ L ih =>
    obtain ⟨a, b, ha, hb, rfl⟩ := hx.exists_parts
    simp only [invL]
    split_ifs with hb0
    · simpa [hb.eq_zero_iff.mp hb0] using (ih ha).mono L.le_succ
    · have hdiff : a - b * unitRoot (L + 1) ≠ 0 := by
        intro h
        refine mt hb.eq_zero_iff.mpr hb0 (eq_and_eq_of_add_mul_unitRoot_eq (zero_mem _) hb.mem_levelField ha.mem_levelField
          (zero_mem _) ?_).2
        linear_combination -h
      convert (ha.mul (ih (ha.normDiff hb))).join (hb.mul (ih (ha.normDiff hb))).neg using 1
      rw [mul_inv]
      by_cases hsum : a + b * unitRoot (L + 1) = 0
      · simp [hsum]
      · field

/-! ### Roots of unity and conjugates -/

theorem root (k p : ℕ) : Represents k (root k p) (unitRoot k ^ p) := by
  induction k generalizing p with
  | zero =>
    rw [Num.root, unitRoot_zero]
    split_ifs with hp
    · simpa [(Nat.even_iff.mpr hp).neg_one_pow] using rat 0 1
    · simpa [(Nat.not_even_iff_odd.mp (mt Nat.even_iff.mp hp)).neg_one_pow] using rat 0 (-1)
  | succ k ih =>
    have hpow : unitRoot (k + 1) ^ p = unitRoot (k + 1) ^ (p % 2) * unitRoot k ^ (p / 2) := by
      rw [← unitRoot_succ_mul_self k, ← sq, ← pow_mul, ← pow_add, Nat.mod_add_div]
    rw [Num.root, hpow]
    split_ifs with hp
    · simpa [hp] using (ih (p / 2)).mono k.le_succ
    · have hne : Num.root k (p / 2) ≠ .rat 0 := mt (ih (p / 2)).eq_zero_iff.mp (pow_ne_zero _ (unitRoot_ne_zero k))
      convert (zero k).join (ih (p / 2)) using 1
      · rw [Num.join, if_neg hne]
      · rw [Nat.mod_two_ne_zero.mp hp]
        ring

theorem rootInt (k : ℕ) (p : ℤ) : Represents k (rootInt k p) (Value.turn (p / 2 ^ (k + 1))) := by
  rw [Num.rootInt]
  convert root k (p % (2 ^ (k + 1) : ℕ)).toNat using 1
  rw [unitRoot_eq_turn, ← Value.turn_natCast_mul]
  have hmod : (((p % (2 ^ (k + 1) : ℕ)).toNat : ℤ) : ℝ) = p - (2 ^ (k + 1) : ℕ) * (p / (2 ^ (k + 1) : ℕ) : ℤ) := by
    rw [Int.toNat_of_nonneg (Int.emod_nonneg _ (by positivity)), Int.emod_def]
    push_cast
    ring
  rw [← Value.turn_add_intCast _ (-(p / (2 ^ (k + 1) : ℕ))), ← Int.cast_natCast (Int.toNat _), hmod]
  congr 1
  push_cast
  field

theorem conj (hx : Represents L x c) : Represents L (conj x) ((starRingEnd ℂ) c) := by
  obtain ⟨hbelow, rfl⟩ := hx
  induction x generalizing L with
  | rat q => simpa [Num.conj] using rat L q
  | odd t => exact absurd hbelow (not_atMost_odd _ _)
  | ext k a b iha ihb =>
    match k with
    | 0 => exact absurd hbelow not_atMost_ext_zero
    | k + 1 =>
      obtain ⟨hk, -, ha, hb⟩ := atMost_ext.mp hbelow
      rw [Num.conj, Nat.add_sub_cancel]
      convert ((iha ha).join ((ihb hb).mul (root k (2 ^ (k + 1) - 1)))).mono hk using 1
      rw [val_ext, map_add, map_mul, conj_unitRoot_succ]
      ring

end Represents

/-! ### Representation at the level of the number -/

/-- `x` is the canonical form of the complex number `c`. -/
def Denotes (x : Num) (c : ℂ) : Prop := x.wf = true ∧ x.val = c

theorem denotes_val (h : x.wf = true) : Denotes x x.val := ⟨h, rfl⟩

theorem Represents.denotes (h : Represents L x c) : Denotes x c := ⟨h.atMost.wf, h.val_eq⟩

namespace Denotes

theorem represents (h : Denotes x c) (hle : x.level ≤ L) : Represents L x c := Represents.mono ⟨h.1, h.2⟩ hle

theorem rat (q : ℚ) : Denotes (.rat q) q := (Represents.rat 0 q).denotes

theorem zero : Denotes (.rat 0) 0 := (Represents.zero 0).denotes

theorem unique (hx : Denotes x c) (hy : Denotes y c) : x = y :=
  (hx.represents (le_max_left x.level y.level)).unique (hy.represents (le_max_right _ _))

theorem eq_zero_iff (h : Denotes x c) : x = .rat 0 ↔ c = 0 := (h.represents le_rfl).eq_zero_iff

theorem add (hx : Denotes x c) (hy : Denotes y d) : Denotes (add x y) (c + d) :=
  ((hx.represents (le_max_left _ _)).add (hy.represents (le_max_right _ _))).denotes

theorem neg (hx : Denotes x c) : Denotes (neg x) (-c) := (hx.represents le_rfl).neg.denotes

theorem sub (hx : Denotes x c) (hy : Denotes y d) : Denotes (sub x y) (c - d) := sub_eq_add_neg c d ▸ hx.add hy.neg

theorem mul (hx : Denotes x c) (hy : Denotes y d) : Denotes (mul x y) (c * d) :=
  ((hx.represents (le_max_left _ _)).mul (hy.represents (le_max_right _ _))).denotes

theorem inv (hx : Denotes x c) : Denotes (inv x) c⁻¹ := (hx.represents le_rfl).inv.denotes

theorem conj (hx : Denotes x c) : Denotes (conj x) ((starRingEnd ℂ) c) := (hx.represents le_rfl).conj.denotes

theorem normSq (hx : Denotes x c) : Denotes (normSq x) (Complex.normSq c : ℝ) := by
  rw [← Complex.mul_conj]
  exact hx.mul hx.conj

theorem rootInt (k : ℕ) (p : ℤ) : Denotes (rootInt k p) (Value.turn (p / 2 ^ (k + 1))) := (Represents.rootInt k p).denotes

end Denotes

/-- Numbers and complex numbers, place by place, sum to a number and the complex number it denotes. -/
theorem Denotes.sum {l : List Num} {v : List ℂ} (h : List.Forall₂ Denotes l v) : Denotes (sum l) v.sum := by
  have key : ∀ {x c}, Denotes x c → Denotes (l.foldl Num.add x) (c + v.sum) := by
    induction h with
    | nil => simp
    | cons hy _ ih =>
      intro x c hx
      simpa [add_assoc] using ih (hx.add hy)
  simpa [Num.sum] using key zero

end Sys2Proof.Num
end

section
/-! The order of the exact numbers is that of the reals they represent, so that `argmax` finds the bin of 41_demod.md R167, the
smallest index of a largest entry. -/

namespace Sys2Proof.Num

variable {L : ℕ} {x y : Num} {r t : ℝ}

/-! ### Signs -/

theorem ratSgn_eq (q : ℚ) : ratSgn q = SignType.sign (q : ℝ) := by
  obtain hq | rfl | hq := lt_trichotomy q 0
  · simp [ratSgn, hq.not_gt, hq.ne, hq]
  · simp [ratSgn]
  · simp [ratSgn, hq]

theorem AtMost.hasOdd_eq_false (h : AtMost L x) : x.hasOdd = false := by
  induction x generalizing L with
  | rat q => rfl
  | odd t => exact absurd h (not_atMost_odd _ _)
  | ext k a b iha ihb =>
    match k with
    | 0 => exact absurd h not_atMost_ext_zero
    | k + 1 =>
      obtain ⟨-, -, ha, hb⟩ := atMost_ext.mp h
      simp [hasOdd, iha ha, ihb hb]

theorem unitRoot_succ_re_pos (k : ℕ) : 0 < (unitRoot (k + 2)).re := by
  have hle : Real.pi / 2 ^ (k + 2) ≤ Real.pi / 4 := by
    refine div_le_div_of_nonneg_left Real.pi_pos.le (by norm_num) ?_
    rw [pow_add]
    linarith [one_le_pow₀ (M₀ := ℝ) (n := k) one_le_two]
  have hcos : unitRoot (k + 2) = Complex.exp ((Real.pi / 2 ^ (k + 2) : ℝ) * Complex.I) := by
    rw [unitRoot]
    congr 1
    push_cast
    ring
  rw [hcos, Complex.exp_ofReal_mul_I_re]
  have := Real.pi_pos
  exact Real.cos_pos_of_mem_Ioo ⟨by linarith [show (0 : ℝ) < Real.pi / 2 ^ (k + 2) by positivity], by linarith⟩

/-- The case split of `sgnL`: the larger of two numbers of opposite signs decides. -/
theorem sign_add_eq (a b : ℝ) :
    (if (SignType.sign b : ℤ) = 0 then (SignType.sign a : ℤ)
     else if (SignType.sign a : ℤ) = 0 ∨ (SignType.sign a : ℤ) = SignType.sign b then (SignType.sign b : ℤ)
     else SignType.sign ((a - b) * (a + b)) * SignType.sign a) = SignType.sign (a + b) := by
  obtain hb | rfl | hb := lt_trichotomy b 0
  · obtain ha | rfl | ha := lt_trichotomy a 0
    · simp [sign_neg ha, sign_neg hb, sign_neg (add_neg ha hb)]
    · simp [sign_neg hb]
    · simp [sign_pos ha, sign_neg hb, sign_mul, sign_pos (show 0 < a - b by linarith)]
  · simp
  · obtain ha | rfl | ha := lt_trichotomy a 0
    · simp [sign_neg ha, sign_pos hb, sign_mul, sign_neg (show a - b < 0 by linarith)]
    · simp [sign_pos hb]
    · simp [sign_pos ha, sign_pos hb, sign_pos (add_pos ha hb)]

namespace Represents

/-- The parts of a real number: `a` is real and so is `y = b z`; at level 1, where `z = j`, there is no second part. The sign of
`y` is read off `b + b z^2`, which is `y` times the positive `z + conj z`. -/
theorem exists_real_parts (h : Represents (L + 1) x r) (hne : hi (L + 1) x ≠ .rat 0) :
    ∃ a b p : ℝ, r = a + b ∧ 0 < p ∧ Represents L (lo (L + 1) x) a ∧
      Represents L (addL L (hi (L + 1) x) (Num.mulZ L (hi (L + 1) x))) (b * p : ℝ) ∧
      Represents L (addL L (mulL L (lo (L + 1) x) (lo (L + 1) x))
        (Num.neg (Num.mulZ L (mulL L (hi (L + 1) x) (hi (L + 1) x))))) ((a - b) * (a + b) : ℝ) := by
  obtain ⟨a, b, ha, hb, hr⟩ := h.exists_parts
  have hconj : (starRingEnd ℂ) a = a ∧ (starRingEnd ℂ) b * unitRoot L ^ (2 ^ (L + 1) - 1) = b := by
    refine eq_and_eq_of_add_mul_unitRoot_eq ha.conj.mem_levelField (hb.conj.mul (root L _)).mem_levelField ha.mem_levelField
      hb.mem_levelField ?_
    rw [← hr, mul_assoc, ← conj_unitRoot_succ, ← map_mul, ← map_add, ← hr, Complex.conj_ofReal]
  obtain ⟨a, rfl⟩ := Complex.conj_eq_iff_real.mp hconj.1
  have hbz : b * unitRoot (L + 1) = (r - a : ℝ) := by
    rw [Complex.ofReal_sub]
    linear_combination -hr
  match L with
  | 0 =>
    obtain ⟨q, hq, rfl⟩ := hb.exists_rat
    have hq0 : q = 0 := by simpa [neg_eq_iff_add_eq_zero] using hconj.2
    exact absurd (hq.trans (by rw [hq0])) hne
  | L + 1 =>
    refine ⟨a, r - a, 2 * (unitRoot (L + 2)).re, by ring, mul_pos two_pos (unitRoot_succ_re_pos L), ha, ?_, ?_⟩
    · convert hb.add hb.mulZ using 1
      have hz : unitRoot (L + 2) * (starRingEnd ℂ) (unitRoot (L + 2)) = 1 := by
        rw [conj_unitRoot, mul_inv_cancel₀ (unitRoot_ne_zero _)]
      rw [Complex.ofReal_mul, ← hbz, ← Complex.add_conj, ← unitRoot_succ_mul_self (L + 1)]
      linear_combination b * hz
    · convert ha.normDiff hb using 1
      rw [hbz]
      push_cast
      ring

theorem sgnL_eq (h : Represents L x r) : sgnL L x = SignType.sign r := by
  induction L generalizing x r with
  | zero =>
    obtain ⟨q, rfl, hq⟩ := h.exists_rat
    rw [show r = q by exact_mod_cast hq]
    exact ratSgn_eq q
  | succ L ih =>
    simp only [sgnL]
    by_cases hb : hi (L + 1) x = .rat 0
    · obtain ⟨a, b, ha, hb', hr⟩ := h.exists_parts
      rw [hb'.eq_zero_iff.mp hb, zero_mul, add_zero] at hr
      rw [if_pos hb]
      exact ih (hr ▸ ha)
    · obtain ⟨a, b, p, rfl, hp, ha, hy, hdiff⟩ := h.exists_real_parts hb
      rw [if_neg hb, ih ha, ih hy, ih hdiff, sign_mul b p, sign_pos hp, mul_one]
      exact sign_add_eq a b

end Represents

namespace Denotes

theorem sgn_eq (h : Denotes x r) : sgn x = SignType.sign r := by
  have hrep := h.represents le_rfl
  rw [sgn, hrep.atMost.hasOdd_eq_false, if_neg Bool.false_ne_true, hrep.sgnL_eq]

theorem lt_iff (hx : Denotes x r) (hy : Denotes y t) : lt x y = true ↔ r < t := by
  have hsub : Denotes (Num.sub y x) (t - r : ℝ) := by simpa using hy.sub hx
  rw [lt, decide_eq_true_iff, hsub.sgn_eq, ← sub_pos, ← sign_eq_one_iff]
  cases SignType.sign (t - r) <;> decide

end Denotes

/-! ### The largest entry -/

end Sys2Proof.Num

namespace Sys2Proof.Value

variable {N k k' : ℕ} {m : ℕ → ℝ}

theorem IsBin.unique (h : IsBin N m k) (h' : IsBin N m k') : k = k' := by
  obtain ⟨hk, hmax, hleast⟩ := h
  obtain ⟨hk', hmax', hleast'⟩ := h'
  obtain hlt | heq | hlt := lt_trichotomy k k'
  · exact absurd (hleast' k hlt) (hmax k' hk').not_gt
  · exact heq
  · exact absurd (hleast k' hlt) (hmax' k hk).not_gt

theorem isBin_one (m : ℕ → ℝ) : IsBin 1 m 0 := by
  refine ⟨one_pos, fun j hj => ?_, fun j hj => absurd hj j.not_lt_zero⟩
  rw [Nat.lt_one_iff.mp hj]

/-- One more entry, larger than all before it. -/
theorem IsBin.succ_of_lt (h : IsBin N m k) (hlt : m k < m N) : IsBin (N + 1) m N := by
  have hbelow : ∀ j < N, m j < m N := fun j hj => (h.2.1 j hj).trans_lt hlt
  refine ⟨N.lt_succ_self, fun j hj => ?_, hbelow⟩
  obtain hj | rfl := Nat.lt_succ_iff_lt_or_eq.mp hj
  · exact (hbelow j hj).le
  · exact le_rfl

/-- One more entry, no larger than the largest before it. -/
theorem IsBin.succ_of_le (h : IsBin N m k) (hle : m N ≤ m k) : IsBin (N + 1) m k := by
  obtain ⟨hk, hmax, hleast⟩ := h
  refine ⟨hk.trans N.lt_succ_self, fun j hj => ?_, hleast⟩
  obtain hj | rfl := Nat.lt_succ_iff_lt_or_eq.mp hj
  · exact hmax j hj
  · exact hle

/-- A positive factor moves no largest entry. -/
theorem IsBin.smul {c : ℝ} (hc : 0 < c) (h : IsBin N m k) : IsBin N (fun j => c * m j) k :=
  ⟨h.1, fun j hj => mul_le_mul_of_nonneg_left (h.2.1 j hj) hc.le, fun j hj => mul_lt_mul_of_pos_left (h.2.2 j hj) hc⟩

end Sys2Proof.Value

namespace Sys2Proof.Num

variable {N : ℕ} {f : ℕ → Num} {m : ℕ → ℝ}

theorem isBin_argmaxFrom {i k n : ℕ} (hf : ∀ j < i + n, Denotes (f j) (m j)) (hk : Value.IsBin i m k) :
    Value.IsBin (i + n) m (argmaxFrom k (f k) i ((List.range' i n).map f)) := by
  induction n generalizing i k with
  | zero => exact hk
  | succ n ih =>
    have hlt := (hf k (by have := hk.1; omega)).lt_iff (hf i (by omega))
    rw [← Nat.succ_add_eq_add_succ] at hf ⊢
    rw [List.range'_succ, List.map_cons, argmaxFrom]
    split_ifs with hcmp
    · exact ih hf (hk.succ_of_lt (hlt.mp hcmp))
    · exact ih hf (hk.succ_of_le (not_lt.mp (mt hlt.mpr hcmp)))

theorem isBin_argmax (hN : 0 < N) (hf : ∀ k < N, Denotes (f k) (m k)) :
    Value.IsBin N m (argmax ((List.range N).map f)) := by
  obtain ⟨n, rfl⟩ := Nat.exists_eq_add_of_lt hN
  rw [List.range_eq_range', Nat.zero_add, List.range'_succ, List.map_cons, argmax, Nat.add_comm]
  rw [Nat.zero_add, Nat.add_comm] at hf
  exact isBin_argmaxFrom hf (Value.isBin_one m)

end Sys2Proof.Num
end

section
/-! The Chirp Demodulator's step (41_demod.md R161, R171, R172): it takes the message in `DBOX`, the skipped samples and one
window, and pushes one symbol event. -/

namespace Sys2Proof.Machine

theorem State.demodReady_of_dbox {s : State} {d : Dctl} (hrun : s.regs.run = true) (hd : s.dbox = some d) (he : s.e2 = [])
    (hlen : d.skip + s.wlen ≤ s.e1.length) : s.demodReady = true := by
  simp [State.demodReady, hrun, hd, he, hlen]

theorem State.demodStep_of_dbox {s : State} {d : Dctl} (hd : s.dbox = some d) (withLl : Bool) :
    s.demodStep withLl =
      { s with
        dbox := none
        e1 := s.e1.drop (d.skip + s.wlen)
        e2 := [⟨BitVec.ofNat 12 (demodBin s.par.num s.sf s.os (s.window d) d.ref d.c2.toInt),
          if withLl then demodLl s.par.num s.sf s.os (s.window d) d.ref d.c2.toInt else []⟩] } := by
  simp [State.demodStep, hd]

/-- Settles O21: with R161 met, `SOFT` chooses which of the two operations is enabled, and both take the same step. -/
theorem demodTakesOneWindow : Obligations.DemodTakesOneWindow := by
  intro s d hrun hd he hlen
  have hready := State.demodReady_of_dbox hrun hd he hlen
  refine ⟨fun hsoft => ?_, fun hsoft => ?_⟩
  · have henabled : enabled .demodH s = true := by simp [enabled, canDemodH, hready, hsoft]
    rw [exec_of_enabled henabled, effect, State.demodStep_of_dbox hd]
    rfl
  · have henabled : enabled .demodS s = true := by simp [enabled, canDemodS, hready, hsoft]
    rw [exec_of_enabled henabled, effect, State.demodStep_of_dbox hd]
    rfl

end Sys2Proof.Machine
end

section
/-! The exact demodulator computes the rules of 41_demod.md over the complex numbers: each number on the way, from the reference
to the likelihoods, denotes the complex number of its rule. -/

namespace Sys2Proof.Value

open Sys2Proof.Machine

/-! ### Magnitudes and likelihoods -/

theorem magnitude_nonneg (N os : ℕ) (w : List ℂ) (ref : Ref) (c2 : ℤ) (k : ℕ) : 0 ≤ magnitude N os w ref c2 k :=
  Complex.normSq_nonneg _

/-- `ll[k] = M[k] / T`, all 0 when `T = 0` (R168). -/
noncomputable def likelihood (N : ℕ) (m : ℕ → ℝ) (k : ℕ) : ℝ :=
  if 0 < ∑ j ∈ Finset.range N, m j then m k / ∑ j ∈ Finset.range N, m j else 0

theorem likelihood_smul {c : ℝ} (hc : 0 < c) (N : ℕ) (m : ℕ → ℝ) (k : ℕ) :
    likelihood N (fun j => c * m j) k = likelihood N m k := by
  simp only [likelihood, ← Finset.mul_sum, mul_pos_iff_of_pos_left hc, mul_div_mul_left _ _ hc.ne']

end Sys2Proof.Value

namespace Sys2Proof.Machine

open Sys2Proof.Num

variable {sf os : ℕ} {w : List Sys2Proof.Num} {ref : Ref} {c2 : ℤ}

/-! ### References (R162, R164, R165) -/

theorem denotes_upChirp (sf n : ℕ) : Denotes (upChirp sf n) (Value.upChirp (2 ^ sf) n) := by
  rw [Machine.upChirp]
  convert Denotes.rootInt sf ((n : ℤ) * n - 2 ^ sf * n) using 1
  rw [Value.upChirp, pow_succ]
  congr 1
  push_cast
  field

theorem denotes_dechirp (sf : ℕ) (ref : Ref) (n : ℕ) : Denotes (dechirp sf ref n) (Value.reference (2 ^ sf) ref n) := by
  cases ref with
  | normal => exact (denotes_upChirp sf n).conj
  | up => exact denotes_upChirp sf n

theorem denotes_preRot (sf : ℕ) (c2 : ℤ) (n : ℕ) :
    Denotes (preRot sf c2 n) (Value.turn (-((c2 : ℝ) / 2 * n / (2 ^ sf : ℕ)))) := by
  rw [preRot]
  convert Denotes.rootInt sf (-(c2 * n)) using 1
  rw [pow_succ]
  congr 1
  push_cast
  field

/-! ### The spectrum (R163, R165, R166) -/

/-- The complex window read past its end is the exact window read past its end. -/
theorem getD_map_val (w : List Sys2Proof.Num) (i : ℕ) : (w.map Num.val).getD i 0 = (w.getD i (.rat 0)).val := by
  rw [← List.getD_map (f := Num.val), val_rat, Rat.cast_zero]

theorem denotes_dechirped {n : ℕ} (hw : (w.getD (n * os) (.rat 0)).wf = true) :
    Denotes (dechirped sf os w ref c2 n) (Value.dechirped (2 ^ sf) os (w.map Num.val) ref c2 n) := by
  rw [Value.dechirped, getD_map_val]
  exact ((denotes_val hw).mul (denotes_dechirp sf ref n)).mul (denotes_preRot sf c2 n)

theorem spectrumAt_map_range (sf N : ℕ) (y : ℕ → Sys2Proof.Num) (k : ℕ) :
    spectrumAt sf ((List.range N).map y) k =
      Num.sum ((List.range N).map fun n => Num.mul (y n) (Num.rootInt sf (-(2 * (k * n : ℕ) : ℤ)))) := by
  rw [spectrumAt]
  congr 1
  exact List.ext_getElem (by simp) (by simp)

theorem denotes_sum_range {N : ℕ} {f : ℕ → Sys2Proof.Num} {v : ℕ → ℂ} (h : ∀ n < N, Denotes (f n) (v n)) :
    Denotes (Num.sum ((List.range N).map f)) (∑ n ∈ Finset.range N, v n) := by
  induction N with
  | zero => exact Denotes.zero
  | succ N ih =>
    rw [List.range_succ, List.map_append, Num.sum, List.foldl_append, Finset.sum_range_succ]
    exact (ih fun n hn => h n (hn.trans N.lt_succ_self)).add (h N N.lt_succ_self)

/-- Entry `k` of the spectrum. -/
def magnitudeAt (sf os : ℕ) (w : List Sys2Proof.Num) (ref : Ref) (c2 : ℤ) (k : ℕ) : Sys2Proof.Num :=
  Num.normSq (spectrumAt sf ((List.range (2 ^ sf)).map (dechirped sf os w ref c2)) k)

theorem spectrum_eq : spectrum sf os w ref c2 = (List.range (2 ^ sf)).map (magnitudeAt sf os w ref c2) := rfl

theorem denotes_magnitudeAt (hw : ∀ n < 2 ^ sf, (w.getD (n * os) (.rat 0)).wf = true) (k : ℕ) :
    Denotes (magnitudeAt sf os w ref c2 k) (Value.magnitude (2 ^ sf) os (w.map Num.val) ref c2 k : ℝ) := by
  rw [magnitudeAt, spectrumAt_map_range]
  refine (denotes_sum_range fun n hn => (denotes_dechirped (hw n hn)).mul ?_).normSq
  convert Denotes.rootInt sf (-(2 * (k * n : ℕ))) using 1
  congr 1
  push_cast
  field

/-! ### The decision and the likelihoods (R167, R168) -/

theorem length_likelihoods (l : List Sys2Proof.Num) : (likelihoods l).length = l.length := by
  simp only [likelihoods]
  split <;> exact List.length_map _

theorem denotes_likelihoods {N k : ℕ} {f : ℕ → Sys2Proof.Num} {m : ℕ → ℝ} (hf : ∀ j < N, Denotes (f j) (m j))
    (hm : ∀ j < N, 0 ≤ m j) (hk : k < N) :
    Denotes ((likelihoods ((List.range N).map f)).getD k (.rat 0)) (Value.likelihood N m k : ℝ) := by
  have hsum : Denotes (Num.sum ((List.range N).map f)) (∑ j ∈ Finset.range N, m j : ℝ) := by
    simpa using denotes_sum_range hf
  have hnonneg : 0 ≤ ∑ j ∈ Finset.range N, m j := Finset.sum_nonneg fun j hj => hm j (Finset.mem_range.mp hj)
  have hzero := hsum.eq_zero_iff.trans Complex.ofReal_eq_zero
  simp only [likelihoods, Value.likelihood]
  split_ifs with ht hpos hpos
  · exact absurd (hzero.mp ht) hpos.ne'
  · simpa [hk] using Denotes.zero
  · simpa [hk, div_eq_mul_inv] using (hf k hk).mul hsum.inv
  · exact absurd (hzero.mpr (hnonneg.antisymm (not_lt.mp hpos)).symm) ht

theorem isBin_demodBin (hw : ∀ n < 2 ^ sf, (w.getD (n * os) (.rat 0)).wf = true) :
    Value.IsBin (2 ^ sf) (Value.magnitude (2 ^ sf) os (w.map Num.val) ref c2) (demodBin .exact sf os w ref c2) :=
  isBin_argmax (Nat.two_pow_pos sf) fun k _ => denotes_magnitudeAt hw k

theorem length_demodLl : (demodLl .exact sf os w ref c2).length = 2 ^ sf := by
  rw [demodLl, length_likelihoods, spectrum_eq, List.length_map, List.length_range]

theorem denotes_demodLl (hw : ∀ n < 2 ^ sf, (w.getD (n * os) (.rat 0)).wf = true) {k : ℕ} (hk : k < 2 ^ sf) :
    Denotes ((demodLl .exact sf os w ref c2).getD k (.rat 0))
      (Value.likelihood (2 ^ sf) (Value.magnitude (2 ^ sf) os (w.map Num.val) ref c2) k : ℝ) :=
  denotes_likelihoods (fun j _ => denotes_magnitudeAt hw j) (fun j _ => Value.magnitude_nonneg _ _ _ _ _ j) hk

/-- Settles O22: the bin is the largest of numbers that denote the magnitudes, the likelihoods denote their quotients. -/
theorem demodComputesTheSpectrum : Obligations.DemodComputesTheSpectrum :=
  fun _ _ _ _ _ hw => ⟨isBin_demodBin hw, length_demodLl, fun _ hk => (denotes_demodLl hw hk).2⟩

/-! ### Scaling a window (R169) -/

/-- A scaled window reads the scaled sample, past its end too. -/
theorem getD_map_mul {a : Sys2Proof.Num} (ha : a.wf = true) (w : List Sys2Proof.Num) (i : ℕ) :
    (w.map (Num.mul a)).getD i (.rat 0) = Num.mul a (w.getD i (.rat 0)) := by
  have hzero : Num.mul a (.rat 0) = .rat 0 := ((denotes_val ha).mul Denotes.zero).eq_zero_iff.mpr (mul_zero _)
  rw [← List.getD_map (f := Num.mul a), hzero]

theorem magnitude_map_mul {N : ℕ} {a : Sys2Proof.Num} (ha : a.wf = true)
    (hw : ∀ n < N, (w.getD (n * os) (.rat 0)).wf = true) :
    Value.magnitude N os ((w.map (Num.mul a)).map Num.val) ref c2 =
      fun k => Complex.normSq a.val * Value.magnitude N os (w.map Num.val) ref c2 k := by
  funext k
  rw [Value.magnitude, Value.magnitude, ← Complex.normSq_mul, Finset.mul_sum]
  congr 1
  refine Finset.sum_congr rfl fun n hn => ?_
  have hmul := ((denotes_val ha).mul (denotes_val (hw n (Finset.mem_range.mp hn)))).2
  rw [Value.dechirped, Value.dechirped, getD_map_val, getD_map_val, getD_map_mul ha, hmul]
  ring

/-- Settles O23: all magnitudes grow by one positive factor, which moves no largest entry and leaves every quotient. -/
theorem demodIsScaleInvariant : Obligations.DemodIsScaleInvariant := by
  intro sf os w a ref c2 hw ha hne
  have hpos : 0 < Complex.normSq a.val := Complex.normSq_pos.mpr (mt (denotes_val ha).eq_zero_iff.mpr hne)
  have haw : ∀ n < 2 ^ sf, ((w.map (Num.mul a)).getD (n * os) (.rat 0)).wf = true := fun n hn => by
    rw [getD_map_mul ha]
    exact ((denotes_val ha).mul (denotes_val (hw n hn))).1
  have hbin := isBin_demodBin (ref := ref) (c2 := c2) haw
  have hll := fun k hk => denotes_demodLl (ref := ref) (c2 := c2) haw (k := k) hk
  rw [magnitude_map_mul ha hw] at hbin
  simp only [magnitude_map_mul ha hw, Value.likelihood_smul hpos] at hll
  refine ⟨hbin.unique ((isBin_demodBin hw).smul hpos), ?_⟩
  refine List.ext_getElem (length_demodLl.trans length_demodLl.symm) fun k hk hk' => ?_
  have hkN : k < 2 ^ sf := length_demodLl ▸ hk
  simpa [hk, hk'] using (hll k hkN).unique (denotes_demodLl hw hkN)

end Sys2Proof.Machine
end

section
/-! Chirps through the demodulator (41_demod.md R170, R173, R174): de-chirped, a train of chirps at a whole-bin offset is one
line, all of its magnitude in one bin. -/

namespace Sys2Proof.Value

open Sys2Proof.Machine

variable {N os v : ℕ} {g : ℤ} {m : ℕ → ℝ}

/-! ### One line -/

theorem turn_ne_zero (x : ℝ) : turn x ≠ 0 := Complex.exp_ne_zero _

theorem turn_eq_one_iff {x : ℝ} : turn x = 1 ↔ ∃ j : ℤ, x = j := by
  rw [turn, Complex.exp_eq_one_iff]
  refine exists_congr fun j => ?_
  rw [show (j : ℂ) * (2 * Real.pi * Complex.I) = Complex.I * ((2 * Real.pi * j : ℝ) : ℂ) by push_cast; ring,
    mul_right_inj' Complex.I_ne_zero, Complex.ofReal_inj, mul_right_inj' (by positivity)]

theorem turn_div_eq_one_iff (hN : 0 < N) (d : ℤ) : turn (d / N) = 1 ↔ (N : ℤ) ∣ d := by
  rw [turn_eq_one_iff]
  refine exists_congr fun j => ?_
  rw [div_eq_iff (by positivity), mul_comm]
  exact_mod_cast Iff.rfl

/-- The `N` roots of unity `turn (d n / N)` sum to 0, but for `d` a multiple of `N`. -/
theorem sum_turn (hN : 0 < N) (d : ℤ) :
    ∑ n ∈ Finset.range N, turn (d * n / N) = if (N : ℤ) ∣ d then (N : ℂ) else 0 := by
  have hpow : ∀ n : ℕ, turn (d * n / N) = turn (d / N) ^ n := fun n => by
    rw [← turn_natCast_mul]
    congr 1
    ring
  have hN1 : turn (d / N) ^ N = 1 := by
    rw [← hpow, mul_div_cancel_right₀ _ (by positivity), turn_intCast]
  simp only [hpow]
  split_ifs with hd
  · simp [(turn_div_eq_one_iff hN d).mpr hd]
  · rw [geom_sum_eq (mt (turn_div_eq_one_iff hN d).mp hd), hN1, sub_self, zero_div]

/-- All the magnitude is in the bin `g` modulo `N`. -/
def IsLine (N : ℕ) (m : ℕ → ℝ) (g : ℤ) : Prop := ∃ A > 0, ∀ k < N, m k = if (k : ℤ) = g % N then A else 0

theorem dvd_sub_iff {k : ℕ} (hk : k < N) : (N : ℤ) ∣ g - k ↔ (k : ℤ) = g % N := by
  rw [← Int.modEq_iff_dvd, Int.ModEq, Int.emod_eq_of_lt (by omega) (by omega)]

/-- A tone of frequency `g` bins is a line (R166). -/
theorem isLine_magnitude {w : List ℂ} {ref : Ref} {c2 : ℤ} {a : ℂ} (hN : 0 < N) (ha : a ≠ 0)
    (hy : ∀ n < N, dechirped N os w ref c2 n = a * turn (g * n / N)) : IsLine N (magnitude N os w ref c2) g := by
  have hpos : 0 < Complex.normSq (a * N) := Complex.normSq_pos.mpr (mul_ne_zero ha (Nat.cast_ne_zero.mpr hN.ne'))
  refine ⟨_, hpos, fun k hk => ?_⟩
  have hsum : ∑ n ∈ Finset.range N, dechirped N os w ref c2 n * turn (-((k : ℝ) * n / N)) =
      a * ∑ n ∈ Finset.range N, turn ((g - k : ℤ) * n / N) := by
    rw [Finset.mul_sum]
    refine Finset.sum_congr rfl fun n hn => ?_
    rw [hy n (Finset.mem_range.mp hn), mul_assoc, ← turn_add]
    congr 2
    push_cast
    ring
  simp only [magnitude, hsum, sum_turn hN, dvd_sub_iff hk]
  split <;> simp

theorem IsLine.eq_of_isBin {k : ℕ} (h : IsLine N m g) (hk : IsBin N m k) : (k : ℤ) = g % N := by
  obtain ⟨A, hA, hm⟩ := h
  obtain ⟨hkN, hmax, -⟩ := hk
  have hN : (0 : ℤ) < N := by omega
  have hline : ((g % N).toNat : ℤ) = g % N := Int.toNat_of_nonneg (Int.emod_nonneg _ hN.ne')
  have hlt : (g % N).toNat < N := by have := Int.emod_lt_of_pos g hN; omega
  by_contra hne
  have hle := hmax _ hlt
  rw [hm _ hlt, hm k hkN, if_pos hline, if_neg hne] at hle
  exact hle.not_gt hA

/-- All the likelihood is in the bin of the line (R168). -/
theorem IsLine.likelihood_eq {k : ℕ} (h : IsLine N m v) (hv : v < N) (hk : k < N) :
    likelihood N m k = if k = v then 1 else 0 := by
  obtain ⟨A, hA, hm⟩ := h
  have hmod : (v : ℤ) % N = v := Int.emod_eq_of_lt (by omega) (by omega)
  simp only [hmod, Nat.cast_inj] at hm
  have hsum : ∑ j ∈ Finset.range N, m j = A := by
    rw [Finset.sum_congr rfl fun j hj => hm j (Finset.mem_range.mp hj)]
    simp [hv]
  rw [likelihood, hsum, if_pos hA, hm k hk]
  split_ifs
  · exact div_self hA.ne'
  · exact zero_div A

/-! ### Chirps at whole chips (R173) -/

/-- The phase of the up-chirp of value `v`, in turns, at chip `t`. -/
noncomputable def chirpPhase (N v : ℕ) (t : ℝ) : ℝ := t ^ 2 / (2 * N) + ((v : ℝ) / N - 1 / 2) * t

/-- The sample of a train of chirps with the window `dly` chips before a symbol boundary (R174). -/
def trainIndex (N os : ℕ) (dly : ℤ) (m : ℕ) : ℕ := (((m : ℤ) - dly * os) % (N * os : ℕ)).toNat

theorem chirp_at_chip (hos : 0 < os) (j : ℕ) : chirp N os v (j * os) = turn (chirpPhase N v j) := by
  have ht : ((j * os : ℕ) : ℝ) / os = j := by
    rw [Nat.cast_mul, mul_div_cancel_right₀ _ (by positivity)]
  simp only [chirp, ht]
  split
  · rfl
  · rw [← turn_add_intCast _ j, chirpPhase]
    congr 1
    push_cast
    ring

/-- A symbol on, the phase of a chirp has grown by whole turns. -/
theorem turn_chirpPhase_sub (hN : 0 < N) (t q : ℤ) : turn (chirpPhase N v (t - N * q)) = turn (chirpPhase N v t) := by
  obtain ⟨r, hr⟩ := Int.even_mul_succ_self q
  have hr' : (q : ℝ) * (q + 1) = r + r := by exact_mod_cast hr
  rw [← turn_add_intCast (chirpPhase N v t) (N * r - t * q - v * q)]
  congr 1
  simp only [chirpPhase]
  push_cast
  field_simp
  linear_combination (N : ℝ) ^ 2 * hr'

/-- A train of equal chirps is one quadratic phase at whole chips. -/
theorem chirp_trainIndex (hN : 0 < N) (hos : 0 < os) (dly : ℤ) (n : ℕ) :
    chirp N os v (trainIndex N os dly (n * os)) = turn (chirpPhase N v (n - dly)) := by
  have hchip : (((n - dly : ℤ) % N).toNat : ℤ) = (n - dly : ℤ) % N :=
    Int.toNat_of_nonneg (Int.emod_nonneg _ (by omega))
  have hindex : trainIndex N os dly (n * os) = ((n - dly : ℤ) % N).toNat * os := by
    have hscale : ((n * os : ℕ) : ℤ) - dly * os = os * (n - dly : ℤ) := by
      push_cast
      ring
    rw [trainIndex, hscale, Nat.mul_comm N, Nat.cast_mul, Int.mul_emod_mul_of_pos _ _ (by omega), ← hchip]
    exact_mod_cast Nat.mul_comm _ _
  rw [hindex, chirp_at_chip hos, ← Int.cast_natCast (Int.toNat _), hchip, Int.emod_def]
  exact_mod_cast turn_chirpPhase_sub hN (n - dly) ((n - dly) / N)

/-! ### Trains of chirps, de-chirped (R164, R165, R174) -/

/-- A train of up-chirps of value `v` with the offsets of R174 turns into the tone of `v + f - dly - h` bins. -/
theorem isLine_of_upChirps {w : List ℂ} {f dly h : ℤ} {a : ℂ} (hN : 0 < N) (hos : 0 < os) (ha : a ≠ 0)
    (hw : ∀ n < N, w.getD (n * os) 0 =
      a * (chirp N os v (trainIndex N os dly (n * os)) * turn (f * (n * os : ℕ) / (N * os : ℕ)))) :
    IsLine N (magnitude N os w .normal (2 * h)) (v + f - dly - h) := by
  refine isLine_magnitude hN (mul_ne_zero ha (turn_ne_zero (chirpPhase N v (-dly)))) fun n hn => ?_
  rw [dechirped, hw n hn, chirp_trainIndex hN hos, reference, upChirp, conj_turn]
  simp only [mul_assoc, ← turn_add]
  congr 2
  simp only [chirpPhase]
  push_cast
  field_simp
  ring

/-- A train of down-chirps under `REF_UP` turns into the tone of `f + dly - h` bins. -/
theorem isLine_of_downChirps {w : List ℂ} {f dly h : ℤ} {a : ℂ} (hN : 0 < N) (hos : 0 < os) (ha : a ≠ 0)
    (hw : ∀ n < N, w.getD (n * os) 0 =
      a * ((starRingEnd ℂ) (chirp N os 0 (trainIndex N os dly (n * os))) * turn (f * (n * os : ℕ) / (N * os : ℕ)))) :
    IsLine N (magnitude N os w .up (2 * h)) (f + dly - h) := by
  refine isLine_magnitude hN (mul_ne_zero ha (turn_ne_zero (-chirpPhase N 0 (-dly)))) fun n hn => ?_
  rw [dechirped, hw n hn, chirp_trainIndex hN hos, reference, upChirp, conj_turn]
  simp only [mul_assoc, ← turn_add]
  congr 2
  simp only [chirpPhase]
  push_cast
  field_simp
  ring

/-- No delay and no frequency offset: the window of an aligned symbol is a train of one symbol. -/
theorem trainIndex_zero {n : ℕ} (hos : 0 < os) (hn : n < N) : trainIndex N os 0 (n * os) = n * os := by
  have hlt : n * os < N * os := Nat.mul_lt_mul_of_pos_right hn hos
  rw [trainIndex, zero_mul, sub_zero, Int.emod_eq_of_lt (by omega) (by omega), Int.toNat_natCast]

end Sys2Proof.Value

namespace Sys2Proof.Machine

open Sys2Proof.Num

/-- Settles O25: de-chirped, either train is one line, and the bin of a line is its frequency. -/
theorem demodReadsWholeOffsets : Obligations.DemodReadsWholeOffsets := by
  intro sf os v f dly h a w hos _ ha hwf
  have hN := Nat.two_pow_pos sf
  refine ⟨fun hw => ?_, fun hw => ?_⟩
  · refine (Value.isLine_of_upChirps hN hos ha fun n hn => ?_).eq_of_isBin (isBin_demodBin hwf)
    rw [getD_map_val]
    exact hw n hn
  · refine (Value.isLine_of_downChirps hN hos ha fun n hn => ?_).eq_of_isBin (isBin_demodBin hwf)
    rw [getD_map_val]
    exact hw n hn

/-- Settles O24: an aligned symbol is a train with no offset, so a line in its own bin. -/
theorem demodReadsAnAlignedSymbol : Obligations.DemodReadsAnAlignedSymbol := by
  intro sf os v a w hos hv ha hwf
  have hN := Nat.two_pow_pos sf
  refine ⟨fun hw => ?_, fun hw => ?_⟩
  · have hline : Value.IsLine (2 ^ sf) (Value.magnitude (2 ^ sf) os (w.map Num.val) .normal 0) v := by
      simpa using Value.isLine_of_upChirps (f := 0) (dly := 0) (h := 0) hN hos ha fun n hn => by
        simp only [getD_map_val, hw n hn, Value.trainIndex_zero hos hn]
        simp
    refine ⟨?_, fun k hk => ?_⟩
    · have hbin := hline.eq_of_isBin (isBin_demodBin hwf)
      rw [Int.emod_eq_of_lt (by omega) (by exact_mod_cast hv)] at hbin
      exact_mod_cast hbin
    · refine (denotes_demodLl hwf hk).unique ?_
      rw [hline.likelihood_eq hv hk]
      split_ifs
      · simpa using Denotes.rat 1
      · simpa using Denotes.rat 0
  · have hline : Value.IsLine (2 ^ sf) (Value.magnitude (2 ^ sf) os (w.map Num.val) .up 0) 0 := by
      simpa using Value.isLine_of_downChirps (f := 0) (dly := 0) (h := 0) hN hos ha fun n hn => by
        simp only [getD_map_val, hw n hn, Value.trainIndex_zero hos hn]
        simp
    have hbin := hline.eq_of_isBin (isBin_demodBin hwf)
    rw [Int.zero_emod] at hbin
    exact_mod_cast hbin

end Sys2Proof.Machine
end

section
/-! The counts of symbols (42_sync.md R200 to R202). Both are a number of blocks, each of `4 + CR` symbols. -/

namespace Sys2Proof.Machine

/-- The blocks of a frame after its header block (42_sync.md R200). -/
def explicitBlocks (sf len : Nat) (crc : Bool) : Nat :=
  let need : Int := 2 * (len + 2 * bitNat crc : Nat) - ((sf : Int) - 5)
  if need ≤ 0 then 0 else ceilDiv need.toNat sf

theorem explicitSymbols_eq (sf len cr : Nat) (crc : Bool) :
    explicitSymbols sf len cr crc = explicitBlocks sf len crc * (4 + cr) := rfl

theorem bitNat_le_one (b : Bool) : bitNat b ≤ 1 := by cases b <;> decide

theorem ceilDiv_le {a b q : Nat} (hb : 0 < b) (h : a ≤ b * q) : ceilDiv a b ≤ q :=
  Nat.lt_succ_iff.mp ((Nat.div_lt_iff_lt_mul hb).mpr (by rw [Nat.succ_mul, Nat.mul_comm q]; omega))

theorem implicitBlocks_le {sf len : Nat} (crc : Bool) (hsf : 7 ≤ sf) (hlen : len ≤ 255) :
    ceilDiv (2 * (len + 2 * bitNat crc)) sf ≤ 74 :=
  ceilDiv_le (by omega) (by have := bitNat_le_one crc; omega)

theorem explicitBlocks_le {sf len : Nat} (crc : Bool) (hsf : 7 ≤ sf) (hlen : len ≤ 255) :
    explicitBlocks sf len crc ≤ 74 := by
  unfold explicitBlocks
  dsimp only
  split
  · exact Nat.zero_le 74
  · exact ceilDiv_le (by omega) (by have := bitNat_le_one crc; omega)

/-- 74 blocks at the lowest coding rate (42_sync.md R202). -/
theorem symbols_le {blocks cr : Nat} (hblocks : blocks ≤ 74) (hcr : CrLegal cr) : blocks * (4 + cr) ≤ 592 :=
  Nat.mul_le_mul hblocks (Nat.add_le_add_left hcr.2 4)

/-- Settles O32: either count is at most 74 blocks, each of at most 8 symbols. -/
theorem symbolCountsAreBounded : Obligations.SymbolCountsAreBounded := by
  refine ⟨fun sf len cr crc hsf _ hlen hcr => ⟨?_, ?_, ?_, ?_⟩, by decide, by decide, by decide, fun cr => ?_⟩
  · exact symbols_le (explicitBlocks_le crc hsf hlen) hcr
  · exact symbols_le (implicitBlocks_le crc hsf hlen) hcr
  · exact Nat.dvd_mul_left _ _
  · exact Nat.dvd_mul_left _ _
  · have hnone : explicitBlocks 12 1 true = 0 := by decide
    rw [explicitSymbols_eq, hnone, Nat.zero_mul]

end Sys2Proof.Machine
end

section
/-! The symbol steps of the Frame Synchronizer (42_sync.md R182 to R198, R205): an event that waits is taken by the step of the
synchronizer's state, whose outcomes are one equation each. -/

namespace Sys2Proof.Machine

open Sys2Proof.Safety

variable {s : State} {e : SymEvt} {rest : List SymEvt}

/-- Settles O26, field by field. -/
theorem resetSearchClears : Obligations.ResetSearchClears :=
  fun r => ⟨r.resetSearch_state, r.resetSearch_runLen, r.resetSearch_prevV, r.resetSearch_driftSum, r.resetSearch_syncIdx,
    r.resetSearch_sfdIdx, r.resetSearch_symIdx, r.resetSearch_symRem, r.resetSearch_hdrWait,
    congrArg FrameParams.valid r.resetSearch_fp, r.resetSearch_kLock, r.resetSearch_cfo2⟩

theorem State.near_iff (s : State) (a b : Bin) : s.near a b = true ↔ cdist s.bins a.toNat b.toNat ≤ s.binTol :=
  decide_eq_true_iff

/-! ### Taking the event (R182) -/

theorem symReady_of_symWaiting {st : SyncState} (h : SymWaiting s st e rest) : s.symReady st = true := by
  obtain ⟨hrun, hst, hwait, hdbox, he2⟩ := h
  exact (s.symReady_iff st).mpr ⟨hrun, hst, hwait, hdbox, by simp [he2]⟩

/-- A symbol step whose event waits pops it and takes its part on it. -/
theorem ifEnabled_symStep {st : SyncState} (h : SymWaiting s st e rest) (f : State → SymEvt → State) :
    ifEnabled (s.symReady st) s (s.symStep f) = .next (f { s with e2 := rest } e) := by
  have hready := symReady_of_symWaiting h
  obtain ⟨-, -, -, -, he2⟩ := h
  rw [hready, ifEnabled_true, State.symStep_cons he2]

theorem exec_syncSearch (h : SymWaiting s .searching e rest) :
    exec .syncSearch s = .next (State.searchStep { s with e2 := rest } e.bin) :=
  ifEnabled_symStep h _

theorem exec_syncLocked (h : SymWaiting s .preambleLocked e rest) :
    exec .syncLocked s = .next (State.lockedStep { s with e2 := rest } e.bin) :=
  ifEnabled_symStep h _

theorem exec_syncSwchk (h : SymWaiting s .syncWordCheck e rest) :
    exec .syncSwchk s = .next (State.syncCheck { s with e2 := rest } e.bin) :=
  ifEnabled_symStep h _

theorem exec_syncSfd (h : SymWaiting s .sfdAlign e rest) :
    exec .syncSfd s = .next (State.sfdStep { s with e2 := rest } e.bin) :=
  ifEnabled_symStep h _

/-- `SYNC.FRAME` alone asks for room in `E3` (R197). -/
theorem exec_syncFrame (h : SymWaiting s .inFrame e rest) (hroom : s.e3.length + 1 ≤ s.par.qDepth) :
    exec .syncFrame s = .next (State.frameStep { s with e2 := rest } e) := by
  have hready : canSyncFrame s = s.symReady .inFrame := by
    rw [canSyncFrame, (s.room_iff s.e3 1).mpr hroom, Bool.and_true]
  rw [exec_eq_ifEnabled, enabled, hready]
  exact ifEnabled_symStep h _

/-! ### Searching (R184 to R187) -/

/-- The symbol `k` is near the one before it, and so extends the run (R185). -/
abbrev State.extendsRun (s : State) (k : Bin) : Prop :=
  s.sync.prevV = true ∧ cdist s.bins k.toNat s.sync.prev.toNat ≤ s.binTol

/-- A symbol extends the run or starts a new one (R185). -/
theorem State.searchRun_eq (s : State) (k : Bin) :
    s.searchRun k =
      { s.sync with
        runLen := if s.extendsRun k then s.sync.runLen + 1 else 1
        driftSum :=
          if s.extendsRun k then
            s.sync.driftSum + BitVec.ofInt 20 (csigned s.bins ((k.toNat : Int) - s.sync.prev.toNat))
          else 0
        prev := k
        prevV := true } := by
  simp only [State.searchRun, Bool.and_eq_true, State.near_iff]
  split <;> rfl

theorem State.searchStep_of_minRun_le {k : Bin} (h : s.minRun.toNat ≤ (s.searchRun k).runLen.toNat) :
    s.searchStep k =
      { s with
        sync := { s.searchRun k with state := .preambleLocked, kLock := k }
        dbox := some ⟨.normal, 0, s.coarseSkip k⟩ } :=
  if_pos h

theorem State.searchStep_of_lt_minRun {k : Bin} (h : (s.searchRun k).runLen.toNat < s.minRun.toNat) :
    s.searchStep k = { s with sync := s.searchRun k, dbox := some .default } :=
  if_neg (Nat.not_le.mpr h)

/-- Settles O27: the run is read off `searchRun_eq`, and its length decides between the two outcomes. -/
theorem syncSearchExtendsOrLocks : Obligations.SyncSearchExtendsOrLocks := by
  intro s e rest hwaiting
  have hrun := s.searchRun_eq e.bin
  refine ⟨fun hlock => ?_, fun hmore => ?_⟩
  · have hlen : s.minRun.toNat ≤ (s.searchRun e.bin).runLen.toNat := by rw [hrun]; exact hlock
    rw [exec_syncSearch hwaiting, State.searchStep_of_minRun_le (s := { s with e2 := rest }) hlen,
      State.searchRun_popE2, hrun]
    rfl
  · have hlen : (s.searchRun e.bin).runLen.toNat < s.minRun.toNat := by rw [hrun]; exact hmore
    rw [exec_syncSearch hwaiting, State.searchStep_of_lt_minRun (s := { s with e2 := rest }) hlen,
      State.searchRun_popE2, hrun]
    rfl

/-! ### The sync word (R188 to R191) -/

theorem State.syncCheck_of_last {k : Bin} (hnear : s.near k (s.syncBin s.sync.syncIdx) = true)
    (hlast : s.sync.syncIdx + 1 = s.syncN) :
    s.syncCheck k =
      { s with
        sync := { s.sync with syncIdx := s.sync.syncIdx + 1, state := .sfdAlign, sfdIdx := 0 }
        dbox := some ⟨.up, 0, 0⟩ } := by
  rw [State.syncCheck, if_pos hnear, if_pos hlast]

theorem State.syncCheck_of_more {k : Bin} (hnear : s.near k (s.syncBin s.sync.syncIdx) = true)
    (hmore : s.sync.syncIdx + 1 ≠ s.syncN) :
    s.syncCheck k =
      { s with
        sync := { s.sync with syncIdx := s.sync.syncIdx + 1, state := .syncWordCheck }
        dbox := some .default } := by
  rw [State.syncCheck, if_pos hnear, if_neg hmore]

theorem State.syncCheck_of_miss {k : Bin} (hfar : ¬s.near k (s.syncBin s.sync.syncIdx) = true) :
    s.syncCheck k = { s with sync := s.sync.resetSearch, dbox := some .default } := by
  rw [State.syncCheck, if_neg hfar, State.raise_syncMiss]

/-- More preamble is skipped, after lock only; any other symbol is checked against the sync word (R188, R189). -/
theorem exec_syncWord {i : Instr}
    (h : (i = .syncLocked ∧ SymWaiting s .preambleLocked e rest) ∨
      (i = .syncSwchk ∧ SymWaiting s .syncWordCheck e rest)) :
    exec i s =
      .next (if i = .syncLocked ∧ s.near e.bin 0 = true then { s with e2 := rest, dbox := some .default }
        else State.syncCheck { s with e2 := rest } e.bin) := by
  obtain ⟨rfl, hwaiting⟩ | ⟨rfl, hwaiting⟩ := h
  · rw [exec_syncLocked hwaiting, State.lockedStep, State.near_popE2]
    simp only [true_and]
  · rw [exec_syncSwchk hwaiting, if_neg (by simp)]

/-- Settles O28: either operation checks the sync word, once `SYNC.LOCKED` has found no more preamble. -/
theorem syncWordIsCheckedBinByBin : Obligations.SyncWordIsCheckedBinByBin := by
  intro s e rest i hwaiting expected preamble near
  have hpreamble : i = .syncLocked ∧ s.near e.bin 0 = true ↔ preamble := and_congr_right fun _ => s.near_iff e.bin 0
  have hnear : s.near e.bin (s.syncBin s.sync.syncIdx) = true ↔ near := s.near_iff e.bin _
  rw [exec_syncWord hwaiting]
  refine ⟨fun hp => ?_, fun hp hn hlast => ?_, fun hp hn hmore => ?_, fun hp hn => ?_⟩
  · rw [if_pos (hpreamble.mpr hp)]
    rfl
  · rw [if_neg (hpreamble.not.mpr hp), State.syncCheck_of_last (s := { s with e2 := rest }) (hnear.mpr hn) hlast]
  · rw [if_neg (hpreamble.not.mpr hp), State.syncCheck_of_more (s := { s with e2 := rest }) (hnear.mpr hn) hmore]
    rfl
  · rw [if_neg (hpreamble.not.mpr hp), State.syncCheck_of_miss (s := { s with e2 := rest }) (hnear.not.mpr hn)]
    rfl

/-! ### The SFD (R192 to R196) -/

theorem State.sfdStep_of_first {k : Bin} (hfirst : s.sync.sfdIdx = 0) :
    s.sfdStep k = { s with sync := { s.sync with kdn := k, sfdIdx := 1 }, dbox := some ⟨.up, 0, 0⟩ } :=
  if_pos hfirst

theorem State.sfdStep_of_agree {k : Bin} (hsecond : s.sync.sfdIdx = 1) (hnear : s.near k s.sync.kdn = true) :
    s.sfdStep k =
      { s with
        sync := { s.enterFrame with cfo2 := BitVec.ofInt 12 (csigned s.bins k.toNat) }
        dbox := some ⟨.normal, BitVec.ofInt 12 (csigned s.bins k.toNat), s.fineSkip (csigned s.bins k.toNat)⟩ } := by
  rw [State.sfdStep, if_neg (by simp [hsecond]), if_pos hnear]

theorem State.sfdStep_of_miss {k : Bin} (hsecond : s.sync.sfdIdx = 1) (hfar : ¬s.near k s.sync.kdn = true) :
    s.sfdStep k = { s with sync := s.sync.resetSearch, dbox := some .default } := by
  rw [State.sfdStep, if_neg (by simp [hsecond]), if_neg hfar, State.raise_syncMiss]

/-- In implicit mode the frame is entered with the configured parameters (R196). -/
theorem State.enterFrame_of_impl (himpl : s.impl = true) :
    s.enterFrame =
      { s.sync with
        state := .inFrame, symIdx := 0, hdrWait := false, fp := ⟨true, s.modeCr, s.paylen, true, s.crcEn⟩
        symRem := BitVec.ofNat 10 (implicitSymbols s.sf s.paylen.toNat s.modeCr.toNat s.crcEn) } :=
  if_pos himpl

/-- In explicit mode it is entered with the header-detection defaults (R196). -/
theorem State.enterFrame_of_expl (hexpl : s.impl = false) :
    s.enterFrame =
      { s.sync with state := .inFrame, symIdx := 0, hdrWait := false, fp := ⟨true, 4, 0, false, false⟩, symRem := 0 } :=
  if_neg (ne_true_of_eq_false hexpl)

/-- Settles O29: the outcomes of the window, and of frame entry in either mode. -/
theorem sfdWindowsEnterTheFrame : Obligations.SfdWindowsEnterTheFrame := by
  intro s e rest hwaiting near ks skip
  have hnear : s.near e.bin s.sync.kdn = true ↔ near := s.near_iff e.bin _
  rw [exec_syncSfd hwaiting]
  refine ⟨fun hfirst => ?_, fun hsecond hn himpl => ?_, fun hsecond hn hexpl => ?_, fun hsecond hn => ?_⟩
  · rw [State.sfdStep_of_first (s := { s with e2 := rest }) hfirst]
  · rw [State.sfdStep_of_agree (s := { s with e2 := rest }) hsecond (hnear.mpr hn), State.enterFrame_popE2,
      State.enterFrame_of_impl himpl]
    rfl
  · rw [State.sfdStep_of_agree (s := { s with e2 := rest }) hsecond (hnear.mpr hn), State.enterFrame_popE2,
      State.enterFrame_of_expl hexpl]
    rfl
  · rw [State.sfdStep_of_miss (s := { s with e2 := rest }) hsecond (hnear.not.mpr hn)]
    rfl

/-! ### A frame (R197, R198, R205) -/

theorem State.hdrBlk_iff (s : State) : s.hdrBlk = true ↔ s.impl = false ∧ s.sync.symIdx.toNat < 8 := by
  simp [State.hdrBlk]

/-- `sym_idx` after one more symbol: it saturates at 8 (R197). -/
def State.nextSymIdx (s : State) : BitVec 4 :=
  if s.sync.symIdx.toNat < 8 then s.sync.symIdx + 1 else s.sync.symIdx

theorem State.frameRegs_of_hdr (hhdr : s.hdrBlk = true) (hwait : s.sync.hdrWait = false) :
    s.frameRegs = { s.sync with symIdx := s.nextSymIdx, hdrWait := decide (s.nextSymIdx = 8) } := by
  rw [State.frameRegs, if_pos hhdr, hwait, Bool.false_or]
  rfl

theorem State.frameRegs_of_pay (hpay : s.hdrBlk = false) :
    s.frameRegs = { s.sync with symIdx := s.nextSymIdx, symRem := s.sync.symRem - 1 } :=
  if_neg (ne_true_of_eq_false hpay)

theorem State.frameItem_of_hdr (hhdr : s.hdrBlk = true) :
    s.frameItem e = ⟨e.bin, e.ll, decide (s.sync.symIdx = 0), true, 4⟩ := by
  rw [State.frameItem, if_pos hhdr, hhdr]

theorem State.frameItem_of_pay (hpay : s.hdrBlk = false) :
    s.frameItem e = ⟨e.bin, e.ll, decide (s.sync.symIdx = 0), false, s.sync.fp.cr⟩ := by
  rw [State.frameItem, if_neg (ne_true_of_eq_false hpay), hpay]

/-- Only the last counted symbol completes the frame (R205). -/
theorem State.frameStep_of_more (hmore : s.hdrBlk = true ∨ s.frameRegs.symRem ≠ 0) :
    s.frameStep e =
      { s with e3 := s.e3 ++ [s.frameItem e], sync := s.frameRegs, dbox := some s.frameRegs.dctlFrame } :=
  if_neg (by simpa [imp_iff_not_or] using hmore)

theorem State.frameStep_of_last (hpay : s.hdrBlk = false) (hlast : s.frameRegs.symRem = 0) :
    s.frameStep e =
      { s with e3 := s.e3 ++ [s.frameItem e], sync := s.frameRegs.resetSearch, dbox := some .default } :=
  if_pos (by simp [hpay, hlast])

/-- Settles O30: a symbol belongs to the header block or is counted by `sym_rem`, which the last one brings to 0. -/
theorem syncFrameForwardsOneSymbol : Obligations.SyncFrameForwardsOneSymbol := by
  intro s e rest hwaiting hroom hdr sof idx
  have hhdr : s.hdrBlk = true ↔ hdr := s.hdrBlk_iff
  have hlast : s.sync.symRem - 1 = 0 ↔ s.sync.symRem = 1 := sub_eq_zero
  rw [exec_syncFrame hwaiting hroom]
  obtain ⟨-, -, hwait, -, -⟩ := hwaiting
  refine ⟨fun hh => ?_, fun hh hmore => ?_, fun hh hone => ?_⟩
  · have hblk := hhdr.mpr hh
    rw [State.frameStep_of_more (s := { s with e2 := rest }) (.inl hblk), State.frameItem_popE2, State.frameRegs_popE2,
      State.frameItem_of_hdr hblk, State.frameRegs_of_hdr hblk hwait]
    rfl
  · have hpay := eq_false_of_ne_true (hhdr.not.mpr hh)
    have hrem : s.frameRegs.symRem ≠ 0 := by rw [State.frameRegs_of_pay hpay]; exact hlast.not.mpr hmore
    rw [State.frameStep_of_more (s := { s with e2 := rest }) (.inr hrem), State.frameItem_popE2, State.frameRegs_popE2,
      State.frameItem_of_pay hpay, State.frameRegs_of_pay hpay]
    rfl
  · have hpay := eq_false_of_ne_true (hhdr.not.mpr hh)
    have hrem : s.frameRegs.symRem = 0 := by rw [State.frameRegs_of_pay hpay]; exact hlast.mpr hone
    rw [State.frameStep_of_last (s := { s with e2 := rest }) hpay hrem, State.frameItem_popE2, State.frameRegs_popE2,
      State.frameItem_of_pay hpay, State.frameRegs_of_pay hpay]
    rfl

end Sys2Proof.Machine
end

section
/-! The feedback step of the Frame Synchronizer (42_sync.md R203, R204): the message of the Header Decoder ends the hold. -/

namespace Sys2Proof.Machine

variable {s : State}

theorem exec_syncFb {m : MboxMsg} (hrun : s.regs.run = true) (hst : s.sync.state = .inFrame) (hwait : s.sync.hdrWait = true)
    (hm : s.mbox = some m) : exec .syncFb s = .next (s.fbStep m) := by
  have henabled : enabled .syncFb s = true := by simp [enabled, canSyncFb, hrun, hst, hwait, hm]
  rw [exec_of_enabled henabled, effect, hm, Option.elim_some]

/-- `sym_rem` holds any count below 1024, so it is 0 only where no symbol is left (10_state.md R31). -/
theorem ofNat_symRem_eq_zero_iff {n : Nat} (hn : n < 1024) : BitVec.ofNat 10 n = 0 ↔ n = 0 := by
  bv_omega

theorem State.fbStep_params_of_ne_zero {len : Byte} {cr : BitVec 3} {crc : Bool}
    (hmore : BitVec.ofNat 10 (explicitSymbols s.sf len.toNat cr.toNat crc) ≠ 0) :
    s.fbStep (.params len cr crc) =
      { s with
        mbox := none
        sync := { s.sync with
          hdrWait := false
          fp := ⟨true, cr, len, true, crc⟩
          symRem := BitVec.ofNat 10 (explicitSymbols s.sf len.toNat cr.toNat crc) } } := by
  simp only [State.fbStep, if_neg hmore]

theorem State.fbStep_params_of_eq_zero {len : Byte} {cr : BitVec 3} {crc : Bool}
    (hnone : BitVec.ofNat 10 (explicitSymbols s.sf len.toNat cr.toNat crc) = 0) :
    s.fbStep (.params len cr crc) =
      { s with mbox := none, sync := { s.sync.resetSearch with fp := ⟨false, cr, len, true, crc⟩ } } := by
  simp only [State.fbStep, if_pos hnone]
  rfl

theorem State.fbStep_abort (s : State) (cause : BitVec 4) :
    s.fbStep (.abort cause) =
      { s with
        mbox := none
        regs := { s.regs with evt := setEvt s.regs.evt cause.toNat, dropCnt := s.regs.dropCnt + 1 }
        sync := s.sync.resetSearch } := rfl

/-- Settles O31: one outcome per message, and for `PARAMS` one per whether a symbol is left. -/
theorem feedbackGivesParametersOrAborts : Obligations.FeedbackGivesParametersOrAborts := by
  intro s hrun hst hwait
  refine ⟨fun len cr crc hm => ⟨fun hpos hlt => ?_, fun hzero => ?_⟩, fun cause hm => ?_⟩
  · have hmore := (ofNat_symRem_eq_zero_iff hlt).not.mpr hpos.ne'
    rw [exec_syncFb hrun hst hwait hm, State.fbStep_params_of_ne_zero hmore]
  · have hnone := congrArg (BitVec.ofNat 10) hzero
    rw [exec_syncFb hrun hst hwait hm, State.fbStep_params_of_eq_zero hnone]
  · rw [exec_syncFb hrun hst hwait hm, State.fbStep_abort]
    rfl

end Sys2Proof.Machine
end

section
/-! The Gray map (43_gray.md R221 to R223) is linear over xor: so the inverse's shifts cancel in pairs, and the Gray code of two
adjacent bins differs by the Gray code of a run of ones. -/

namespace Sys2Proof.Machine

/-! ### The map and the transmitter's inverse (R223) -/

theorem gray_xor (x y : Bin) : gray (x ^^^ y) = gray x ^^^ gray y := by
  simp only [gray, BitVec.ushiftRight_xor_distrib]
  ac_rfl

/-- Bit `b` of the Gray code compares bits `b` and `b + 1` of the bin. -/
theorem getLsbD_gray (x : Bin) (b : Nat) : (gray x).getLsbD b = (x.getLsbD b ^^ x.getLsbD (b + 1)) := by
  rw [gray, BitVec.getLsbD_xor, BitVec.getLsbD_ushiftRight, Nat.add_comm]

/-- The xor of the first `n` right shifts; the inverse map takes all 12. -/
def xorShifts (n : Nat) (g : BitVec 12) : Bin := (List.range n).foldl (fun s i => s ^^^ (g >>> i)) 0

theorem grayInverse_eq_xorShifts (g : BitVec 12) : grayInverse g = xorShifts 12 g := rfl

theorem xorShifts_succ (n : Nat) (g : BitVec 12) : xorShifts (n + 1) g = xorShifts n g ^^^ (g >>> n) := by
  simp [xorShifts, List.range_succ]

theorem gray_ushiftRight (x : Bin) (n : Nat) : gray (x >>> n) = (x >>> n) ^^^ (x >>> (n + 1)) := by
  rw [gray, BitVec.shiftRight_add]

theorem ushiftRight_gray (x : Bin) (n : Nat) : gray x >>> n = (x >>> n) ^^^ (x >>> (n + 1)) := by
  rw [gray, BitVec.ushiftRight_xor_distrib, ← BitVec.shiftRight_add, Nat.add_comm]

/-- Each shift cancels against the next one's. -/
theorem xor_telescope (x a b : BitVec 12) : x ^^^ a ^^^ (a ^^^ b) = x ^^^ b := by
  rw [BitVec.xor_assoc, ← BitVec.xor_assoc a, BitVec.xor_self, BitVec.zero_xor]

theorem gray_xorShifts (n : Nat) (x : Bin) : gray (xorShifts n x) = x ^^^ (x >>> n) := by
  induction n with
  | zero => simp [xorShifts, gray]
  | succ n ih => rw [xorShifts_succ, gray_xor, ih, gray_ushiftRight, xor_telescope]

theorem xorShifts_gray (n : Nat) (x : Bin) : xorShifts n (gray x) = x ^^^ (x >>> n) := by
  induction n with
  | zero => simp [xorShifts]
  | succ n ih => rw [xorShifts_succ, ih, ushiftRight_gray, xor_telescope]

theorem xor_ushiftRight_twelve (x : Bin) : x ^^^ (x >>> 12) = x := by
  rw [BitVec.ushiftRight_eq_zero le_rfl, BitVec.xor_zero]

theorem gray_grayInverse (x : Bin) : gray (grayInverse x) = x := by
  rw [grayInverse_eq_xorShifts, gray_xorShifts, xor_ushiftRight_twelve]

theorem grayInverse_gray (x : Bin) : grayInverse (gray x) = x := by
  rw [grayInverse_eq_xorShifts, xorShifts_gray, xor_ushiftRight_twelve]

theorem toNat_ushiftRight_lt {x : Bin} {sf : Nat} (h : x.toNat < 2 ^ sf) (n : Nat) : (x >>> n).toNat < 2 ^ sf := by
  rw [BitVec.toNat_ushiftRight]
  exact (Nat.shiftRight_le _ _).trans_lt h

theorem toNat_gray_lt {x : Bin} {sf : Nat} (h : x.toNat < 2 ^ sf) : (gray x).toNat < 2 ^ sf := by
  rw [gray, BitVec.toNat_xor]
  exact Nat.xor_lt_two_pow h (toNat_ushiftRight_lt h 1)

theorem toNat_xorShifts_lt {x : Bin} {sf : Nat} (h : x.toNat < 2 ^ sf) (n : Nat) : (xorShifts n x).toNat < 2 ^ sf := by
  induction n with
  | zero => exact Nat.two_pow_pos sf
  | succ n ih =>
    rw [xorShifts_succ, BitVec.toNat_xor]
    exact Nat.xor_lt_two_pow ih (toNat_ushiftRight_lt h n)

/-- Settles O34: the shifts of the inverse telescope under the map, on either side, and neither widens a value. -/
theorem grayInverseUndoesGray : Obligations.GrayInverseUndoesGray :=
  fun _ _ _ x hx => ⟨gray_grayInverse x, grayInverse_gray x, toNat_gray_lt hx, toNat_xorShifts_lt hx 12⟩

/-! ### Adjacent bins (R222) -/

theorem odd_xor_even (u w : Nat) : (2 * u + 1) ^^^ (2 * w) = 2 * (u ^^^ w) + 1 := by
  simpa using Nat.xor_bit true u false w

/-- A step to the next of `2 ^ (n + 1)` bins, the last one's next the first, flips a run of bits from bit 0 up. -/
theorem xor_next_bin {n v : Nat} (hv : v < 2 ^ (n + 1)) :
    ∃ b ≤ n, v ^^^ (v + 1) % 2 ^ (n + 1) = 2 ^ (b + 1) - 1 := by
  induction n generalizing v with
  | zero =>
    obtain rfl | rfl : v = 0 ∨ v = 1 := by omega
    · exact ⟨0, le_rfl, by decide⟩
    · exact ⟨0, le_rfl, by decide⟩
  | succ n ih =>
    obtain ⟨u, rfl | rfl⟩ := v.even_or_odd'
    · refine ⟨0, n.succ.zero_le, ?_⟩
      rw [Nat.mod_eq_of_lt (by omega)]
      simpa using Nat.xor_bit false u true u
    · obtain ⟨b, hb, hrun⟩ := ih (v := u) (by omega)
      have hnext : (2 * u + 1 + 1) % 2 ^ (n + 1 + 1) = 2 * ((u + 1) % 2 ^ (n + 1)) := by
        rw [pow_succ' 2 (n + 1), ← Nat.mul_mod_mul_left, Nat.mul_add_one]
      refine ⟨b + 1, Nat.succ_le_succ hb, ?_⟩
      rw [hnext, odd_xor_even, hrun]
      have := Nat.two_pow_pos (b + 1)
      omega

/-- A run of `b + 1` ones has the Gray code of one bit. -/
theorem gray_ones {b : Nat} (hb : b < 12) : gray (BitVec.ofNat 12 (2 ^ (b + 1) - 1)) = 1 <<< b := by
  have hone : ((1 <<< b : ℕ) : BitVec 12) = BitVec.ofNat 12 (2 ^ b) := by rw [Nat.one_shiftLeft, BitVec.natCast_eq_ofNat]
  refine BitVec.eq_of_getLsbD_eq fun i hi => ?_
  simp only [hone, getLsbD_gray, BitVec.getLsbD_ofNat, Nat.testBit_two_pow_sub_one, Nat.testBit_two_pow]
  obtain hlt | rfl | hgt := lt_trichotomy i b
  · simp [hi, hlt.ne', show i < b + 1 by omega, show i + 1 < 12 by omega, hlt]
  · simp
  · simp [hgt.ne, show ¬ i < b + 1 by omega, show ¬ i < b by omega]

/-- Settles O35: by linearity the two codes differ by the code of the run of bits that the step flips. -/
theorem adjacentBinsDifferInOneGrayBit : Obligations.AdjacentBinsDifferInOneGrayBit := by
  intro sf hlo hhi v hv
  obtain ⟨n, rfl⟩ : ∃ n, sf = n + 1 := ⟨sf - 1, by omega⟩
  obtain ⟨b, hb, hrun⟩ := xor_next_bin hv
  refine ⟨b, by omega, ?_⟩
  rw [← gray_xor, ← BitVec.ofNat_xor, hrun, gray_ones (by omega)]

end Sys2Proof.Machine
end

section
/-! Soft bits (43_gray.md R224, R225): `Num.maximum` is the largest entry by real value, so a soft bit is the best likelihood of
the symbols whose Gray bit is 1, less the best of those whose bit is 0. -/

namespace Sys2Proof.Num

/-! ### Real entries and the largest of them -/

/-- A number equal to its conjugate denotes its real part. -/
theorem denotes_re {x : Num} (hwf : x.wf = true) (hreal : x.isReal = true) : Denotes x (x.val.re : ℝ) := by
  have hconj : conj x = x := of_decide_eq_true hreal
  have hfix : (starRingEnd ℂ) x.val = x.val := by rw [← (denotes_val hwf).conj.2, hconj]
  exact ⟨hwf, (Complex.conj_eq_iff_re.mp hfix).symm⟩

theorem Denotes.pos_iff {x : Num} {r : ℝ} (h : Denotes x r) : pos x = true ↔ 0 < r := by
  rw [pos, decide_eq_true_iff, h.sgn_eq, ← sign_eq_one_iff]
  cases SignType.sign r <;> decide

theorem getD_mem_of_lt {l : List Num} {N k : ℕ} (hlen : l.length = N) (hk : k < N) : l.getD k (.rat 0) ∈ l := by
  rw [List.getD_eq_getElem _ _ (hlen ▸ hk)]
  exact List.getElem_mem _

theorem denotes_entry {l : List Num} {N k : ℕ} (hlen : l.length = N) (hl : ∀ x ∈ l, x.wf = true ∧ x.isReal = true)
    (hk : k < N) : Denotes (l.getD k (.rat 0)) ((l.getD k (.rat 0)).val.re : ℝ) := by
  obtain ⟨hwf, hreal⟩ := hl _ (getD_mem_of_lt hlen hk)
  exact denotes_re hwf hreal

theorem map_getD_range (l : List Num) : (List.range l.length).map (fun k => l.getD k (.rat 0)) = l :=
  List.ext_getElem (by simp) fun k _ hk => by simp [hk]

theorem maximum_spec {l : List Num} (hne : l ≠ []) (hl : ∀ x ∈ l, x.wf = true ∧ x.isReal = true) :
    maximum l ∈ l ∧ ∀ x ∈ l, x.val.re ≤ (maximum l).val.re := by
  obtain ⟨hlt, hmax, -⟩ := isBin_argmax (List.length_pos_iff.mpr hne) fun k hk => denotes_entry rfl hl hk
  rw [map_getD_range] at hlt hmax
  refine ⟨?_, fun x hx => ?_⟩
  · exact getD_mem_of_lt rfl hlt
  · obtain ⟨k, hk, rfl⟩ := List.getElem_of_mem hx
    simpa only [maximum, List.getD_eq_getElem _ _ hk] using hmax k hk

end Sys2Proof.Num

namespace Sys2Proof.Machine

open Sys2Proof.Num

variable {sf b : ℕ} {ll : List Sys2Proof.Num}

/-! ### The best symbols (R224, R225) -/

/-- The symbols whose Gray bit `b` is `v`, the two sets that R224 compares. -/
def symbolsWithBit (sf b : ℕ) (v : Bool) : List ℕ :=
  (List.range (2 ^ sf)).filter fun s => (gray (BitVec.ofNat 12 s)).getLsbD b = v

theorem mem_symbolsWithBit {v : Bool} {s : ℕ} :
    s ∈ symbolsWithBit sf b v ↔ s < 2 ^ sf ∧ (gray (BitVec.ofNat 12 s)).getLsbD b = v := by
  simp [symbolsWithBit]

theorem softBit_eq (sf : ℕ) (ll : List Sys2Proof.Num) (b : ℕ) :
    softBit sf ll b =
      Num.sub (Num.maximum ((symbolsWithBit sf b true).map fun s => ll.getD s (.rat 0)))
        (Num.maximum ((symbolsWithBit sf b false).map fun s => ll.getD s (.rat 0))) := rfl

/-- Either value of a Gray bit is that of some symbol: of `2 ^ b`, and of 0. -/
theorem symbolsWithBit_ne_nil (hsf : sf ≤ 12) (hb : b < sf) (v : Bool) : symbolsWithBit sf b v ≠ [] := by
  cases v with
  | false => exact List.ne_nil_of_mem (mem_symbolsWithBit.mpr ⟨Nat.two_pow_pos sf, by simp [gray]⟩)
  | true =>
    refine List.ne_nil_of_mem (mem_symbolsWithBit.mpr ⟨Nat.pow_lt_pow_right one_lt_two hb, ?_⟩)
    rw [getLsbD_gray, BitVec.getLsbD_ofNat, BitVec.getLsbD_ofNat, Nat.testBit_two_pow, Nat.testBit_two_pow]
    simp [hb.trans_le hsf]

/-- `s` is a symbol of largest likelihood among those whose Gray bit `b` is `v`. -/
structure IsBestSymbol (sf b : ℕ) (ll : List Sys2Proof.Num) (v : Bool) (s : ℕ) : Prop where
  lt : s < 2 ^ sf
  bit_eq : (gray (BitVec.ofNat 12 s)).getLsbD b = v
  le : ∀ t < 2 ^ sf, (gray (BitVec.ofNat 12 t)).getLsbD b = v →
    (ll.getD t (.rat 0)).val.re ≤ (ll.getD s (.rat 0)).val.re

theorem exists_isBestSymbol (hsf : sf ≤ 12) (hb : b < sf) (hlen : ll.length = 2 ^ sf)
    (hll : ∀ x ∈ ll, x.wf = true ∧ x.isReal = true) (v : Bool) :
    ∃ s, IsBestSymbol sf b ll v s ∧
      Denotes (Num.maximum ((symbolsWithBit sf b v).map fun t => ll.getD t (.rat 0)))
        ((ll.getD s (.rat 0)).val.re : ℝ) := by
  obtain ⟨hmem, hmax⟩ := maximum_spec (l := (symbolsWithBit sf b v).map fun t => ll.getD t (.rat 0))
    (by simpa using symbolsWithBit_ne_nil hsf hb v)
    (List.forall_mem_map.mpr fun t ht => hll _ (getD_mem_of_lt hlen (mem_symbolsWithBit.mp ht).1))
  obtain ⟨s, hs, heq⟩ := List.mem_map.mp hmem
  obtain ⟨hlt, hbit⟩ := mem_symbolsWithBit.mp hs
  rw [← heq] at hmax ⊢
  exact ⟨s, ⟨hlt, hbit, fun t ht htbit => hmax _ (List.mem_map_of_mem (mem_symbolsWithBit.mpr ⟨ht, htbit⟩))⟩,
    denotes_entry hlen hll hlt⟩

theorem exists_denotes_softBit (hsf : sf ≤ 12) (hb : b < sf) (hlen : ll.length = 2 ^ sf)
    (hll : ∀ x ∈ ll, x.wf = true ∧ x.isReal = true) :
    ∃ v1 v0, IsBestSymbol sf b ll true v1 ∧ IsBestSymbol sf b ll false v0 ∧
      Denotes (softBit sf ll b) ((ll.getD v1 (.rat 0)).val.re - (ll.getD v0 (.rat 0)).val.re : ℝ) := by
  obtain ⟨v1, hbest1, hden1⟩ := exists_isBestSymbol hsf hb hlen hll true
  obtain ⟨v0, hbest0, hden0⟩ := exists_isBestSymbol hsf hb hlen hll false
  refine ⟨v1, v0, hbest1, hbest0, ?_⟩
  rw [softBit_eq, Complex.ofReal_sub]
  exact hden1.sub hden0

/-- Settles O36: each maximum is the likelihood of the best symbol of its set. -/
theorem softBitIsTheDifferenceOfMaxima : Obligations.SoftBitIsTheDifferenceOfMaxima := by
  intro sf b ll hsf hb hlen hll L bit
  obtain ⟨v1, v0, h1, h0, hden⟩ := exists_denotes_softBit hsf hb hlen hll
  exact ⟨v1, v0, h1.lt, h0.lt, h1.bit_eq, h0.bit_eq, h1.le, h0.le, hden.2⟩

/-- Settles O37: the largest likelihood is the best of the set that its own bit names, and beats every symbol of the other. -/
theorem softGroupAgreesWithHardGroup : Obligations.SoftGroupAgreesWithHardGroup := by
  intro sf b best ll hsf hb hlen hll hbest hlargest
  have hlt : ∀ v < 2 ^ sf, v ≠ best → (ll.getD v (.rat 0)).val.re < (ll.getD best (.rat 0)).val.re := fun v hv hne =>
    ((denotes_entry hlen hll hv).lt_iff (denotes_entry hlen hll hbest)).mp (hlargest v hv hne)
  obtain ⟨v1, v0, h1, h0, hden⟩ := exists_denotes_softBit hsf hb hlen hll
  rw [Bool.eq_iff_iff, hden.pos_iff, sub_pos]
  cases hbit : (gray (BitVec.ofNat 12 best)).getLsbD b with
  | true =>
    have hne : v0 ≠ best := by
      rintro rfl
      exact Bool.false_ne_true (h0.bit_eq.symm.trans hbit)
    exact iff_of_true ((hlt v0 h0.lt hne).trans_le (h1.le best hbest hbit)) rfl
  | false =>
    have hne : v1 ≠ best := by
      rintro rfl
      exact Bool.false_ne_true (hbit.symm.trans h1.bit_eq)
    exact iff_of_false ((hlt v1 h1.lt hne).trans_le (h0.le best hbest hbit)).not_gt Bool.false_ne_true

end Sys2Proof.Machine
end

section
/-! The Gray Demapper's step (43_gray.md R220, R221, R224). -/

namespace Sys2Proof.Machine

variable {s : State} {it : SymItem} {rest : List SymItem}

theorem State.grayReady_of_cons (he3 : s.e3 = it :: rest) (hroom : s.e4.length + 1 ≤ s.par.qDepth) :
    s.grayReady = true := by
  simp [State.grayReady, he3, s.room_iff, hroom]

/-- Settles O33: an item and room enable the form of the mode, whose effect is the common step. -/
theorem grayMapsOneSymbol : Obligations.GrayMapsOneSymbol := by
  intro s it rest he3 hroom
  have hready := State.grayReady_of_cons he3 hroom
  refine ⟨fun hhard => ?_, fun hsoft => ?_⟩
  · have henabled : enabled .grayH s = true := by simp [enabled, canGrayH, hready, hhard]
    rw [exec_of_enabled henabled, effect, State.grayStep_cons he3, gray]
  · have henabled : enabled .grayS s = true := by simp [enabled, canGrayS, hready, hsoft]
    rw [exec_of_enabled henabled, effect, State.grayStep_cons he3]

end Sys2Proof.Machine
end

section
/-! The Deinterleaver's permutation (44_deinterleaver.md R232, R233) and the transmitter's interleaving it undoes. -/

namespace Sys2Proof.Machine

/-- The bits `f 0 .. f (n - 1)`, the first one most significant, in the low `n` bits of a word: how a hard codeword and a
group of the transmitter are put together. -/
def packBits (w n : Nat) (f : Nat → Bool) : BitVec w :=
  (List.range n).foldl (fun x i => x ||| (BitVec.ofBool (f i)).setWidth w <<< (n - 1 - i)) 0

theorem hardCodeword_eq_packBits (sf c : Nat) (blk : List Group) (r : Nat) :
    hardCodeword sf c blk r =
      packBits 8 c fun i => (blk.getD i ⟨0, []⟩).g.getLsbD (groupBit sf i r) := rfl

theorem interleaveGroup_eq_packBits (sf c : Nat) (cw : List (BitVec 8)) (i : Nat) :
    interleaveGroup sf c cw i =
      packBits 12 sf fun j => (cw.getD (diagonal sf i j) 0).getLsbD (c - 1 - i) := rfl

theorem getLsbD_foldl_or {α : Type} {w : Nat} (l : List α) (g : α → BitVec w) (x : BitVec w) (k : Nat) :
    (l.foldl (fun y a => y ||| g a) x).getLsbD k = (x.getLsbD k || l.any fun a => (g a).getLsbD k) := by
  induction l generalizing x with
  | nil => simp
  | cons a l ih => rw [List.foldl_cons, ih, BitVec.getLsbD_or, List.any_cons, Bool.or_assoc]

/-- A bit shifted to position `p` stands there alone. -/
theorem getLsbD_ofBool_shiftLeft {w p k : Nat} (hk : k < w) (b : Bool) :
    ((BitVec.ofBool b).setWidth w <<< p).getLsbD k = (decide (k = p) && b) := by
  rw [BitVec.getLsbD_shiftLeft, BitVec.getLsbD_setWidth, BitVec.getLsbD_ofBool, Bool.eq_iff_iff]
  simp only [Bool.and_eq_true, decide_eq_true_eq, Bool.not_eq_true', decide_eq_false_iff_not]
  grind

/-- Each bit of a packed word is the one bit given its position, and there is none past the last. -/
theorem getLsbD_packBits {w n k : Nat} (hk : k < w) (f : Nat → Bool) :
    (packBits w n f).getLsbD k = (decide (k < n) && f (n - 1 - k)) := by
  have hstart : (0 : BitVec w).getLsbD k = false := BitVec.getLsbD_zero
  rw [packBits, getLsbD_foldl_or, hstart, Bool.false_or, Bool.eq_iff_iff, List.any_eq_true]
  simp only [getLsbD_ofBool_shiftLeft hk, List.mem_range, Bool.and_eq_true, decide_eq_true_eq]
  constructor
  · rintro ⟨i, hi, rfl, hf⟩
    refine ⟨by omega, ?_⟩
    rwa [show n - 1 - (n - 1 - i) = i by omega]
  · rintro ⟨hlt, hf⟩
    exact ⟨n - 1 - k, by omega, by omega, hf⟩

theorem getLsbD_hardCodeword {k : Nat} (hk : k < 8) (sf c : Nat) (blk : List Group) (r : Nat) :
    (hardCodeword sf c blk r).getLsbD k =
      (decide (k < c) && (blk.getD (c - 1 - k) ⟨0, []⟩).g.getLsbD (groupBit sf (c - 1 - k) r)) := by
  rw [hardCodeword_eq_packBits, getLsbD_packBits hk]

theorem getD_softCodeword {p c : Nat} (hp : p < c) (sf : Nat) (blk : List Group) (r : Nat) :
    (softCodeword sf c blk r).getD p (.rat 0) =
      (blk.getD (c - 1 - p) ⟨0, []⟩).gl.getD (groupBit sf (c - 1 - p) r) (.rat 0) := by
  simp [softCodeword, hp]

theorem diagonal_lt {sf : Nat} (hsf : 0 < sf) (i r : Nat) : diagonal sf i r < sf := by
  have hmod := Int.emod_lt_of_pos ((i : Int) - r - 1) (Int.natCast_pos.mpr hsf)
  unfold diagonal
  omega

/-- The diagonal of a group is its own inverse, so that one formula serves the transmitter and the receiver. -/
theorem diagonal_diagonal {sf r : Nat} (hr : r < sf) (i : Nat) : diagonal sf i (diagonal sf i r) = r := by
  have hnonneg := Int.emod_nonneg ((i : Int) - r - 1) (by omega : (sf : Int) ≠ 0)
  have hmod : ((i : Int) - ((i : Int) - r - 1) % sf - 1) % sf = r := by
    calc ((i : Int) - ((i : Int) - r - 1) % sf - 1) % sf
        = ((i : Int) - 1 - ((i : Int) - r - 1) % sf) % sf := by ring_nf
      _ = ((i : Int) - 1 - ((i : Int) - r - 1)) % sf := Int.sub_emod_emod ..
      _ = (r : Int) % sf := by ring_nf
      _ = r := Int.emod_eq_of_lt (by omega) (by omega)
  unfold diagonal
  rw [Int.toNat_of_nonneg hnonneg, hmod, Int.toNat_natCast]

/-- The bit of group `i` that codeword `r` takes is the bit that the transmitter took from codeword `r`. -/
theorem getLsbD_interleaveGroup_groupBit {sf r : Nat} (hsf : sf ≤ 12) (hr : r < sf) (c : Nat) (cw : List (BitVec 8))
    (i : Nat) :
    (interleaveGroup sf c cw i).getLsbD (groupBit sf i r) = (cw.getD r 0).getLsbD (c - 1 - i) := by
  have hdiagonal := diagonal_lt (Nat.zero_lt_of_lt hr) i r
  have hbit : groupBit sf i r < sf := by unfold groupBit; omega
  have hcolumn : sf - 1 - groupBit sf i r = diagonal sf i r := by unfold groupBit; omega
  rw [interleaveGroup_eq_packBits, getLsbD_packBits (hbit.trans_le hsf), decide_eq_true hbit, Bool.true_and, hcolumn,
    diagonal_diagonal hr]

/-- One codeword of at most `c` bits is read back from the block of interleaved groups. -/
theorem hardCodeword_interleaveGroup {sf c r : Nat} {cw : List (BitVec 8)} (hsf : sf ≤ 12) (hr : r < sf)
    (hcw : (cw.getD r 0).toNat < 2 ^ c) :
    hardCodeword sf c ((List.range c).map fun i => ⟨interleaveGroup sf c cw i, []⟩) r = cw.getD r 0 := by
  refine BitVec.eq_of_getLsbD_eq fun k hk => ?_
  rw [getLsbD_hardCodeword hk]
  by_cases hkc : k < c
  · have hgroup : c - 1 - k < c := by omega
    rw [decide_eq_true hkc, Bool.true_and, List.getD_eq_getElem _ _ (by simpa using hgroup), List.getElem_map,
      List.getElem_range, getLsbD_interleaveGroup_groupBit hsf hr, show c - 1 - (c - 1 - k) = k by omega]
  · have hhigh : (cw.getD r 0).getLsbD k = false :=
      Nat.testBit_lt_two_pow (hcw.trans_le (Nat.pow_le_pow_right (by decide) (not_lt.mp hkc)))
    rw [hhigh, decide_eq_false hkc, Bool.false_and]

/-- Settles O39: bit `c - 1 - i` comes from group `i`, at the bit its diagonal names. -/
theorem deinterleavingFollowsTheDiagonals : Obligations.DeinterleavingFollowsTheDiagonals := by
  intro sf c r i blk _ hc hi g b
  have hlt : c - 1 - i < c := by omega
  have hgroup : c - 1 - (c - 1 - i) = i := by omega
  constructor
  · rw [getLsbD_hardCodeword (hlt.trans_le hc), decide_eq_true hlt, Bool.true_and, hgroup]
    rfl
  · rw [getD_softCodeword hlt, hgroup]
    rfl

/-- Settles O40: codeword by codeword, the diagonal undoes itself. -/
theorem deinterleaveUndoesInterleave : Obligations.DeinterleaveUndoesInterleave := by
  intro sf cr cw _ hsf _ hlength hcw
  refine List.ext_getElem (by simp [hlength]) fun r _ hr => ?_
  have hentry : cw.getD r 0 = cw[r] := List.getD_eq_getElem _ _ hr
  rw [List.getElem_map, List.getElem_range,
    hardCodeword_interleaveGroup hsf (hlength ▸ hr) (hentry ▸ hcw _ (List.getElem_mem hr)), hentry]

end Sys2Proof.Machine
end

section
/-! The Deinterleaver's step (44_deinterleaver.md R231, R234, R235). -/

namespace Sys2Proof.Machine

open Sys2Proof.Safety

variable {s : State} {it : GroupItem} {rest : List GroupItem}

theorem DeintRegs.take_eq_ite (r : DeintRegs) (it : GroupItem) :
    r.take it =
      if it.sof = true ∨ r.cnt = 0 then
        { r with cr := it.cr, hdr := it.hdr, sof := it.sof, blk := r.blk.set 0 it.grp, cnt := 1 }
      else { r with blk := r.blk.set r.cnt.toNat it.grp, cnt := r.cnt + 1 } := by
  split
  · rw [deintTake_of_first ‹_›]
  · rw [deintTake_of_later ‹_›]

theorem DeintRegs.complete_iff (r : DeintRegs) : r.complete = true ↔ r.cnt.toNat = 4 + r.cr.toNat := decide_eq_true_iff

/-- A group can enter where it leaves the block partial, or where `E5` has room for the block it completes. -/
theorem State.deintReady_of_cons (he4 : s.e4 = it :: rest)
    (hroom : (s.deint.take it).complete = true → s.e5.length + 1 ≤ s.par.qDepth) : s.deintReady = true := by
  simpa [State.deintReady, he4, s.room_iff, ← imp_iff_not_or, ← Bool.not_eq_true] using hroom

/-- The operation of the state's mode performs the common step with its own form of block. -/
theorem exec_deintH_of_ready (hready : s.deintReady = true) (hhard : s.soft = false) :
    exec .deintH s = .next (s.deintStep fun r => r.hardBlock s.sf) :=
  exec_of_enabled (i := .deintH) (by simp [enabled, canDeintH, hready, hhard])

theorem exec_deintS_of_ready (hready : s.deintReady = true) (hsoft : s.soft = true) :
    exec .deintS s = .next (s.deintStep fun r => r.softBlock s.sf) :=
  exec_of_enabled (i := .deintS) (by simp [enabled, canDeintS, hready, hsoft])

/-- Settles O38: whether the group completes the block decides the effect, the mode the operation and the form of block. -/
theorem deintBuffersAndEmitsBlocks : Obligations.DeintBuffersAndEmitsBlocks := by
  intro s it rest he4 r c
  have htake : s.deint.take it = r := DeintRegs.take_eq_ite s.deint it
  have hcomplete : (s.deint.take it).complete = true ↔ r.cnt.toNat = c := by
    rw [htake]
    exact DeintRegs.complete_iff r
  have hpartial (h : r.cnt.toNat ≠ c) (f : DeintRegs → CwBlock) :
      s.deintReady = true ∧ s.deintStep f = { s with e4 := rest, deint := r } := by
    have hnot := mt hcomplete.mp h
    exact ⟨State.deintReady_of_cons he4 fun hfull => absurd hfull hnot,
      by rw [State.deintStep_cons he4, if_neg hnot, htake]⟩
  have hfull (h : r.cnt.toNat = c) (hroom : s.e5.length + 1 ≤ s.par.qDepth) (f : DeintRegs → CwBlock) :
      s.deintReady = true ∧
        s.deintStep f = { s with e4 := rest, deint := { r with cnt := 0 }, e5 := s.e5 ++ [f r] } :=
    ⟨State.deintReady_of_cons he4 fun _ => hroom,
      by rw [State.deintStep_cons he4, if_pos (hcomplete.mpr h), htake]⟩
  refine ⟨fun h hhard => ?_, fun h hsoft => ?_, fun h hhard hroom => ?_, fun h hsoft hroom => ?_⟩
  · obtain ⟨hready, hstep⟩ := hpartial h fun r => r.hardBlock s.sf
    rw [exec_deintH_of_ready hready hhard, hstep]
  · obtain ⟨hready, hstep⟩ := hpartial h fun r => r.softBlock s.sf
    rw [exec_deintS_of_ready hready hsoft, hstep]
  · obtain ⟨hready, hstep⟩ := hfull h hroom fun r => r.hardBlock s.sf
    rw [exec_deintH_of_ready hready hhard, hstep]
    rfl
  · obtain ⟨hready, hstep⟩ := hfull h hroom fun r => r.softBlock s.sf
    rw [exec_deintS_of_ready hready hsoft, hstep]
    rfl

end Sys2Proof.Machine
end

section
/-! Soft decoding (45_hamming.md R248): in exact arithmetic the metrics denote the signed sums of the soft values, so the nibble
is the lowest of largest metric, and the sliced word has bit `p` where soft value `p` is positive. -/

namespace Sys2Proof.Machine

open Sys2Proof.Num

variable {s : State} {cr : ℕ} {l : List Sys2Proof.Num}

/-! ### Metrics -/

/-- The real number that the metric of nibble `n` stands for. -/
noncomputable def metricValue (cr : ℕ) (l : List Sys2Proof.Num) (n : ℕ) : ℝ :=
  ∑ p ∈ Finset.range (4 + cr),
    if (codeword cr (BitVec.ofNat 4 n)).getLsbD p then (l.getD p (.rat 0)).val.re else -(l.getD p (.rat 0)).val.re

theorem denotes_softMetric (hlen : l.length = 4 + cr) (hl : ∀ x ∈ l, x.wf = true ∧ x.isReal = true) (n : ℕ) :
    Denotes (softMetric cr l n) (metricValue cr l n : ℝ) := by
  rw [metricValue, Complex.ofReal_sum]
  refine denotes_sum_range fun p hp => ?_
  have hentry := denotes_entry hlen hl hp
  split
  · exact hentry
  · rw [Complex.ofReal_neg]
    exact hentry.neg

/-- The nibble that soft decoding answers in exact arithmetic. -/
def bestNibble (cr : ℕ) (l : List Sys2Proof.Num) : Nibble :=
  BitVec.ofNat 4 (Num.argmax ((List.range 16).map fun n => softMetric cr l n))

theorem State.decS_of_exact (h : s.par.num = .exact) (cr : ℕ) (l : List Sys2Proof.Num) :
    s.decS cr l =
      (bestNibble cr l, if hardWord cr l = codeword cr (bestNibble cr l) then .none else .corrected) := by
  simp only [State.decS, State.soften_exact h] <;> rfl

/-- Equal metrics give the lowest nibble. -/
theorem isBin_bestNibble (hlen : l.length = 4 + cr) (hl : ∀ x ∈ l, x.wf = true ∧ x.isReal = true) :
    Value.IsBin 16 (metricValue cr l) (bestNibble cr l).toNat := by
  have hbin := isBin_argmax (N := 16) (by decide) fun n _ => denotes_softMetric hlen hl n
  rwa [bestNibble, BitVec.toNat_ofNat, Nat.mod_eq_of_lt hbin.1]

/-! ### The sliced word (10_state.md R45) -/

/-- Bit `k` of the word with bit `p` alone set. -/
theorem getLsbD_one_shiftLeft {w k : ℕ} (hk : k < w) (p : ℕ) :
    ((1 <<< p : ℕ) : BitVec w).getLsbD k = decide (p = k) := by
  rw [Nat.one_shiftLeft, BitVec.natCast_eq_ofNat, BitVec.getLsbD_ofNat, Nat.testBit_two_pow, decide_eq_true hk,
    Bool.true_and]

theorem hardWord_eq_foldl_or (cr : ℕ) (l : List Sys2Proof.Num) :
    hardWord cr l =
      (List.range (4 + cr)).foldl
        (fun w p => w ||| if Num.pos (l.getD p (.rat 0)) then ((1 <<< p : ℕ) : BitVec 8) else 0) 0 := by
  unfold hardWord
  congr 1
  funext w p
  split
  · rfl
  · exact BitVec.or_zero.symm

/-- Bit `k` of the sliced word is 1 exactly where soft value `k` is positive; there is none past the last. -/
theorem getLsbD_hardWord {k : ℕ} (hk : k < 8) (cr : ℕ) (l : List Sys2Proof.Num) :
    (hardWord cr l).getLsbD k = (decide (k < 4 + cr) && Num.pos (l.getD k (.rat 0))) := by
  have hzero : (0 : BitVec 8).getLsbD k = false := BitVec.getLsbD_zero
  rw [hardWord_eq_foldl_or, getLsbD_foldl_or, hzero, Bool.false_or, Bool.eq_iff_iff, List.any_eq_true]
  simp only [apply_ite (BitVec.getLsbD · k), getLsbD_one_shiftLeft hk, hzero, List.mem_range, Bool.and_eq_true,
    decide_eq_true_eq, Bool.if_false_right]
  constructor
  · rintro ⟨p, hp, hpos, rfl⟩
    exact ⟨hp, hpos⟩
  · rintro ⟨hlt, hpos⟩
    exact ⟨k, hlt, hpos, rfl⟩

/-- A codeword has no bit past its last one. -/
theorem getLsbD_codeword_of_le {k : ℕ} (hcr : CrLegal cr) (hk : 4 + cr ≤ k) (n : Nibble) :
    (codeword cr n).getLsbD k = false := by
  obtain ⟨hlo, hhi⟩ := hcr
  unfold codeword
  split
  · rw [BitVec.getLsbD_setWidth, BitVec.getLsbD_of_ge _ _ (by omega), Bool.and_false]
  · rw [BitVec.getLsbD_ushiftRight]
    exact BitVec.getLsbD_of_ge _ _ (by omega)

theorem hardWord_eq_codeword_iff (hcr : CrLegal cr) (hlen : l.length = 4 + cr)
    (hl : ∀ x ∈ l, x.wf = true ∧ x.isReal = true) (n : Nibble) :
    hardWord cr l = codeword cr n ↔
      ∀ p < 4 + cr, (codeword cr n).getLsbD p = true ↔ 0 < (l.getD p (.rat 0)).val.re := by
  have hbit : ∀ p < 4 + cr, (hardWord cr l).getLsbD p = true ↔ 0 < (l.getD p (.rat 0)).val.re := fun p hp => by
    rw [getLsbD_hardWord (by have := hcr.2; omega), decide_eq_true hp, Bool.true_and, (denotes_entry hlen hl hp).pos_iff]
  constructor
  · intro heq p hp
    rw [← heq, hbit p hp]
  · intro hbits
    refine BitVec.eq_of_getLsbD_eq fun p hp => ?_
    by_cases hlt : p < 4 + cr
    · rw [Bool.eq_iff_iff, hbit p hlt, hbits p hlt]
    · rw [getLsbD_codeword_of_le hcr (not_lt.mp hlt), getLsbD_hardWord hp, decide_eq_false hlt, Bool.false_and]

/-- Settles O43: the nibble is the bin of the metrics, and the status compares the sliced word with its codeword. -/
theorem softDecodingIsMaximumLikelihood : Obligations.SoftDecodingIsMaximumLikelihood := by
  intro s cr l hexact hcr hlen hl L metric out
  have hout : out = _ := State.decS_of_exact hexact cr l
  rw [hout]
  refine ⟨isBin_bestNibble hlen hl, ?_, ?_⟩
  · rw [← hardWord_eq_codeword_iff hcr hlen hl]
    exact ite_eq_left_iff.trans (by simp)
  · dsimp only
    split <;> decide

end Sys2Proof.Machine
end

section
/-! The Hamming Decoder's step (45_hamming.md R240, R243 to R248). -/

namespace Sys2Proof.Machine

variable {s : State} {b : CwBlock} {rest : List CwBlock}

theorem State.hammReady_of_cons {p : CwBlock → Bool} (he5 : s.e5 = b :: rest) (hroom : s.e6.length + 1 ≤ s.par.qDepth)
    (hp : p b = true) : s.hammReady p = true := by
  simp [State.hammReady, he5, hp, s.room_iff, hroom]

/-- The flag of the block step as the rule names it: `PAY_FEC`, for an uncorrectable payload block only (R247). -/
theorem State.hammStep_eq (he5 : s.e5 = b :: rest) (f : CwBlock → List (Nibble × CwStatus)) :
    s.hammStep f =
      { s with
        e5 := rest
        e6 := s.e6 ++ [⟨(f b).map Prod.fst, (f b).map Prod.snd, b.sof, b.hdr, b.cr⟩]
        regs :=
          if b.hdr = false ∧ CwStatus.uncorr ∈ (f b).map Prod.snd then { s.regs with evt := s.regs.evt ||| 0x010 }
          else s.regs } := by
  have hflag : (!b.hdr && anyUncorr ((f b).map Prod.snd)) = true ↔
      b.hdr = false ∧ CwStatus.uncorr ∈ (f b).map Prod.snd := by
    rw [Bool.and_eq_true, Bool.not_eq_true', anyUncorr, List.contains_iff_mem]
  rw [State.hammStep_cons he5]
  simp only [hflag]
  rfl

/-- Settles O41: mode and tag enable the operation of the coding rate, whose effect is the common step with its decoder. -/
theorem hammingDecodesOneBlock : Obligations.HammingDecodesOneBlock := by
  intro s b rest he5 hroom out
  have hstep {i : Instr} (f : CwBlock → List (Nibble × CwStatus)) (henabled : enabled i s = true)
      (heffect : effect i s = s.hammStep f) : exec i s = out (f b) := by
    rw [exec_of_enabled henabled, heffect, State.hammStep_eq he5]
  have hhard {cr : BitVec 3} (hmode : s.soft = false) (hcr : b.cr = cr) : s.canHammHard cr = true := by
    rw [State.canHammHard, hmode, Bool.not_false, Bool.and_true]
    exact State.hammReady_of_cons he5 hroom (decide_eq_true hcr)
  have hsoft (hmode : s.soft = true) (hcr : CrLegal b.cr.toNat) : s.canHammSoft (b.cr.setWidth 4) = true := by
    have htag : (b.cr.setWidth 4).toNat = b.cr.toNat := by bv_omega
    rw [State.canHammSoft, hmode, Bool.and_true]
    exact State.hammReady_of_cons he5 hroom (by simpa [htag, CrLegal] using hcr)
  exact ⟨fun hmode hcr => hstep (i := .hammCr1) (s.hardRows dec1) (hhard hmode hcr) rfl,
    fun hmode hcr => hstep (i := .hammCr2) (s.hardRows dec2) (hhard hmode hcr) rfl,
    fun hmode hcr => hstep (i := .hammCr3) (s.hardRows dec3) (hhard hmode hcr) rfl,
    fun hmode hcr => hstep (i := .hammCr4) (s.hardRows dec4) (hhard hmode hcr) rfl,
    fun hmode hcr => hstep (i := .hammS _) s.softRows (hsoft hmode hcr) rfl⟩

end Sys2Proof.Machine
end

section
/-! The four Hamming codes (45_hamming.md R242 to R246, R249) are linear over xor: a codeword has syndrome 0, so a received word
has the syndrome of its error alone, and that is what a decoder answers on. -/

namespace Sys2Proof.Machine

variable {k : Nat}

/-! ### Bits of a received word -/

@[simp] theorem length_msbBits (c : Nat) (w : BitVec 8) : (msbBits c w).length = c := by simp [msbBits]

theorem getElem_msbBits {c i : Nat} (w : BitVec 8) (hi : i < (msbBits c w).length) :
    (msbBits c w)[i] = w.getLsbD (c - 1 - i) := by
  simp [msbBits]

theorem cwBit_msbBits {c i : Nat} (hi : i < c) (w : BitVec 8) : cwBit (msbBits c w) i = w.getLsbD (c - 1 - i) := by
  simp [cwBit, msbBits, hi]

/-- An error inverts the bits at its own ones. -/
theorem cwBit_msbBits_xor (c : Nat) (w e : BitVec 8) (i : Nat) :
    cwBit (msbBits c (w ^^^ e)) i = (cwBit (msbBits c w) i ^^ cwBit (msbBits c e) i) := by
  by_cases hi : i < c <;> simp [cwBit, msbBits, hi]

/-- Inverting a wrong bit gives back the word that was sent. -/
theorem flipBit_msbBits_xor {c p : Nat} (hc : c ≤ 8) (hp : p < c) (w : BitVec 8) :
    flipBit (msbBits c (w ^^^ (1 <<< p : Nat))) (c - 1 - p) = msbBits c w := by
  refine List.ext_getElem (by simp [flipBit]) fun i _ hi => ?_
  rw [length_msbBits] at hi
  have hbit := getLsbD_one_shiftLeft (k := c - 1 - i) (w := 8) (by omega) p
  simp only [flipBit, List.getElem_set, getElem_msbBits, BitVec.getLsbD_xor, hbit]
  split
  next h =>
    rw [h, cwBit_msbBits hi, BitVec.getLsbD_xor, hbit, decide_eq_true (by omega), Bool.xor_true, Bool.not_not]
  next h => rw [decide_eq_false (by omega), Bool.xor_false]

/-! ### Syndromes -/

theorem syndrome_msbBits_xor (k c : Nat) (w e : BitVec 8) :
    syndrome k (msbBits c (w ^^^ e)) = List.zipWith Bool.xor (syndrome k (msbBits c w)) (syndrome k (msbBits c e)) := by
  rw [syndrome, syndrome, syndrome, ← List.take_zipWith]
  simp only [cwBit_msbBits_xor, List.zipWith_cons_cons, List.zipWith_nil_left]
  congr 1
  simp [Bool.xor_left_comm, Bool.xor_comm]

theorem syndrome_codeword : ∀ k ∈ [2, 3, 4], ∀ n, syndrome k (msbBits (4 + k) (codeword k n)) = List.replicate k false := by
  decide

theorem nibOf_codeword : ∀ k ∈ [1, 2, 3, 4], ∀ n, nibOf (msbBits (4 + k) (codeword k n)) = n := by
  decide

theorem zipWith_xor_replicate_false {l : List Bool} (h : l.length = k) :
    List.zipWith Bool.xor (List.replicate k false) l = l :=
  List.ext_getElem (by simp [h]) fun i _ _ => by simp

theorem syndrome_codeword_xor (hk : k ∈ [2, 3, 4]) (n : Nibble) (e : BitVec 8) :
    syndrome k (msbBits (4 + k) (codeword k n ^^^ e)) = syndrome k (msbBits (4 + k) e) := by
  have hlen : (syndrome k (msbBits (4 + k) e)).length = k := by
    have hle : ∀ k ∈ [2, 3, 4], k ≤ 4 := by decide
    simpa [syndrome] using hle k hk
  rw [syndrome_msbBits_xor, syndrome_codeword k hk, zipWith_xor_replicate_false hlen]

/-- The syndrome of a wrong bit `i`, counted from the most significant end: the column of R242. -/
def column (k i : Nat) : List Bool := (columns.getD i []).take k

theorem syndrome_one_shiftLeft :
    ∀ k ∈ [2, 3, 4], ∀ p < 4 + k, syndrome k (msbBits (4 + k) (1 <<< p : Nat)) = column k (4 + k - 1 - p) := by
  decide

theorem any_column : ∀ k ∈ [2, 3, 4], ∀ i < 4 + k, (column k i).any id = true := by
  decide

theorem errorPos_column : ∀ k ∈ [3, 4], ∀ i < 4 + k, errorPos k (column k i) = i := by
  decide

/-- At `cr` 4 the columns have an odd number of ones. -/
theorem foldl_xor_column : ∀ i < 8, (column 4 i).foldl Bool.xor false = true := by
  decide

/-- Two columns at `cr` 4 differ, in an even number of places. -/
theorem syndrome_double : ∀ p < 8, ∀ q < p,
    let syn := syndrome 4 (msbBits 8 ((1 <<< p : Nat) ^^^ (1 <<< q : Nat)))
    syn.any id = true ∧ syn.foldl Bool.xor false = false := by
  decide

/-- A single wrong bit has its column as syndrome, and inverting the bit that this names restores the codeword. -/
theorem syndrome_single {p : Nat} (hk : k ∈ [2, 3, 4]) (hp : p < 4 + k) (n : Nibble) :
    syndrome k (msbBits (4 + k) (codeword k n ^^^ (1 <<< p : Nat))) = column k (4 + k - 1 - p) := by
  rw [syndrome_codeword_xor hk, syndrome_one_shiftLeft k hk p hp]

theorem nibOf_flipBit_errorPos {p : Nat} (hk : k ∈ [3, 4]) (hp : p < 4 + k) (n : Nibble) :
    nibOf (flipBit (msbBits (4 + k) (codeword k n ^^^ (1 <<< p : Nat))) (errorPos k (column k (4 + k - 1 - p)))) = n := by
  have hle : ∀ k ∈ [3, 4], 4 + k ≤ 8 := by decide
  rw [errorPos_column k hk _ (by omega), flipBit_msbBits_xor (hle k hk) hp, nibOf_codeword k (.tail _ (.tail _ hk))]

/-! ### The decoders (R243 to R246) -/

/-- The check of the (5,4) code (R243). -/
def parity5 (b : List Bool) : Bool := cwBit b 0 ^^ cwBit b 1 ^^ cwBit b 2 ^^ cwBit b 3 ^^ cwBit b 4

theorem dec1_eq (w : BitVec 8) :
    dec1 w = (nibOf (msbBits 5 w), if parity5 (msbBits 5 w) then .uncorr else .none) := rfl

theorem dec2_eq (w : BitVec 8) :
    dec2 w = (nibOf (msbBits 6 w), if (syndrome 2 (msbBits 6 w)).any id then .uncorr else .none) := rfl

theorem dec3_eq (w : BitVec 8) :
    dec3 w =
      if (syndrome 3 (msbBits 7 w)).any id then
        (nibOf (flipBit (msbBits 7 w) (errorPos 3 (syndrome 3 (msbBits 7 w)))), .corrected)
      else (nibOf (msbBits 7 w), .none) := rfl

theorem dec4_eq (w : BitVec 8) :
    dec4 w =
      if !(syndrome 4 (msbBits 8 w)).any id then (nibOf (msbBits 8 w), .none)
      else if (syndrome 4 (msbBits 8 w)).foldl Bool.xor false then
        (nibOf (flipBit (msbBits 8 w) (errorPos 4 (syndrome 4 (msbBits 8 w)))), .corrected)
      else (nibOf (msbBits 8 w), .uncorr) := rfl

theorem parity5_msbBits_xor (w e : BitVec 8) :
    parity5 (msbBits 5 (w ^^^ e)) = (parity5 (msbBits 5 w) ^^ parity5 (msbBits 5 e)) := by
  simp only [parity5, cwBit_msbBits_xor, Bool.xor_assoc, Bool.xor_left_comm]

theorem parity5_codeword : ∀ n, parity5 (msbBits 5 (codeword 1 n)) = false := by decide

theorem parity5_one_shiftLeft : ∀ p < 5, parity5 (msbBits 5 (1 <<< p : Nat)) = true := by decide

/-! ### No error -/

theorem dec1_codeword (n : Nibble) : dec1 (codeword 1 n) = (n, .none) := by
  rw [dec1_eq, parity5_codeword, nibOf_codeword 1 (by decide)]
  rfl

theorem dec2_codeword (n : Nibble) : dec2 (codeword 2 n) = (n, .none) := by
  rw [dec2_eq, syndrome_codeword 2 (by decide), nibOf_codeword 2 (by decide)]
  rfl

theorem dec3_codeword (n : Nibble) : dec3 (codeword 3 n) = (n, .none) := by
  rw [dec3_eq, syndrome_codeword 3 (by decide), nibOf_codeword 3 (by decide)]
  rfl

theorem dec4_codeword (n : Nibble) : dec4 (codeword 4 n) = (n, .none) := by
  rw [dec4_eq, syndrome_codeword 4 (by decide), nibOf_codeword 4 (by decide)]
  rfl

/-! ### Errors -/

theorem dec1_single {p : Nat} (hp : p < 5) (n : Nibble) : (dec1 (codeword 1 n ^^^ (1 <<< p : Nat))).2 = .uncorr := by
  rw [dec1_eq, parity5_msbBits_xor, parity5_codeword, parity5_one_shiftLeft p hp]
  rfl

theorem dec2_single {p : Nat} (hp : p < 6) (n : Nibble) : (dec2 (codeword 2 n ^^^ (1 <<< p : Nat))).2 = .uncorr := by
  rw [dec2_eq, syndrome_single (k := 2) (by decide) hp, any_column 2 (by decide) _ (by omega)]
  rfl

theorem dec3_single {p : Nat} (hp : p < 7) (n : Nibble) : dec3 (codeword 3 n ^^^ (1 <<< p : Nat)) = (n, .corrected) := by
  rw [dec3_eq, syndrome_single (k := 3) (by decide) hp, if_pos (any_column 3 (by decide) _ (by omega)),
    nibOf_flipBit_errorPos (k := 3) (by decide) hp]

theorem dec4_single {p : Nat} (hp : p < 8) (n : Nibble) : dec4 (codeword 4 n ^^^ (1 <<< p : Nat)) = (n, .corrected) := by
  rw [dec4_eq, syndrome_single (k := 4) (by decide) hp, any_column 4 (by decide) _ (by omega), if_neg (by decide),
    if_pos (foldl_xor_column _ (by omega)), nibOf_flipBit_errorPos (k := 4) (by decide) hp]

/-- The nibble of a detected word is the data part as received (R246). -/
theorem dec4_double {p q : Nat} (hp : p < 8) (hq : q < p) (n : Nibble) :
    dec4 (codeword 4 n ^^^ (1 <<< p : Nat) ^^^ (1 <<< q : Nat)) =
      (nibOf (msbBits 8 (codeword 4 n ^^^ (1 <<< p : Nat) ^^^ (1 <<< q : Nat))), .uncorr) := by
  obtain ⟨hany, heven⟩ := syndrome_double p hp q hq
  rw [dec4_eq, BitVec.xor_assoc, syndrome_codeword_xor (k := 4) (by decide), hany, heven]
  rfl

/-- Settles O42: code by code, from the syndrome of no error, of one wrong bit and of two. -/
theorem hammingCodesKeepTheirPromises : Obligations.HammingCodesKeepTheirPromises := fun n =>
  ⟨⟨dec1_codeword n, dec2_codeword n, dec3_codeword n, dec4_codeword n⟩, fun _ hp => dec3_single hp n,
    fun _ hp => dec4_single hp n, fun _ hp _ hq => dec4_double hp hq n, fun _ hp => dec1_single hp n,
    fun _ hp => dec2_single hp n⟩

end Sys2Proof.Machine
end

section
/-! The header checksum (46_header.md R262) is linear over xor: a flip changes the checksum by the checksum of the flipped bits
alone. -/

namespace Sys2Proof.Machine

/-- Bit `i` of a header nibble, `x[i]` of R262. -/
def nibbleBit (x : Nibble) (i : Nat) : BitVec 1 := BitVec.ofBool (x.getLsbD i)

theorem nibbleBit_xor (x y : Nibble) (i : Nat) : nibbleBit (x ^^^ y) i = nibbleBit x i ^^^ nibbleBit y i := by
  rw [nibbleBit, BitVec.getLsbD_xor, ← BitVec.ofBool_xor_ofBool, nibbleBit, nibbleBit]

/-- The word of the checksum bits `c4` to `c0`. -/
def chkWord (c4 c3 c2 c1 c0 : BitVec 1) : BitVec 5 := c4 ++ c3 ++ c2 ++ c1 ++ c0

theorem chkWord_xor (p4 p3 p2 p1 p0 q4 q3 q2 q1 q0 : BitVec 1) :
    chkWord (p4 ^^^ q4) (p3 ^^^ q3) (p2 ^^^ q2) (p1 ^^^ q1) (p0 ^^^ q0) =
      chkWord p4 p3 p2 p1 p0 ^^^ chkWord q4 q3 q2 q1 q0 := by
  simp only [chkWord, ← BitVec.xor_append]

/-- The five equations of R262. -/
theorem headerChk_eq_chkWord (a b c : Nibble) :
    headerChk a b c =
      chkWord (nibbleBit a 3 ^^^ nibbleBit a 2 ^^^ nibbleBit a 1 ^^^ nibbleBit a 0)
        (nibbleBit a 3 ^^^ nibbleBit b 3 ^^^ nibbleBit b 2 ^^^ nibbleBit b 1 ^^^ nibbleBit c 0)
        (nibbleBit a 2 ^^^ nibbleBit b 3 ^^^ nibbleBit b 0 ^^^ nibbleBit c 3 ^^^ nibbleBit c 1)
        (nibbleBit a 1 ^^^ nibbleBit b 2 ^^^ nibbleBit b 0 ^^^ nibbleBit c 2 ^^^ nibbleBit c 1 ^^^ nibbleBit c 0)
        (nibbleBit a 0 ^^^ nibbleBit b 1 ^^^ nibbleBit c 3 ^^^ nibbleBit c 2 ^^^ nibbleBit c 1 ^^^ nibbleBit c 0) := rfl

/-- Each equation is a xor of bits, so it holds of a xor of headers bit by bit. -/
theorem headerChk_xor (a b c e f g : Nibble) :
    headerChk (a ^^^ e) (b ^^^ f) (c ^^^ g) = headerChk a b c ^^^ headerChk e f g := by
  simp only [headerChk_eq_chkWord, ← chkWord_xor, nibbleBit_xor]
  ac_rfl

/-- The checksum bits that a change of the header nibbles changes. -/
theorem headerChk_change (a b c e f g : Nibble) :
    headerChk a b c ^^^ headerChk (a ^^^ e) (b ^^^ f) (c ^^^ g) = headerChk e f g := by
  rw [headerChk_xor, ← BitVec.xor_assoc, BitVec.xor_self, BitVec.zero_xor]

/-- Each of the 12 covered bits stands in at least two of the five equations. -/
theorem headerChk_of_single_bit :
    ∀ p < 4, ∀ d ∈ [headerChk (1 <<< p : Nat) 0 0, headerChk 0 (1 <<< p : Nat) 0, headerChk 0 0 (1 <<< p : Nat)],
      ∃ j < 5, ∃ i < j, d.getLsbD i = true ∧ d.getLsbD j = true := by
  decide

/-- Settles O46: the change of the checksum is the checksum of the single flipped bit. -/
theorem headerChecksumSeesEverySingleFlip : Obligations.HeaderChecksumSeesEverySingleFlip := by
  intro a b c p hp d hd
  have hfirst := headerChk_change a b c (1 <<< p : Nat) 0 0
  have hsecond := headerChk_change a b c 0 (1 <<< p : Nat) 0
  have hthird := headerChk_change a b c 0 0 (1 <<< p : Nat)
  simp only [BitVec.xor_zero, BitVec.ofNat_eq_ofNat] at hfirst hsecond hthird
  rw [hfirst, hsecond, hthird] at hd
  obtain ⟨j, hj, i, hi, hbits⟩ := headerChk_of_single_bit p hp d hd
  exact ⟨i, j, hi, hj, hbits⟩

end Sys2Proof.Machine
end

section
/-! The steps of the Header Decoder (46_header.md R263 to R272): the outcome of a header block, cause by cause, and what becomes of
the nibbles of a payload block. -/

namespace Sys2Proof.Machine

variable {s : State} {b : NibBlock} {rest : List NibBlock}

/-! ### The cause of an abort (R263 to R266) -/

theorem anyUncorr_iff (st : List CwStatus) : anyUncorr st = true ↔ CwStatus.uncorr ∈ st := List.contains_iff_mem

theorem crLegal_iff_not_reserved (cr : Nat) : CrLegal cr ↔ ¬(cr < 1 ∨ 4 < cr) := by
  unfold CrLegal
  omega

theorem NibBlock.hdrAbort_eq_fec (hfec : CwStatus.uncorr ∈ b.st) : b.hdrAbort = some 2 := by
  rw [NibBlock.hdrAbort, if_pos ((anyUncorr_iff b.st).mpr hfec)]

theorem NibBlock.hdrAbort_eq_chk (hfec : CwStatus.uncorr ∉ b.st) (hchk : b.hdrChk ≠ headerChk (b.at 0) (b.at 1) (b.at 2)) :
    b.hdrAbort = some 1 := by
  rw [NibBlock.hdrAbort, if_neg (mt (anyUncorr_iff b.st).mp hfec), if_pos hchk]

theorem NibBlock.hdrAbort_of_checked (hfec : CwStatus.uncorr ∉ b.st)
    (hchk : b.hdrChk = headerChk (b.at 0) (b.at 1) (b.at 2)) :
    b.hdrAbort = if b.hdrCr.toNat < 1 ∨ 4 < b.hdrCr.toNat then some 3 else none := by
  rw [NibBlock.hdrAbort, if_neg (mt (anyUncorr_iff b.st).mp hfec), if_neg (not_not.mpr hchk)]

theorem NibBlock.hdrAbort_eq_rsvd (hfec : CwStatus.uncorr ∉ b.st)
    (hchk : b.hdrChk = headerChk (b.at 0) (b.at 1) (b.at 2)) (hcr : ¬CrLegal b.hdrCr.toNat) : b.hdrAbort = some 3 := by
  rw [NibBlock.hdrAbort_of_checked hfec hchk, if_pos (not_not.mp (mt (crLegal_iff_not_reserved _).mpr hcr))]

theorem NibBlock.hdrAbort_eq_none (hfec : CwStatus.uncorr ∉ b.st)
    (hchk : b.hdrChk = headerChk (b.at 0) (b.at 1) (b.at 2)) (hcr : CrLegal b.hdrCr.toNat) : b.hdrAbort = none := by
  rw [NibBlock.hdrAbort_of_checked hfec hchk, if_neg ((crLegal_iff_not_reserved _).mp hcr)]

/-! ### `HDR.PARSE` (R263, R267 to R269) -/

theorem State.parseStep_of_abort {code : BitVec 4} (hq : s.e6 = b :: rest) (h : b.hdrAbort = some code) :
    s.parseStep = { s with e6 := rest, hdrState := .drop, mbox := some (.abort code) } := by
  simp only [State.parseStep, hq, h]

theorem State.parseStep_of_accepted (hq : s.e6 = b :: rest) (h : b.hdrAbort = none) :
    s.parseStep =
      { s with
        e6 := rest
        hdrState := .pass
        e7 := s.e7 ++ (.fstart b.hdrLen b.hdrCr b.hdrCrc :: b.nibItems 5 s.sf)
        mbox := some (.params b.hdrLen b.hdrCr b.hdrCrc) } := by
  simp only [State.parseStep, hq, h]

/-- Settles O44: the four outcomes are the four values of the cause. -/
theorem hdrParseAcceptsOrAborts : Obligations.HdrParseAcceptsOrAborts := by
  intro s b rest himpl hq hhdr hm hroom h len cr crc chk abort
  have hexec : exec .hdrParse s = .next s.parseStep :=
    exec_of_enabled (i := .hdrParse) (canHdrParse_of_head himpl hq hhdr hm hroom)
  have habort {code : BitVec 4} (hcause : b.hdrAbort = some code) : exec .hdrParse s = abort code := by
    rw [hexec, State.parseStep_of_abort hq hcause]
  refine ⟨fun hfec => habort (NibBlock.hdrAbort_eq_fec hfec),
    fun hfec hchk => habort (NibBlock.hdrAbort_eq_chk hfec hchk),
    fun hfec hchk hcr => habort (NibBlock.hdrAbort_eq_rsvd hfec hchk hcr), fun hfec hchk hcr => ?_⟩
  rw [hexec, State.parseStep_of_accepted hq (NibBlock.hdrAbort_eq_none hfec hchk hcr)]
  rfl

/-! ### `HDR.PASS` and `HDR.IMPL` (R270 to R272) -/

theorem NibBlock.nibItems_zero (b : NibBlock) (sf : Nat) :
    b.nibItems 0 sf = (List.range sf).map fun r => .nib (b.nib.getD r 0) := by
  simp only [NibBlock.nibItems, NibBlock.at, Nat.zero_add, Nat.sub_zero]

theorem exec_hdrPass_of_head (himpl : s.impl = false) (hq : s.e6 = b :: rest) (hhdr : b.hdr = false)
    (hroom : s.e7.length + s.sf ≤ s.par.qDepth) : exec .hdrPass s = .next s.passStep :=
  exec_of_enabled (i := .hdrPass) (by simp [enabled, canHdrPass, State.hdrReady, himpl, hq, hhdr, s.room_iff, hroom])

theorem exec_hdrImpl_of_head (himpl : s.impl = true) (hq : s.e6 = b :: rest)
    (hroom : s.e7.length + (1 + s.sf) ≤ s.par.qDepth) : exec .hdrImpl s = .next s.implStep :=
  exec_of_enabled (i := .hdrImpl) (by simp [enabled, canHdrImpl, himpl, hq, s.room_iff, hroom])

theorem State.passStep_cons (hq : s.e6 = b :: rest) :
    s.passStep = { s with e6 := rest, e7 := if s.hdrState = .pass then s.e7 ++ b.nibItems 0 s.sf else s.e7 } := by
  simp only [State.passStep, hq]

theorem State.implStep_of_first (hq : s.e6 = b :: rest) (hsof : b.sof = true) :
    s.implStep =
      { s with
        e6 := rest
        hdrState := .pass
        e7 := s.e7 ++ (.fstart s.paylen s.modeCr s.crcEn :: b.nibItems 0 s.sf) } := by
  simp only [State.implStep, hq, hsof, if_true, List.append_assoc, List.singleton_append]

/-- A later block of a frame is treated as `HDR.PASS` treats it. -/
theorem State.implStep_of_later (hq : s.e6 = b :: rest) (hsof : b.sof = false) : s.implStep = s.passStep := by
  rw [State.passStep_cons hq]
  simp only [State.implStep, hq, hsof, Bool.false_eq_true, if_false, List.append_nil]
  split <;> simp only [List.append_nil]

/-- Settles O45: two states for a block passed on or discarded, and the first block of a frame. -/
theorem hdrPassesPayloadBlocks : Obligations.HdrPassesPayloadBlocks := by
  intro s b rest hq nibs
  have hnibs : b.nibItems 0 s.sf = nibs := NibBlock.nibItems_zero b s.sf
  have hpass (hst : s.hdrState = .pass) : s.passStep = { s with e6 := rest, e7 := s.e7 ++ nibs } := by
    rw [State.passStep_cons hq, if_pos hst, hnibs]
  have hdiscard (hst : s.hdrState ≠ .pass) : s.passStep = { s with e6 := rest } := by
    rw [State.passStep_cons hq, if_neg hst]
  refine ⟨fun himpl hhdr hroom hst => ?_, fun himpl hhdr hroom hst => ?_, fun himpl hroom hsof => ?_,
    fun himpl hroom hsof hst => ?_, fun himpl hroom hsof hst => ?_⟩
  · rw [exec_hdrPass_of_head himpl hq hhdr hroom, hpass hst]
  · rw [exec_hdrPass_of_head himpl hq hhdr hroom, hdiscard hst]
  · rw [exec_hdrImpl_of_head himpl hq hroom, State.implStep_of_first hq hsof, hnibs]
  · rw [exec_hdrImpl_of_head himpl hq hroom, State.implStep_of_later hq hsof, hpass hst]
  · rw [exec_hdrImpl_of_head himpl hq hroom, State.implStep_of_later hq hsof, hdiscard hst]

end Sys2Proof.Machine
end

section
/-! The whitening sequence (47_dewhitener.md R281, R282): the generator runs through one cycle of all nonzero bytes. -/

namespace Sys2Proof.Machine

open Function

theorem whitening_eq_iterate (i : Nat) : whitening i = lfsrNext^[i] 0xFF := by
  induction i with
  | zero => rfl
  | succ i ih => rw [whitening, ih, iterate_succ_apply']

theorem isPeriodicPt_lfsrNext_iff (n : Nat) : IsPeriodicPt lfsrNext n 0xFF ↔ whitening n = 0xFF := by
  rw [whitening_eq_iterate, IsPeriodicPt, IsFixedPt]

/-- The generator is back at its start after 255 steps, but after none of the three maximal proper divisors of 255. -/
theorem whitening_returns :
    whitening 255 = 0xFF ∧ whitening 85 ≠ 0xFF ∧ whitening 51 ≠ 0xFF ∧ whitening 15 ≠ 0xFF := by
  decide +kernel

theorem dvd_of_mem_properDivisors_255 : ∀ d ∈ Nat.properDivisors 255, d ∣ 85 ∨ d ∣ 51 ∨ d ∣ 15 := by
  decide +kernel

theorem minimalPeriod_lfsrNext : minimalPeriod lfsrNext 0xFF = 255 := by
  obtain ⟨h255, h85, h51, h15⟩ := whitening_returns
  simp only [ne_eq, ← isPeriodicPt_lfsrNext_iff, isPeriodicPt_iff_minimalPeriod_dvd] at h255 h85 h51 h15
  by_contra hne
  have hproper := Nat.mem_properDivisors.mpr ⟨h255, lt_of_le_of_ne (Nat.le_of_dvd (by norm_num) h255) hne⟩
  obtain h | h | h := dvd_of_mem_properDivisors_255 _ hproper
  · exact h85 h
  · exact h51 h
  · exact h15 h

/-- The generator would stay at 0, and could not come back to its start. -/
theorem whitening_ne_zero (i : Nat) : whitening i ≠ 0 := by
  intro hzero
  have hback : whitening (254 * i + i) = 0xFF := by
    rw [← isPeriodicPt_lfsrNext_iff, isPeriodicPt_iff_minimalPeriod_dvd, minimalPeriod_lfsrNext, ← Nat.succ_mul]
    exact Nat.dvd_mul_right 255 i
  have hstays : IsFixedPt lfsrNext 0 := rfl
  rw [whitening_eq_iterate, iterate_add_apply, ← whitening_eq_iterate, hzero, hstays.iterate] at hback
  exact absurd hback (by decide)

theorem toNat_whitening_mem (i : Nat) : (whitening i).toNat ∈ Finset.Ioo 0 256 :=
  Finset.mem_Ioo.mpr ⟨Nat.pos_of_ne_zero fun h => whitening_ne_zero i (BitVec.eq_of_toNat_eq h), (whitening i).isLt⟩

theorem injOn_whitening : Set.InjOn whitening (Set.Iio 255) := by
  have hinj := iterate_injOn_Iio_minimalPeriod (f := lfsrNext) (x := 0xFF)
  rw [minimalPeriod_lfsrNext] at hinj
  exact hinj.congr fun i _ => (whitening_eq_iterate i).symm

/-- One period is 255 different nonzero bytes, and there are no others. -/
theorem exists_whitening_eq {b : Byte} (hb : b ≠ 0) : ∃ i < 255, whitening i = b := by
  have hinj : Set.InjOn (fun i => (whitening i).toNat) (Finset.range 255) := by
    rw [Finset.coe_range]
    exact BitVec.toNat_injective.injOn.comp injOn_whitening (Set.mapsTo_univ _ _)
  have hsurj := Finset.surjOn_of_injOn_of_card_le (t := Finset.Ioo 0 256) _ (fun i _ => toNat_whitening_mem i) hinj (by simp)
  have hmem : b.toNat ∈ Finset.Ioo 0 256 :=
    Finset.mem_Ioo.mpr ⟨Nat.pos_of_ne_zero fun h => hb (BitVec.eq_of_toNat_eq h), b.isLt⟩
  obtain ⟨i, hi, heq⟩ := hsurj hmem
  exact ⟨i, Finset.mem_range.mp hi, BitVec.eq_of_toNat_eq heq⟩

/-- Settles O49: the start has minimal period 255 under the generator step, so a period holds 255 bytes, no two the same. -/
theorem whiteningHasPeriod255 : Obligations.WhiteningHasPeriod255 := by
  refine ⟨rfl, fun i => ?_, whitening_ne_zero, fun b hb => ?_⟩
  · rw [whitening_eq_iterate, whitening_eq_iterate, ← minimalPeriod_lfsrNext, iterate_add_minimalPeriod_eq]
  · obtain ⟨i, hi, rfl⟩ := exists_whitening_eq hb
    exact ⟨i, hi, rfl, fun j hj h => injOn_whitening hj hi h⟩

end Sys2Proof.Machine
end

section
/-! The Dewhitener's steps (47_dewhitener.md R283 to R286), and a whole frame through them: two steps take one byte, and the
invariant of the stage says which whitening byte it is xored with. -/

namespace Sys2Proof.Machine

open Sys2Proof.Safety

variable {s : State} {n : Nibble} {rest : List E7Item}

/-! ### One step (R283 to R286) -/

theorem exec_dewhStart_of_head {len : Byte} {cr : BitVec 3} {crc : Bool} (hq : s.e7 = .fstart len cr crc :: rest)
    (hroom : s.e8.length + 1 ≤ s.par.qDepth) : exec .dewhStart s = .next s.dewhStartStep :=
  exec_of_enabled (i := .dewhStart) (by simp [enabled, canDewhStart, State.e7Start, hq, s.room_iff, hroom])

theorem exec_dewhNib_of_head (hq : s.e7 = .nib n :: rest) (hroom : s.e8.length + 1 ≤ s.par.qDepth) :
    exec .dewhNib s = .next s.dewhNibStep :=
  exec_of_enabled (i := .dewhNib) (by simp [enabled, canDewhNib, State.e7Nib, hq, s.room_iff, hroom])

theorem State.dewhStartStep_cons {len : Byte} {cr : BitVec 3} {crc : Bool} (hq : s.e7 = .fstart len cr crc :: rest) :
    s.dewhStartStep =
      { s with
        e7 := rest
        dewh := { s.dewh with nibV := false, byteIdx := 0, lfsr := 0xFF, len := len, crc := crc,
                              isOpen := decide (0 < frameBytes len crc) }
        e8 := s.e8 ++ [.fstart len crc] } := by
  simp only [State.dewhStartStep, hq]

theorem State.dewhNibStep_of_closed (hq : s.e7 = .nib n :: rest) (hclosed : s.dewh.isOpen = false) :
    s.dewhNibStep = { s with e7 := rest } := by
  simp only [State.dewhNibStep, hq, if_pos hclosed]

/-- The state once the low nibble `n` is taken and held. -/
def State.holdNibble (s : State) (n : Nibble) (rest : List E7Item) : State :=
  { s with e7 := rest, dewh := { s.dewh with nibHold := n, nibV := true } }

theorem State.dewhNibStep_of_low (hq : s.e7 = .nib n :: rest) (hopen : s.dewh.isOpen = true) (hlow : s.dewh.nibV = false) :
    s.dewhNibStep = s.holdNibble n rest := by
  simp only [State.dewhNibStep, hq, if_neg (ne_false_of_eq_true hopen), if_pos hlow, State.holdNibble]

theorem State.dewhNibStep_of_high (hq : s.e7 = .nib n :: rest) (hopen : s.dewh.isOpen = true) (hhigh : s.dewh.nibV = true) :
    s.dewhNibStep = { s with e7 := rest, dewh := s.dewh.afterByte, e8 := s.e8 ++ [.byte (s.dewh.byte n)] } := by
  simp only [State.dewhNibStep, hq, if_neg (ne_false_of_eq_true hopen), if_neg (ne_false_of_eq_true hhigh)]

theorem DewhRegs.afterByte_of_open {r : DewhRegs} (hopen : r.isOpen = true) :
    r.afterByte =
      { r with
        nibV := false
        lfsr := if r.byteIdx.toNat < r.len.toNat then lfsrNext r.lfsr else r.lfsr
        byteIdx := r.byteIdx + 1
        isOpen := decide (¬(r.byteIdx + 1).toNat = frameBytes r.len r.crc) } := by
  simp only [DewhRegs.afterByte, hopen, Bool.true_and, ne_eq]

/-- Settles O48: a nibble is padding, or the low half of a byte, or completes one of the payload or of the CRC. -/
theorem dewhitenerAssemblesBytes : Obligations.DewhitenerAssemblesBytes := by
  refine fun s rest hroom => ⟨fun len cr crc hq => ?_, fun n hq => ?_⟩
  · rw [exec_dewhStart_of_head hq hroom, State.dewhStartStep_cons hq]
    rfl
  · rw [exec_dewhNib_of_head hq hroom]
    refine ⟨fun hclosed => ?_, fun hopen hlow => ?_, fun hopen hhigh hpay => ?_, fun hopen hhigh hpay => ?_⟩
    · rw [State.dewhNibStep_of_closed hq hclosed]
    · rw [State.dewhNibStep_of_low hq hopen hlow, State.holdNibble]
    all_goals rw [State.dewhNibStep_of_high hq hopen hhigh, DewhRegs.afterByte_of_open hopen, DewhRegs.byte]
    · rw [if_pos hpay, if_pos hpay]
      rfl
    · rw [if_neg hpay, if_neg hpay]
      rfl

/-! ### A whole frame (R284, R285) -/

theorem repeatOp_succ {i : Instr} {s t : State} (h : exec i s = .next t) (n : Nat) :
    repeatOp i (n + 1) s = repeatOp i n t := by
  simp only [repeatOp, h]

/-- The two items of `E7` that carry the byte `b`, low nibble first. -/
def byteNibbles (b : Byte) : List E7Item := [.nib (b.extractLsb' 0 4), .nib (b.extractLsb' 4 4)]

theorem append_nibbles (b : Byte) : (b.extractLsb' 4 4 ++ b.extractLsb' 0 4 : BitVec 8) = b := by
  rw [BitVec.extractLsb'_append_extractLsb'_eq_extractLsb' (start₁ := 0) (len₁ := 4) rfl, BitVec.extractLsb'_eq_self]

/-- What goes out for the byte `b` at place `i` of a frame of `len` payload bytes. -/
def dewhitened (len : Byte) (i : Nat) (b : Byte) : E8Item := .byte (if i < len.toNat then b ^^^ whitening i else b)

/-- The state once both nibbles of the byte `b` of an open frame are taken. -/
def State.dewhByteNext (s : State) (b : Byte) (rest : List E7Item) : State :=
  { s with
    e7 := rest
    dewh := { s.dewh.afterByte with nibHold := b.extractLsb' 0 4 }
    e8 := s.e8 ++ [dewhitened s.dewh.len s.dewh.byteIdx.toNat b] }

/-- By the invariant the generator holds the whitening byte of the payload byte that goes out. -/
theorem byte_holdNibble {b : Byte} {items : List E7Item} (h : DewhInv s) :
    E8Item.byte ((s.holdNibble (b.extractLsb' 0 4) items).dewh.byte (b.extractLsb' 4 4)) =
      dewhitened s.dewh.len s.dewh.byteIdx.toNat b := by
  simp only [DewhRegs.byte, State.holdNibble, append_nibbles, dewhitened]
  split
  · rw [h.generator (Nat.le_of_lt ‹_›)]
  · rfl

theorem exec_dewhNib_low {b : Byte} (hq : s.e7 = byteNibbles b ++ rest) (hopen : s.dewh.isOpen = true)
    (hlow : s.dewh.nibV = false) (hroom : s.e8.length + 1 ≤ s.par.qDepth) :
    exec .dewhNib s = .next (s.holdNibble (b.extractLsb' 0 4) (.nib (b.extractLsb' 4 4) :: rest)) := by
  rw [exec_dewhNib_of_head hq hroom, State.dewhNibStep_of_low hq hopen hlow]
  rfl

theorem exec_dewhNib_high {b : Byte} (h : DewhInv s) (hopen : s.dewh.isOpen = true)
    (hroom : s.e8.length + 1 ≤ s.par.qDepth) :
    exec .dewhNib (s.holdNibble (b.extractLsb' 0 4) (.nib (b.extractLsb' 4 4) :: rest)) = .next (s.dewhByteNext b rest) := by
  rw [exec_dewhNib_of_head (s := s.holdNibble _ _) rfl hroom, State.dewhNibStep_of_high (s := s.holdNibble _ _) rfl hopen rfl,
    byte_holdNibble h]
  rfl

/-- Two steps take one byte of an open frame. -/
theorem repeatOp_dewhNib_byte {b : Byte} (h : DewhInv s) (hopen : s.dewh.isOpen = true) (hlow : s.dewh.nibV = false)
    (hq : s.e7 = byteNibbles b ++ rest) (hroom : s.e8.length + 1 ≤ s.par.qDepth) (k : Nat) :
    repeatOp .dewhNib (k + 2) s = repeatOp .dewhNib k (s.dewhByteNext b rest) := by
  rw [repeatOp_succ (exec_dewhNib_low hq hopen hlow hroom), repeatOp_succ (exec_dewhNib_high h hopen hroom)]

theorem dewhInv_dewhByteNext {b : Byte} (h : DewhInv s) (hopen : s.dewh.isOpen = true) :
    DewhInv (s.dewhByteNext b rest) :=
  { dewhInv_afterByte (rest := rest) (items := s.e8) h hopen with }

theorem byteIdx_succ (h : DewhInv s) (hopen : s.dewh.isOpen = true) :
    (s.dewh.byteIdx + 1).toNat = s.dewh.byteIdx.toNat + 1 := by
  have hlt := h.toCome hopen
  have hle := frameBytes_le s.dewh.len s.dewh.crc
  bv_omega

/-- The stage is open as long as bytes of its frame are to come. -/
theorem dewhNib_frame {bytes : List Byte} (h : DewhInv s) (hopen : s.dewh.isOpen = true ↔ bytes ≠ [])
    (hlow : s.dewh.nibV = false) (hlen : s.dewh.byteIdx.toNat + bytes.length = frameBytes s.dewh.len s.dewh.crc)
    (hq : s.e7 = bytes.flatMap byteNibbles ++ rest) (hroom : s.e8.length + bytes.length ≤ s.par.qDepth) :
    ∃ t, repeatOp .dewhNib (2 * bytes.length) s = .next t ∧ t.e7 = rest ∧
      t.e8 = s.e8 ++ bytes.mapIdx (fun i b => dewhitened s.dewh.len (s.dewh.byteIdx.toNat + i) b) ∧
      t.dewh.isOpen = false := by
  induction bytes generalizing s with
  | nil => exact ⟨s, rfl, hq, (List.append_nil _).symm, by simpa using hopen⟩
  | cons b bytes ih =>
    have hop : s.dewh.isOpen = true := hopen.mpr (List.cons_ne_nil _ _)
    have hnext := byteIdx_succ h hop
    rw [List.flatMap_cons, List.append_assoc] at hq
    rw [List.length_cons] at hlen hroom ⊢
    obtain ⟨t, hrun, ht7, ht8, htopen⟩ := ih (s := s.dewhByteNext b (bytes.flatMap byteNibbles ++ rest))
      (dewhInv_dewhByteNext h hop)
      (by
        simp only [State.dewhByteNext, DewhRegs.afterByte_of_open hop, hnext, decide_eq_true_eq, ← hlen, ne_eq,
          ← List.length_eq_zero_iff]
        omega)
      rfl
      (by simp only [State.dewhByteNext, DewhRegs.afterByte, hnext]; omega)
      rfl
      (by simp only [State.dewhByteNext, List.length_append, List.length_singleton]; omega)
    refine ⟨t, ?_, ht7, ?_, htopen⟩
    · rw [Nat.mul_succ, repeatOp_dewhNib_byte h hop hlow hq (by omega), hrun]
    · rw [ht8, List.mapIdx_cons]
      simp only [State.dewhByteNext, DewhRegs.afterByte, hnext, List.append_assoc, List.singleton_append, Nat.add_zero,
        Nat.add_assoc, Nat.add_comm 1]

/-- Settles O50: a frame not begun meets the invariant of the stage. -/
theorem dewhitenerPassesAWholeFrame : Obligations.DewhitenerPassesAWholeFrame := by
  intro s bytes rest hopen hlow hidx hlfsr hne hlen hq hroom
  have hpos := List.length_pos_of_ne_nil hne
  have hinv : DewhInv s :=
    ⟨fun _ => by rw [hidx]; exact hpos.trans_eq hlen, fun _ => by rw [hidx, hlfsr]; rfl⟩
  obtain ⟨t, hrun, ht7, ht8, htopen⟩ := dewhNib_frame hinv (iff_of_true hopen hne) hlow
    (by rw [hidx]; exact (Nat.zero_add _).trans hlen) hq hroom
  refine ⟨t, hrun, ht7, ?_, htopen⟩
  rw [ht8, hidx]
  simp only [dewhitened, BitVec.ofNat_eq_ofNat, BitVec.toNat_zero, Nat.zero_add]

end Sys2Proof.Machine
end

section
/-! The CRC (48_crc.md R291, R292, R297). Every part of the update is injective, so a change within one byte of a payload is never
lost again. -/

namespace Sys2Proof.Machine

/-- Settles O53: the fold by definition, the check values by evaluation. -/
theorem crcCheckValues : Obligations.CrcCheckValues := by
  refine ⟨fun _ => rfl, rfl, ?_⟩
  decide +kernel

/-! ### The update loses nothing (R291) -/

/-- Bit 0 of 0x1021 is 1, so the bit shifted out shows in bit 0. -/
theorem getLsbD_zero_crcShift (c : BitVec 16) : (crcShift c).getLsbD 0 = c.getLsbD 15 := by
  unfold crcShift
  split
  · rename_i h
    rw [h, BitVec.getLsbD_xor, BitVec.getLsbD_shiftLeft]
    rfl
  · rename_i h
    rw [eq_false_of_ne_true h, BitVec.getLsbD_shiftLeft]
    rfl

/-- Equal results shifted out the same bit, and then kept the same 15 others. -/
theorem crcShift_injective : Function.Injective crcShift := by
  intro c d h
  have htop : c.getLsbD 15 = d.getLsbD 15 := by rw [← getLsbD_zero_crcShift, h, getLsbD_zero_crcShift]
  have hshift : c <<< 1 = d <<< 1 := by
    unfold crcShift at h
    rw [htop] at h
    split at h
    · exact (BitVec.xor_left_inj _).mp h
    · exact h
  refine BitVec.eq_of_getLsbD_eq fun i hi => ?_
  obtain rfl | hlt : i = 15 ∨ i + 1 < 16 := by omega
  · exact htop
  · have hbit := congrArg (BitVec.getLsbD · (i + 1)) hshift
    simpa only [BitVec.getLsbD_shiftLeft, hlt, decide_true, Bool.true_and, Nat.not_lt.mpr (Nat.le_add_left 1 i), decide_false,
      Bool.not_false, Nat.add_sub_cancel] using hbit

theorem crcShifts_injective (l : List Nat) : Function.Injective fun c => l.foldl (fun x _ => crcShift x) c := by
  induction l with
  | nil => exact fun _ _ h => h
  | cons _ l ih => exact ih.comp crcShift_injective

theorem crc16Update_left_injective (b : Byte) : Function.Injective fun c => crc16Update c b :=
  fun _ _ h => (BitVec.xor_left_inj _).mp (crcShifts_injective _ h)

theorem crc16Update_right_injective (c : BitVec 16) : Function.Injective (crc16Update c) := by
  intro b e h
  have hshift : b.setWidth 16 <<< 8 = e.setWidth 16 <<< 8 := (BitVec.xor_right_inj _).mp (crcShifts_injective _ h)
  bv_omega

theorem foldl_crc16Update_injective (bytes : List Byte) : Function.Injective fun c => bytes.foldl crc16Update c := by
  induction bytes with
  | nil => exact fun _ _ h => h
  | cons b bytes ih => exact ih.comp (crc16Update_left_injective b)

/-! ### Errors (R297) -/

/-- A change within one byte changes the CRC. -/
theorem crc16_ne_of_ne {b e : Byte} (before after : List Byte) (h : b ≠ e) :
    crc16 (before ++ b :: after) ≠ crc16 (before ++ e :: after) := by
  simp only [crc16, List.foldl_append, List.foldl_cons]
  exact (foldl_crc16Update_injective after).ne ((crc16Update_right_injective _).ne h)

theorem one_shiftLeft_ne_zero : ∀ p < 8, ((1 <<< p : Nat) : Byte) ≠ 0 := by decide

/-- Settles O54: the flip changes one byte, and with it the CRC. -/
theorem crcDetectsEverySingleBitError : Obligations.CrcDetectsEverySingleBitError := by
  intro bytes i p hi hp
  have hsplit : bytes = bytes.take i ++ bytes.getD i 0 :: bytes.drop (i + 1) := by
    rw [List.getD_eq_getElem _ _ hi, List.cons_getElem_drop_succ, List.take_append_drop]
  have hflip : bytes.getD i 0 ^^^ (1 <<< p : Nat) ≠ bytes.getD i 0 := fun h =>
    one_shiftLeft_ne_zero p hp ((BitVec.xor_right_inj _).mp (h.trans BitVec.xor_zero.symm))
  rw [List.set_eq_take_append_cons_drop, if_pos hi]
  conv_rhs => rw [hsplit]
  exact crc16_ne_of_ne _ _ hflip

end Sys2Proof.Machine
end

section
/-! The CRC Verifier's steps (48_crc.md R293 to R296). -/

namespace Sys2Proof.Machine

open Sys2Proof.Safety

variable {s : State} {b : Byte} {rest : List E8Item}

/-! ### The flags of a finished frame (R295; 60_exceptions.md R300) -/

theorem setEvt_rec (evt : BitVec 9) : setEvt evt 0 = evt ||| 0x001 := rfl

theorem setEvt_rec_crcFail (evt : BitVec 9) : setEvt (setEvt evt 0) 5 = evt ||| 0x021 := by
  rw [setEvt, setEvt, BitVec.or_assoc]
  rfl

theorem CrcvRegs.flag_eq_fail_iff (r : CrcvRegs) : r.flag = .fail ↔ r.crc = true ∧ r.acc ≠ r.rx := by
  unfold CrcvRegs.flag
  split_ifs with hcrc hacc
  · simp [hcrc]
  · simp [hacc]
  · simp [hcrc, hacc]

theorem State.finish_eq_or (s : State) :
    s.finish =
      { s with
        e9 := s.e9 ++ [s.crcv.record]
        crcv := { s.crcv with isOpen := false }
        regs := { s.regs with
          evt := s.regs.evt ||| (if s.crcv.flag = .fail then 0x021 else 0x001)
          frameCnt := s.regs.frameCnt + 1 } } := by
  rw [State.finish_eq, setEvt_rec_crcFail, setEvt_rec]
  split <;> rfl

/-! ### `CRCV.START` (R293) -/

/-- The registers of a frame just opened. -/
def CrcvRegs.opened (r : CrcvRegs) (len : Byte) (crc : Bool) : CrcvRegs :=
  { r with len := len, crc := crc, payCnt := 0, acc := 0, rx := 0, isOpen := true }

theorem exec_crcvStart_of_head {len : Byte} {crc : Bool} (hq : s.e8 = .fstart len crc :: rest)
    (hroom : frameBytes len crc = 0 → s.e9.length + 1 ≤ s.par.recDepth) :
    exec .crcvStart s =
      .next (if frameBytes len crc = 0 then State.finish { s with e8 := rest, crcv := s.crcv.opened len crc }
        else { s with e8 := rest, crcv := s.crcv.opened len crc }) := by
  have henabled : enabled .crcvStart s = true := by
    simpa [enabled, canCrcvStart, hq, State.recRoom, ← imp_iff_not_or] using hroom
  rw [exec_of_enabled henabled, effect, State.crcvStartStep]
  simp only [hq]
  rfl

/-- A frame without bytes has no CRC to compare. -/
theorem frameBytes_eq_zero_iff (len : Byte) (crc : Bool) : frameBytes len crc = 0 ↔ len = 0 ∧ crc = false := by
  cases crc <;> simp [frameBytes, bitNat, ← BitVec.toNat_inj]

/-- Settles O51: a frame without bytes is finished by the step that opens it. -/
theorem crcvStartOpensAFrame : Obligations.CrcvStartOpensAFrame := by
  refine fun s len crc rest hq => ⟨fun (hsome : frameBytes len crc ≠ 0) => ?_,
    fun (hnone : frameBytes len crc = 0) hroom => ?_⟩
  · rw [exec_crcvStart_of_head hq fun h => absurd h hsome, if_neg hsome]
    rfl
  · rw [exec_crcvStart_of_head hq fun _ => hroom, if_pos hnone, State.finish_eq_or]
    obtain ⟨rfl, rfl⟩ := (frameBytes_eq_zero_iff len crc).mp hnone
    rfl

/-! ### A byte of an open frame (R294) -/

theorem CrcvRegs.taken_of_payload {r : CrcvRegs} (h : r.payCnt.toNat < r.len.toNat) :
    r.taken b = { r with pay := r.pay.write r.payCnt.toNat b, acc := crc16Update r.acc b, payCnt := r.payCnt + 1 } :=
  if_pos h

theorem CrcvRegs.taken_of_low {r : CrcvRegs} (h : r.payCnt.toNat = r.len.toNat) :
    r.taken b = { r with rx := r.rx.extractLsb' 8 8 ++ b, payCnt := r.payCnt + 1 } := by
  rw [CrcvRegs.taken, if_neg h.not_lt, if_pos h]

theorem CrcvRegs.taken_of_high {r : CrcvRegs} (h : r.len.toNat < r.payCnt.toNat) :
    r.taken b = { r with rx := b ++ r.rx.extractLsb' 0 8, payCnt := r.payCnt + 1 } := by
  rw [CrcvRegs.taken, if_neg h.not_gt, if_neg h.ne']

theorem CrcvRegs.acc_taken_of_crc {r : CrcvRegs} (h : r.len.toNat ≤ r.payCnt.toNat) : (r.taken b).acc = r.acc := by
  obtain h | h := h.eq_or_lt
  · rw [CrcvRegs.taken_of_low h.symm]
  · rw [CrcvRegs.taken_of_high h]

/-- A byte changes nothing but `PAY`, the accumulator, the received CRC and the count. -/
theorem CrcvRegs.taken_eq (r : CrcvRegs) (b : Byte) :
    r.taken b =
      { r with pay := (r.taken b).pay, acc := (r.taken b).acc, rx := (r.taken b).rx, payCnt := r.payCnt + 1 } := by
  obtain h | h | h := Nat.lt_trichotomy r.payCnt.toNat r.len.toNat
  · rw [CrcvRegs.taken_of_payload h]
  · rw [CrcvRegs.taken_of_low h]
  · rw [CrcvRegs.taken_of_high h]

/-- A frame has at most 257 bytes, so `pay_cnt` does not wrap within one. -/
theorem CrcvRegs.payCnt_succ {r : CrcvRegs} (h : r.payCnt.toNat < frameBytes r.len r.crc) :
    (r.payCnt + 1).toNat = r.payCnt.toNat + 1 := by
  have hle := frameBytes_le r.len r.crc
  bv_omega

/-! ### `CRCV.BYTE` (R294, R295) -/

theorem exec_crcvByte_of_closed (hq : s.e8 = .byte b :: rest) (hclosed : s.crcv.isOpen = false) :
    exec .crcvByte s = .next { s with e8 := rest } := by
  have henabled : enabled .crcvByte s = true := by simp [enabled, canCrcvByte, hq, hclosed]
  rw [exec_of_enabled henabled, effect, State.crcvByteEffect_cons hq, State.crcvByteNext, if_pos hclosed]

/-- A byte of an open frame enters the registers; the last one finishes the frame. -/
theorem State.crcvByteEffect_of_open (hq : s.e8 = .byte b :: rest) (hopen : s.crcv.isOpen = true)
    (hcome : s.crcv.payCnt.toNat < frameBytes s.crcv.len s.crcv.crc) :
    s.crcvByteEffect =
      if s.crcv.payCnt.toNat + 1 = frameBytes s.crcv.len s.crcv.crc then
        State.finish { s with e8 := rest, crcv := s.crcv.taken b }
      else { s with e8 := rest, crcv := s.crcv.taken b } := by
  obtain ⟨hcnt, hlen, hcrc⟩ := taken_count s.crcv b
  rw [State.crcvByteEffect_cons hq, State.crcvByteNext, hcnt, hlen, hcrc, CrcvRegs.payCnt_succ hcome,
    if_neg (ne_false_of_eq_true hopen)]

theorem exec_crcvByte_of_more (hq : s.e8 = .byte b :: rest) (hopen : s.crcv.isOpen = true)
    (hmore : s.crcv.payCnt.toNat + 1 < frameBytes s.crcv.len s.crcv.crc) :
    exec .crcvByte s = .next { s with e8 := rest, crcv := s.crcv.taken b } := by
  have henabled : enabled .crcvByte s = true := by simp [enabled, canCrcvByte, hq, hmore.ne]
  rw [exec_of_enabled henabled, effect, State.crcvByteEffect_of_open hq hopen (Nat.lt_of_succ_lt hmore), if_neg hmore.ne]

theorem exec_crcvByte_of_last (hq : s.e8 = .byte b :: rest) (hopen : s.crcv.isOpen = true)
    (hlast : s.crcv.payCnt.toNat + 1 = frameBytes s.crcv.len s.crcv.crc) (hroom : s.e9.length + 1 ≤ s.par.recDepth) :
    exec .crcvByte s = .next (State.finish { s with e8 := rest, crcv := s.crcv.taken b }) := by
  have henabled : enabled .crcvByte s = true := by simp [enabled, canCrcvByte, hq, State.recRoom, hroom]
  rw [exec_of_enabled henabled, effect, State.crcvByteEffect_of_open hq hopen (Nat.lt_of_succ_le hlast.le), if_pos hlast]

/-- Settles O52: a byte is a payload byte, or the low or the high byte of the CRC; the frame is finished by its last byte. -/
theorem crcvByteStoresOrFinishes : Obligations.CrcvByteStoresOrFinishes := by
  refine fun s b rest hq => ⟨exec_crcvByte_of_closed hq, ?_⟩
  intro hopen hwf hcome payload low last hroom
  refine ⟨(s.crcv.taken b).pay, (s.crcv.taken b).acc, (s.crcv.taken b).rx, fun hpay => ?_,
    fun a ha => CrcvRegs.read_pay_taken b ha, fun hcrc => ?_, fun hpay => ?_, fun hlow => ?_, fun hcrc hhigh => ?_, ?_⟩
  · rw [CrcvRegs.taken_of_payload hpay]
    exact ⟨Memory.read_write_eq b hwf, rfl⟩
  · exact CrcvRegs.acc_taken_of_crc (Nat.not_lt.mp hcrc)
  · rw [CrcvRegs.taken_of_payload hpay]
  · rw [CrcvRegs.taken_of_low hlow]
    exact ⟨BitVec.extractLsb'_append_eq_right, BitVec.extractLsb'_append_eq_left⟩
  · rw [CrcvRegs.taken_of_high (by omega)]
    exact ⟨BitVec.extractLsb'_append_eq_left, BitVec.extractLsb'_append_eq_right⟩
  · refine ⟨fun hmore => ?_, fun hlast => ?_⟩
    · rw [exec_crcvByte_of_more hq hopen (lt_of_le_of_ne hcome hmore), CrcvRegs.taken_eq, hopen, decide_eq_true hmore]
    · rw [exec_crcvByte_of_last hq hopen hlast (hroom hlast), State.finish_eq_or]
      simp only [CrcvRegs.flag_eq_fail_iff]
      rw [CrcvRegs.taken_eq, decide_eq_false (not_not.mpr hlast)]
      rfl

end Sys2Proof.Machine
end

section
/-! A whole frame through the CRC Verifier (48_crc.md R294 to R297): the machine takes its bytes one by one into the registers,
and what the registers then hold is the payload, its CRC and the CRC received. -/

namespace Sys2Proof.Machine

open Sys2Proof.Safety

variable {s : State} {rest : List E8Item} {r q : CrcvRegs} {payload : List Byte}

/-! ### The steps of a frame (R294, R295) -/

theorem crcvByte_frame {bytes : List Byte} (hne : bytes ≠ []) (hopen : s.crcv.isOpen = true)
    (hlen : s.crcv.payCnt.toNat + bytes.length = frameBytes s.crcv.len s.crcv.crc)
    (hq : s.e8 = bytes.map E8Item.byte ++ rest) (hroom : s.e9.length + 1 ≤ s.par.recDepth) :
    repeatOp .crcvByte bytes.length s =
      .next (State.finish { s with e8 := rest, crcv := bytes.foldl CrcvRegs.taken s.crcv }) := by
  induction bytes generalizing s with
  | nil => exact absurd rfl hne
  | cons b bytes ih =>
    rw [List.length_cons] at hlen ⊢
    rw [List.foldl_cons]
    by_cases hlast : bytes = []
    · subst hlast
      exact repeatOp_succ (exec_crcvByte_of_last hq hopen hlen hroom) 0
    · have hpos := List.length_pos_of_ne_nil hlast
      obtain ⟨hcnt, hl, hc⟩ := taken_count s.crcv b
      rw [repeatOp_succ (exec_crcvByte_of_more hq hopen (by omega))]
      refine ih (s := { s with e8 := bytes.map E8Item.byte ++ rest, crcv := s.crcv.taken b }) hlast ?_ ?_ rfl hroom
      · rw [CrcvRegs.taken_eq]
        exact hopen
      · dsimp only
        rw [hcnt, hl, hc, CrcvRegs.payCnt_succ (by omega)]
        omega

/-! ### The registers after the payload (R292, R294) -/

/-- `q` is what the registers `r` of a frame not begun become by taking `payload`. -/
structure TookPayload (r : CrcvRegs) (payload : List Byte) (q : CrcvRegs) : Prop where
  count : q.payCnt.toNat = payload.length
  form : q.pay.wf = true
  bytes : q.pay.firstBytes payload.length = payload
  acc : q.acc = crc16 payload
  len : q.len = r.len
  crc : q.crc = r.crc

theorem TookPayload.append_singleton (h : TookPayload r payload q) (b : Byte) (hlt : payload.length < r.len.toNat) :
    TookPayload r (payload ++ [b]) (q.taken b) := by
  have hpay : q.payCnt.toNat < q.len.toNat := by rw [h.count, h.len]; exact hlt
  have hcnt : (q.payCnt + 1).toNat = payload.length + 1 := by
    rw [CrcvRegs.payCnt_succ (hpay.trans_le (Nat.le_add_right _ _)), h.count]
  have hform := wf_pay_taken b h.form
  rw [CrcvRegs.taken_of_payload hpay] at hform ⊢
  exact
    { count := by rw [List.length_append]; exact hcnt
      form := hform
      bytes := by
        rw [List.length_append, List.length_singleton, Memory.firstBytes_succ, h.count, Memory.firstBytes_write, h.bytes,
          Memory.read_write_eq b h.form]
      acc := by rw [crc16_append_singleton, h.acc]
      len := h.len
      crc := h.crc }

theorem tookPayload_foldl (hcnt : r.payCnt = 0) (hacc : r.acc = 0) (hform : r.pay.wf = true)
    (hlen : payload.length ≤ r.len.toNat) : TookPayload r payload (payload.foldl CrcvRegs.taken r) := by
  induction payload using List.reverseRecOn with
  | nil => exact ⟨congrArg BitVec.toNat hcnt, hform, rfl, hacc, rfl, rfl⟩
  | append_singleton payload b ih =>
    rw [List.length_append, List.length_singleton] at hlen
    rw [List.foldl_append, List.foldl_cons, List.foldl_nil]
    exact (ih (Nat.le_of_succ_le hlen)).append_singleton b hlen

/-! ### The record (R295, R296) -/

/-- The two bytes after the payload are the CRC received, the low one first. -/
theorem TookPayload.taken_crc (h : TookPayload r payload q) (hlen : payload.length = r.len.toNat) (low high : Byte) :
    (q.taken low).taken high = { q with rx := high ++ low, payCnt := q.payCnt + 1 + 1 } := by
  have hlow : q.payCnt.toNat = q.len.toNat := by rw [h.count, h.len, hlen]
  have hhigh : q.len.toNat < (q.payCnt + 1).toNat := by
    have := q.len.isLt
    bv_omega
  rw [CrcvRegs.taken_of_low hlow, CrcvRegs.taken_of_high hhigh]
  dsimp only
  rw [BitVec.extractLsb'_append_eq_right]

/-- The flag of a frame with the payload `payload` and the CRC `received`, where it has one. -/
def frameFlag (crc : Bool) (payload : List Byte) (received : BitVec 16) : CrcOk :=
  if crc = false then .unverified else if crc16 payload = received then .pass else .fail

/-- The record of a frame once its payload and then its CRC bytes, none or two, are taken. -/
theorem TookPayload.record_foldl {tail : List Byte} (h : TookPayload r payload q) (hlen : payload.length = r.len.toNat)
    (htail : tail.length = 2 * bitNat r.crc) :
    (tail.foldl CrcvRegs.taken q).record =
      ⟨r.len, frameFlag r.crc payload (tail.getD 1 0 ++ tail.getD 0 0), payload⟩ := by
  rcases hcrc : r.crc
  · rw [hcrc] at htail
    obtain rfl := List.length_eq_zero_iff.mp htail
    rw [List.foldl_nil, CrcvRegs.record, CrcvRegs.flag, h.len, h.crc, hcrc, ← hlen, h.bytes]
    rfl
  · rw [hcrc] at htail
    obtain ⟨low, high, rfl⟩ := List.length_eq_two.mp htail
    rw [List.foldl_cons, List.foldl_cons, List.foldl_nil, h.taken_crc hlen, CrcvRegs.record, CrcvRegs.flag]
    dsimp only
    rw [h.len, h.crc, h.acc, hcrc, ← hlen, h.bytes]
    rfl

/-- Settles O55: the frame's bytes are its payload and what follows, and its last byte pushes the one record. -/
theorem crcvEmitsOneRecordPerFrame : Obligations.CrcvEmitsOneRecordPerFrame := by
  intro s bytes rest hopen hcnt hacc hform hne hlen hq hroom L received ok
  have hpay : (bytes.take L).length = L := List.length_take_of_le (by omega)
  have htail : (bytes.drop L).length = 2 * bitNat s.crcv.crc := by rw [List.length_drop]; omega
  have hrecord : (bytes.foldl CrcvRegs.taken s.crcv).record = ⟨s.crcv.len, ok, bytes.take L⟩ := by
    have htook := tookPayload_foldl hcnt hacc hform hpay.le
    have hsplit := htook.record_foldl hpay htail
    have hafter (i : Nat) : (bytes.drop L).getD i 0 = bytes.getD (L + i) 0 := by
      rw [List.getD_eq_getElem?_getD, List.getD_eq_getElem?_getD, List.getElem?_drop]
    rwa [← List.foldl_append, List.take_append_drop, hafter, hafter] at hsplit
  have hflag : (bytes.foldl CrcvRegs.taken s.crcv).flag = ok := congrArg Record.crcOk hrecord
  refine ⟨_, crcvByte_frame hne hopen (by rw [hcnt]; exact (Nat.zero_add _).trans hlen) hq hroom, ?_⟩
  rw [State.finish_eq_or]
  dsimp only
  rw [hrecord, hflag]
  exact ⟨rfl, rfl, rfl, rfl⟩

end Sys2Proof.Machine
end

section
/-! The interrupt line (60_exceptions.md R311). -/

namespace Sys2Proof.Machine

theorem State.irq_eq_true_iff (s : State) : s.irq = true ↔ s.regs.evt &&& s.regs.irqEn ≠ 0 := by
  rw [State.irq, bne_iff_ne]

theorem State.irq_eq_false_iff (s : State) : s.irq = false ↔ s.regs.evt &&& s.regs.irqEn = 0 := by
  rw [← Bool.not_eq_true, s.irq_eq_true_iff, not_not]

theorem ne_zero_iff_exists_getLsbD {w : Nat} (x : BitVec w) : x ≠ 0 ↔ ∃ n < w, x.getLsbD n = true := by
  rw [ne_eq, BitVec.ofNat_eq_ofNat, BitVec.zero_iff_eq_false, not_forall]
  simp only [Bool.not_eq_false]
  exact exists_congr fun n => ⟨fun h => ⟨BitVec.lt_of_getLsbD h, h⟩, And.right⟩

/-- Settles O20: the line is the `or` of the enabled flags, and a write of all ones to `EVT` leaves no flag. -/
theorem irqFollowsEnabledFlags : Obligations.IrqFollowsEnabledFlags := by
  refine fun s => ⟨?_, fun hidx hv => ⟨s.regWrite 0x0A 0xFFFFFFFF, ?_, ?_⟩⟩
  · simp only [s.irq_eq_true_iff, ne_zero_iff_exists_getLsbD, BitVec.getLsbD_and, Bool.and_eq_true]
  · rw [exec_of_enabled rfl, effect, hidx, hv]
  · have hcleared : ~~~((0xFFFFFFFF : Word32).extractLsb' 0 9) = 0#9 := by decide
    rw [State.irq_eq_false_iff, State.regWrite_evt]
    dsimp only
    rw [hcleared, BitVec.and_zero, BitVec.zero_and]
    rfl

end Sys2Proof.Machine
end
